-- ==== Sys2Proof/Word.lean ====
section
/-! DEFINITION. The widths of the engine (00_scope.md R9, R10; 20_memory.md R80). -/

namespace Sys2Proof

/-- An 8-bit value of a byte string or a buffer (R11). -/
abbrev Byte := BitVec 8

/-- A 32-bit register, command word or SHA-1 word (R9). -/
abbrev Word := BitVec 32

/-- A 64-bit counter or time (R9). -/
abbrev DWord := BitVec 64

/-- A byte offset into the 4096-byte register window: 12 bits (R80). -/
abbrev Offset := BitVec 12

end Sys2Proof
end

