-- ==== Sys2Proof/Config.lean ====
section
/-! DEFINITION. The implementation parameters and the fixed values of 00_scope.md R9. The spec leaves no
result value open (R400, R451), so there is no free value here. -/

namespace Sys2Proof

/-- The two parameters a model takes as arguments (R9, 92_eei_decisions.md "Open parameters"). The host's
`step` takes no argument, so an engine carries them in its state, constant (logs 1 and 2; DESIGN CHOICE). -/
structure Params where
  /-- SECRET_MAX: the capacity in bytes of SECRET_BUF and of KEY_BUF. -/
  secretMax : Nat
  /-- ENGINE_BASE: where the platform puts the window. No rule depends on it (D2). -/
  engineBase : Nat
  deriving DecidableEq, Repr

/-- The parameters of `State.reset`: SECRET_MAX at the spec's default 256 (R9); ENGINE_BASE is OPEN and
stands at 0 (log 2; DESIGN CHOICE). -/
def Params.default : Params := { secretMax := 256, engineBase := 0 }

/-- The host address of an offset of the window (R80, D2). -/
def Params.hostAddress (p : Params) (off : Offset) : Nat := p.engineBase + off.toNat

/-- The ID register: "TOTP" in ASCII, most significant byte first (R31). -/
def Config.idValue : Word := 0x544F5450

/-- DIGITS_MIN and DIGITS_MAX (R9). -/
def Config.digitsMin : Nat := 1
def Config.digitsMax : Nat := 10

/-- STEAM_PERIOD: the Steam Guard time step in seconds (R9). -/
def Config.steamPeriod : Nat := 30

/-- STEAM_LEN: the length of a Steam Guard code (R9). -/
def Config.steamLen : Nat := 5

end Sys2Proof
end

