-- ==== Sys2Proof/Syntax.lean ====
section
/-! DEFINITION. The commands (30_encoding.md R112), the fields of a command word (R110), and the lines of
a host program (R119). -/

namespace Sys2Proof

/-- The thirteen legal commands, one constructor per row of spec/opcode_table.json (R112). A command
carries no operand: its operands are fixed registers and buffers (R111). -/
inductive Instr where
  /-- INIT, word 0x00000001 (R148). -/
  | init
  /-- DECODE, word 0x00000010: the base32 decoding of the secret is the key (R186). -/
  | decode
  /-- DECODE.raw, word 0x00000110: the secret bytes are the key (R186). -/
  | decodeRaw
  /-- HMAC, word 0x00000011 (R213). -/
  | hmac
  /-- TRUNC, word 0x00000012 (R245). -/
  | trunc
  /-- FMT_DEC, word 0x00000013 (R265). -/
  | fmtDec
  /-- FMT_STEAM, word 0x00000014 (R315). -/
  | fmtSteam
  /-- HOTP, word 0x00000020 (R266). -/
  | hotp
  /-- HOTP.raw, word 0x00000120 (R266). -/
  | hotpRaw
  /-- TOTP, word 0x00000021 (R292). -/
  | totp
  /-- TOTP.raw, word 0x00000121 (R292). -/
  | totpRaw
  /-- STEAM, word 0x00000022 (R316). -/
  | steam
  /-- STEAM.raw, word 0x00000122 (R316). -/
  | steamRaw
  deriving DecidableEq, Repr

/-- The fields of a 32-bit command word (R110). -/
structure CommandFields where
  /-- Bits 7:0. -/
  opcode : BitVec 8
  /-- Bit 8. -/
  rawkey : Bool
  /-- Bits 31:9. -/
  rsvd : BitVec 23
  deriving DecidableEq, Repr

/-- A line of a host program: one bus access, or the poll loop WAIT (R119, R120). `WR`, `RD`, `WRB`,
`RDB` and `RDW` are `write` and `read` at 4 or 1 bytes; a line may ask for any other width, which the
bus refuses (R83). -/
inductive HostLine where
  /-- `MemWrite(off, n, v)`; an access of `n` bytes carries the low `8n` bits of `v`. -/
  | write (off : Offset) (n : Nat) (v : Word)
  /-- `MemRead(off, n)`. -/
  | read (off : Offset) (n : Nat)
  /-- `L: RD STATUS`, repeated while DONE reads 0. -/
  | wait
  deriving DecidableEq, Repr

end Sys2Proof
end

