-- ==== Sys2Proof/WellFormed.lean ====
section
/-! DEFINITION. What is well formed before any step: the parameters (R9), a command word's fields (R114,
R112, R113). An `Instr` has no operand, so every `Instr` is well formed. -/

namespace Sys2Proof

/-- `32 <= SECRET_MAX <= 1024` and `SECRET_MAX mod 4 = 0` (R9). -/
def Params.wf (p : Params) : Bool :=
  decide (32 ≤ p.secretMax) && decide (p.secretMax ≤ 1024) && decide (p.secretMax % 4 = 0)

/-- The OPCODE values of the opcode map (R112, R115). -/
def CommandFields.assigned : List (BitVec 8) :=
  [0x01, 0x10, 0x11, 0x12, 0x13, 0x14, 0x20, 0x21, 0x22]

/-- The OPCODE values whose command takes a key source (R113, R115). -/
def CommandFields.keyed : List (BitVec 8) := [0x10, 0x20, 0x21, 0x22]

/-- A legal word: RSVD is 0 (R114), the OPCODE is assigned (R116), and RAWKEY = 1 stands only on a
command that takes a key source (R113). -/
def CommandFields.wf (f : CommandFields) : Bool :=
  f.rsvd == 0 && CommandFields.assigned.contains f.opcode &&
    (!f.rawkey || CommandFields.keyed.contains f.opcode)

/-- A command has no field that could be ill formed (R111). -/
def Instr.wf : Instr → Bool
  | .init | .decode | .decodeRaw | .hmac | .trunc | .fmtDec | .fmtSteam | .hotp | .hotpRaw
  | .totp | .totpRaw | .steam | .steamRaw => true

end Sys2Proof
end

