-- ==== Sys2Proof/Decode.lean ====
section
/-! DEFINITION. The command decoder (30_encoding.md R115), total on 32-bit words, and after it the
encoder, from the opcode map (R112). -/

namespace Sys2Proof

/-- Why a word is ILLEGAL (R115). -/
inductive DecodeError where
  /-- Some bit of 31:9 is 1 (R114). -/
  | reservedBits
  /-- The OPCODE is not in the map (R116). -/
  | unassignedOpcode
  /-- RAWKEY = 1 on a command that takes no key source (R113). -/
  | rawkeyNotAllowed
  deriving DecidableEq, Repr

/-- OPCODE, RAWKEY and RSVD of a word (R110). -/
def CommandFields.ofWord (w : Word) : CommandFields :=
  { opcode := w.extractLsb' 0 8, rawkey := w.getLsbD 8, rsvd := w.extractLsb' 9 23 }

/-- The word with these fields (R110). -/
def CommandFields.toWord (f : CommandFields) : Word := f.rsvd ++ BitVec.ofBool f.rawkey ++ f.opcode

/-- A row of the opcode map: the command at RAWKEY = 0, and the one at RAWKEY = 1 where there is one. -/
structure OpcodeRow where
  opcode : BitVec 8
  plain : Instr
  raw : Option Instr
  deriving DecidableEq, Repr

/-- The opcode map (R112). -/
def opcodeMap : List OpcodeRow :=
  [ ⟨0x01, .init, none⟩,
    ⟨0x10, .decode, some .decodeRaw⟩,
    ⟨0x11, .hmac, none⟩,
    ⟨0x12, .trunc, none⟩,
    ⟨0x13, .fmtDec, none⟩,
    ⟨0x14, .fmtSteam, none⟩,
    ⟨0x20, .hotp, some .hotpRaw⟩,
    ⟨0x21, .totp, some .totpRaw⟩,
    ⟨0x22, .steam, some .steamRaw⟩ ]

/-- The command of an OPCODE and a RAWKEY bit (R112, R113). -/
def commandOf (opcode : BitVec 8) (rawkey : Bool) : Except DecodeError Instr :=
  match opcodeMap.find? (fun r => r.opcode == opcode) with
  | none => .error .unassignedOpcode
  | some r =>
    match rawkey, r.raw with
    | false, _ => .ok r.plain
    | true, some i => .ok i
    | true, none => .error .rawkeyNotAllowed

/-- The decoder: reserved bits first, then the OPCODE, then RAWKEY (R115). -/
def decode (w : Word) : Except DecodeError Instr :=
  let f := CommandFields.ofWord w
  if f.rsvd ≠ 0 then .error .reservedBits else commandOf f.opcode f.rawkey

/-- The command that `decode` reads from a table word. The one 32-bit word is written whole (R110, R117),
so bit 0 of the table's numbering is bit 0 of the word and the bits from `nbits` up are 0. -/
def decodeTableWord (nbits w : Nat) : Option Instr :=
  let v := w % 2 ^ nbits
  if v < 2 ^ 32 then
    match decode (BitVec.ofNat 32 v) with
    | .ok i => some i
    | .error _ => none
  else none

/-- The fields of a command's word (R112). -/
def Instr.fields : Instr → CommandFields
  | .init      => ⟨0x01, false, 0⟩
  | .decode    => ⟨0x10, false, 0⟩
  | .decodeRaw => ⟨0x10, true, 0⟩
  | .hmac      => ⟨0x11, false, 0⟩
  | .trunc     => ⟨0x12, false, 0⟩
  | .fmtDec    => ⟨0x13, false, 0⟩
  | .fmtSteam  => ⟨0x14, false, 0⟩
  | .hotp      => ⟨0x20, false, 0⟩
  | .hotpRaw   => ⟨0x20, true, 0⟩
  | .totp      => ⟨0x21, false, 0⟩
  | .totpRaw   => ⟨0x21, true, 0⟩
  | .steam     => ⟨0x22, false, 0⟩
  | .steamRaw  => ⟨0x22, true, 0⟩

/-- The word of a command (R110, R112). -/
def encode (i : Instr) : Word := i.fields.toWord

end Sys2Proof
end

