-- ==== Sys2Proof/Machine/State.lean ====
section
/-! DEFINITION. The state of the machine as plain data (10_state.md R30), the host agent and the
interleaving beside it, and reset (70_reset_and_hazards.md R451). -/

namespace Sys2Proof.Machine

/-- The byte cells of the window, keyed by window offset: DEC_BUF, STEAM_BUF, SECRET_BUF and KEY_BUF
(20_memory.md R81). Canonical form: `Memory.wf`. -/
abbrev Memory := List Host.Cell

/-- What an unlisted cell reads as: every buffer byte is 0x00 after reset (R451; log 9). -/
def Memory.unlisted : Byte := 0x00

/-- Five 32-bit words: the chaining value H0..H4 of SHA-1 (R203, R206), and so the digest registers
DIGEST0..DIGEST4, which show those words (R48). -/
structure Digest where
  h0 : Word
  h1 : Word
  h2 : Word
  h3 : Word
  h4 : Word
  deriving DecidableEq, Repr

/-- The error kinds of a command (60_exceptions.md R401). -/
inductive ErrorCode where
  /-- Code 1: the base32 decode of the secret fails (R402). -/
  | invalidSecretEncoding
  /-- Code 2: DIGITS outside 1..10 (R403). -/
  | invalidDigitCount
  /-- Code 3: PERIOD = 0 (R404). -/
  | invalidPeriod
  /-- Code 4: a command before INIT (R405). -/
  | uninitialized
  /-- Code 5: reserved, raised by no command (R406). -/
  | outOfMemory
  /-- Code 6: SECRET_LEN above SECRET_MAX (R407). -/
  | secretLength
  /-- Code 7: the command word is illegal (R408). -/
  | illegalCommand
  deriving DecidableEq, Repr

/-- The engine: the tuple of R30. ID and CAPS are constants: `Engine.readReg` reads them from `Config` and
from `params` (R31, R32). -/
structure Engine where
  /-- SECRET_MAX and ENGINE_BASE, constant (R9; logs 1 and 2). -/
  params : Params
  /-- CMD (R33). -/
  cmd : Word
  /-- STATUS.BUSY (R35): a command is pending, its word is `cmd` (R60). -/
  busy : Bool
  /-- STATUS.DONE (R36). -/
  done : Bool
  /-- STATUS.ERROR (R37). -/
  error : Bool
  /-- STATUS.INITIALIZED (R38). -/
  initialized : Bool
  /-- STATUS.ERRCODE (R39). -/
  errcode : BitVec 4
  /-- SECRET_LEN (R40). -/
  secretLen : Word
  /-- DIGITS (R41). -/
  digits : Word
  /-- PERIOD (R42). -/
  period : Word
  /-- COUNTER_LO (R43). -/
  counterLo : Word
  /-- COUNTER_HI (R43). -/
  counterHi : Word
  /-- TIME_LO (R44). -/
  timeLo : Word
  /-- TIME_HI (R44). -/
  timeHi : Word
  /-- KEY_LEN (R45). -/
  keyLen : Word
  /-- TRUNC_OFFSET (R46). -/
  truncOffset : Word
  /-- CTR_OUT_LO (R47). -/
  ctrOutLo : Word
  /-- CTR_OUT_HI (R47). -/
  ctrOutHi : Word
  /-- DIGEST0..DIGEST4 (R48). -/
  digest : Digest
  /-- DBC_RAW (R49). -/
  dbcRaw : Word
  /-- DBC (R50). -/
  dbc : Word
  /-- DEC_VALUE (R51). -/
  decValue : Word
  /-- DEC_LEN (R52). -/
  decLen : Word
  /-- DEC_BUF, STEAM_BUF, SECRET_BUF and KEY_BUF (R53 to R56). -/
  mem : Memory
  deriving DecidableEq, Repr

/-- The recorded result of a host line (R119). -/
inductive Response where
  /-- An accepted write. -/
  | ok
  /-- The value of an accepted 32-bit read. -/
  | word (v : Word)
  /-- The value of an accepted 8-bit read. -/
  | byte (v : Byte)
  /-- The access was refused (R409). -/
  | busError
  deriving DecidableEq, Repr

/-- The host agent (R4, R119): its program, the index of its next line, and the results of the lines it
has finished, line 0 first. -/
structure HostAgent where
  program : List HostLine
  pos : Nat
  results : List Response
  deriving DecidableEq, Repr

/-- Whose event comes next in the one stream of R95. -/
inductive Turn where
  /-- The host performs one bus access (R95). -/
  | host
  /-- The engine completes the pending command (R146). -/
  | engine
  /-- The platform resets the engine (R450). -/
  | reset
  deriving DecidableEq, Repr

/-- The machine. `schedule` is the model's own field: the interleaving still to come (R95; log 3). -/
structure State where
  eng : Engine
  host : HostAgent
  schedule : List Turn
  deriving DecidableEq, Repr

/-- Why the bus refuses an access (R409). `locate`, `busRead` and `busWrite` raise these, and the host
agent turns each into the recorded response BUS_ERROR and goes on to its next line, as R119 says: no step
of the machine ends in a fault (log 8), which is the spec's own effect and safe. -/
inductive Fault where
  /-- Raised by `locate` for an offset that is unmapped, or an access partly outside a mapped item (R82). -/
  | unmapped
  /-- Raised by `locate` for a width other than 8 or 32 bits (R83). -/
  | badWidth
  /-- Raised by `locate` for a 32-bit access off a multiple of 4 (R84). -/
  | misaligned
  /-- Raised by `locate` for an 8-bit access in the register regions (R85). -/
  | byteAccessToRegister
  /-- Raised by `busWrite` for a read-only register or buffer (R87). -/
  | readOnly
  /-- Raised by `busWrite` for CMD, an input register or SECRET_BUF while BUSY = 1 (R88). -/
  | writeWhileBusy
  deriving DecidableEq, Repr

/-- Why a step has no meaning. -/
inductive Refusal where
  /-- For an arm of `exec` with no meaning yet. No arm is left so: nothing raises it. Safe. -/
  | notModelled (mnemonic : String)
  deriving DecidableEq, Repr

/-- The engine after reset, for given parameters (R451). No value is unspecified there. -/
def Engine.reset (p : Params) : Engine :=
  { params := p
    cmd := 0x00000000
    busy := false
    done := false
    error := false
    initialized := false
    errcode := 0
    secretLen := 0
    digits := 6
    period := 30
    counterLo := 0
    counterHi := 0
    timeLo := 0
    timeHi := 0
    keyLen := 0
    truncOffset := 0
    ctrOutLo := 0
    ctrOutHi := 0
    digest := { h0 := 0, h1 := 0, h2 := 0, h3 := 0, h4 := 0 }
    dbcRaw := 0
    dbc := 0
    decValue := 0
    decLen := 0
    mem := [] }

/-- A host with no program (log 4; DESIGN CHOICE: the spec gives the engine's reset only). -/
def HostAgent.empty : HostAgent := { program := [], pos := 0, results := [] }

/-- The machine right after reset, at the default parameters (R451), with no host program and no
scheduled event (logs 3 and 4). -/
def State.reset : State :=
  { eng := Engine.reset Params.default, host := HostAgent.empty, schedule := [] }

end Sys2Proof.Machine
end

