-- ==== Sys2Proof/Machine/Bytes.lean ====
section
/-! DEFINITION. The byte-order and rotation primitives of 00_scope.md R12, R13 and 20_memory.md R86. -/

namespace Sys2Proof.Machine

/-- `ROTL_n(x)` for `0 < n < 32` (R12). -/
def rotl (n : Nat) (x : Word) : Word := (x <<< n) ||| (x >>> (32 - n))

/-- `BE32(b0, b1, b2, b3)` (R13). -/
def be32 (b0 b1 b2 b3 : Byte) : Word := b0 ++ b1 ++ b2 ++ b3

/-- `BE64(c)`: byte `i` is `c[63-8i : 56-8i]` (R13). -/
def be64 (c : DWord) : List Byte := (List.range 8).map fun i => c.extractLsb' (56 - 8 * i) 8

/-- The four bytes of a word, most significant first: `[31-8j : 24-8j]` for j in 0..3 (R48, R207). -/
def beBytes (w : Word) : List Byte := (List.range 4).map fun j => w.extractLsb' (24 - 8 * j) 8

/-- The little-endian word of four buffer bytes (R86). -/
def le32 (b0 b1 b2 b3 : Byte) : Word := b3 ++ b2 ++ b1 ++ b0

/-- The first `n` bytes of a word, least significant first, as a write of `n` bytes stores them (R86). -/
def leBytes (n : Nat) (v : Word) : List Byte := (List.range n).map fun i => v.extractLsb' (8 * i) 8

/-- A byte string followed by 0x00 up to `n` bytes (the commits R188, R263, R313; HMAC's K0, R208). -/
def padTo (n : Nat) (s : List Byte) : List Byte := s ++ List.replicate (n - s.length) 0x00

end Sys2Proof.Machine
end

