-- ==== Sys2Proof/Machine/Flags.lean ====
section
/-! DEFINITION. STATUS: its word (10_state.md R34), the error codes (60_exceptions.md R401), and what an
issue and a completion do to its fields (40_command_control.md R141, R146; 60_exceptions.md R410). -/

namespace Sys2Proof.Machine

/-- The value of ERRCODE for an error (R401). -/
def ErrorCode.code : ErrorCode → BitVec 4
  | .invalidSecretEncoding => 1
  | .invalidDigitCount => 2
  | .invalidPeriod => 3
  | .uninitialized => 4
  | .outOfMemory => 5
  | .secretLength => 6
  | .illegalCommand => 7

/-- The STATUS word: ERRCODE in bits 11:8, INITIALIZED, ERROR, DONE and BUSY in bits 3 to 0, every other
bit 0 (R34, R39). -/
def Engine.statusWord (e : Engine) : Word :=
  (0 : BitVec 20) ++ e.errcode ++ (0 : BitVec 4) ++ BitVec.ofBool e.initialized ++
    BitVec.ofBool e.error ++ BitVec.ofBool e.done ++ BitVec.ofBool e.busy

/-- What an issue does to STATUS (R141). -/
def Engine.markIssued (e : Engine) : Engine :=
  { e with busy := true, done := false, error := false, errcode := 0 }

/-- What the completion of a command that succeeded does to STATUS (R146). -/
def Engine.markSuccess (e : Engine) : Engine :=
  { e with busy := false, done := true, error := false, errcode := 0 }

/-- What the completion of a command that failed does to STATUS (R146, R410). -/
def Engine.markError (code : ErrorCode) (e : Engine) : Engine :=
  { e with busy := false, done := true, error := true, errcode := code.code }

end Sys2Proof.Machine
end

