-- ==== Sys2Proof/Machine/Ops.lean ====
section
/-! DEFINITION. The named operations: byte memory in canonical form, the register file, the commit set
(00_scope.md R16), issue, completion, error completion (60_exceptions.md R410) and reset. -/

namespace Sys2Proof.Machine

/-! ### Byte memory -/

/-- The byte of a cell (R86, R89). -/
def Memory.read : Memory → Nat → Byte
  | [], _ => Memory.unlisted
  | (k, c) :: r, a => if k = a then c else Memory.read r a

/-- Store a byte, keeping the canonical form: rising addresses, and no cell that holds what an unlisted
cell reads as. -/
def Memory.write : Memory → Nat → Byte → Memory
  | [], a, b => if b = Memory.unlisted then [] else [(a, b)]
  | (k, c) :: r, a, b =>
    if a < k then if b = Memory.unlisted then (k, c) :: r else (a, b) :: (k, c) :: r
    else if a = k then if b = Memory.unlisted then r else (a, b) :: r
    else (k, c) :: Memory.write r a b

/-- Store a byte string from an address on. -/
def Memory.writeBytes : Memory → Nat → List Byte → Memory
  | m, _, [] => m
  | m, a, b :: bs => Memory.writeBytes (Memory.write m a b) (a + 1) bs

/-- The `n` bytes from an address on. -/
def Memory.readBytes (m : Memory) (a n : Nat) : List Byte :=
  (List.range n).map fun i => Memory.read m (a + i)

/-- The canonical form: equal memories are equal lists. -/
abbrev Memory.wf (m : Memory) : Prop :=
  List.Pairwise (fun c d => c.1 < d.1) m ∧ ∀ c ∈ m, c.2 ≠ Memory.unlisted

/-! ### Registers and buffers -/

/-- The registers of the map (R30). -/
inductive Reg where
  | id | caps | cmd | status
  | secretLen | digits | period | counterLo | counterHi | timeLo | timeHi
  | keyLen | truncOffset | ctrOutLo | ctrOutHi
  | digest0 | digest1 | digest2 | digest3 | digest4
  | dbcRaw | dbc | decValue | decLen
  deriving DecidableEq, Repr

/-- The offset of a register (R30). -/
def Reg.offset : Reg → Nat
  | .id => 0x000 | .caps => 0x004 | .cmd => 0x008 | .status => 0x00C
  | .secretLen => 0x010 | .digits => 0x014 | .period => 0x018
  | .counterLo => 0x020 | .counterHi => 0x024 | .timeLo => 0x028 | .timeHi => 0x02C
  | .keyLen => 0x040 | .truncOffset => 0x044 | .ctrOutLo => 0x048 | .ctrOutHi => 0x04C
  | .digest0 => 0x050 | .digest1 => 0x054 | .digest2 => 0x058 | .digest3 => 0x05C
  | .digest4 => 0x060 | .dbcRaw => 0x064 | .dbc => 0x068 | .decValue => 0x06C | .decLen => 0x070

/-- Every register of the map (R30). -/
def Reg.all : List Reg :=
  [ .id, .caps, .cmd, .status, .secretLen, .digits, .period, .counterLo, .counterHi, .timeLo, .timeHi,
    .keyLen, .truncOffset, .ctrOutLo, .ctrOutHi, .digest0, .digest1, .digest2, .digest3, .digest4,
    .dbcRaw, .dbc, .decValue, .decLen ]

/-- The register at an offset, if one is mapped there (R30, R82). -/
def Reg.atOffset (a : Nat) : Option Reg := Reg.all.find? fun r => r.offset == a

/-- The registers that accept writes: CMD and the inputs (R87). -/
def Reg.writable : Reg → Bool
  | .cmd | .secretLen | .digits | .period | .counterLo | .counterHi | .timeLo | .timeHi => true
  | .id | .caps | .status | .keyLen | .truncOffset | .ctrOutLo | .ctrOutHi
  | .digest0 | .digest1 | .digest2 | .digest3 | .digest4
  | .dbcRaw | .dbc | .decValue | .decLen => false

/-- CAPS: STEAM_PERIOD, DIGITS_MAX, DIGITS_MIN and SECRET_MAX in bits 31:24, 23:20, 19:16 and 15:0 (R32). -/
def capsWord (p : Params) : Word :=
  BitVec.ofNat 8 Config.steamPeriod ++ BitVec.ofNat 4 Config.digitsMax ++
    BitVec.ofNat 4 Config.digitsMin ++ BitVec.ofNat 16 p.secretMax

/-- `x[NAME]`: the value of a register (R14, R30). -/
def Engine.readReg (e : Engine) : Reg → Word
  | .id => Config.idValue
  | .caps => capsWord e.params
  | .cmd => e.cmd
  | .status => e.statusWord
  | .secretLen => e.secretLen
  | .digits => e.digits
  | .period => e.period
  | .counterLo => e.counterLo
  | .counterHi => e.counterHi
  | .timeLo => e.timeLo
  | .timeHi => e.timeHi
  | .keyLen => e.keyLen
  | .truncOffset => e.truncOffset
  | .ctrOutLo => e.ctrOutLo
  | .ctrOutHi => e.ctrOutHi
  | .digest0 => e.digest.h0
  | .digest1 => e.digest.h1
  | .digest2 => e.digest.h2
  | .digest3 => e.digest.h3
  | .digest4 => e.digest.h4
  | .dbcRaw => e.dbcRaw
  | .dbc => e.dbc
  | .decValue => e.decValue
  | .decLen => e.decLen

/-- The byte buffers (R53 to R56). -/
inductive Buffer where
  | dec | steam | secret | key
  deriving DecidableEq, Repr

/-- The offset of a buffer's byte 0 (R30). -/
def Buffer.base : Buffer → Nat
  | .dec => 0x080
  | .steam => 0x090
  | .secret => 0x400
  | .key => 0x800

/-- The size of a buffer in bytes (R30). -/
def Buffer.size (p : Params) : Buffer → Nat
  | .dec => 16
  | .steam => 8
  | .secret => p.secretMax
  | .key => p.secretMax

/-- Every buffer. -/
def Buffer.all : List Buffer := [.dec, .steam, .secret, .key]

/-- Only SECRET_BUF accepts writes (R87). -/
def Buffer.writable : Buffer → Bool
  | .secret => true
  | .dec | .steam | .key => false

/-- The buffer that holds all `n` bytes from an offset on (R81, R82). -/
def Buffer.atOffset (p : Params) (a n : Nat) : Option Buffer :=
  Buffer.all.find? fun b => decide (b.base ≤ a) && decide (a + n ≤ b.base + b.size p)

/-- Byte `i` of a buffer (R14). -/
def Engine.bufferByte (e : Engine) (b : Buffer) (i : Nat) : Byte := Memory.read e.mem (b.base + i)

/-- The buffer bytes `b[0 .. n)` (R11, R14). -/
def Engine.bufferBytes (e : Engine) (b : Buffer) (n : Nat) : List Byte := Memory.readBytes e.mem b.base n

/-! ### Issue, and the commit set of a command -/

/-- Issue: the word goes to CMD and becomes the pending command; nothing else changes (R141). -/
def Engine.issue (w : Word) (e : Engine) : Engine := ({ e with cmd := w } : Engine).markIssued

/-- What `HmacCommit` commits: the counter used and the digest (R214). -/
structure HmacResult where
  counter : DWord
  digest : Digest
  deriving DecidableEq, Repr

/-- What `TruncCommit` commits (R244). -/
structure TruncResult where
  offset : BitVec 4
  raw : Word
  dbc : Word
  deriving DecidableEq, Repr

/-- What `DecCommit` commits: the digit count, the numeric code and its characters (R263). -/
structure DecResult where
  digits : Nat
  value : Nat
  chars : List Byte
  deriving DecidableEq, Repr

/-- The commit set of a successful command (R16): the parts it writes (R111). -/
structure Commit where
  /-- INITIALIZED <- 1 (R148). -/
  initialized : Bool := false
  /-- `KeyCommit(key)` (R188). -/
  key : Option (List Byte) := none
  /-- `HmacCommit(c, d)` (R214). -/
  hmac : Option HmacResult := none
  /-- `TruncCommit(offset, raw, dbc)` (R244). -/
  trunc : Option TruncResult := none
  /-- `DecCommit(n, value, chars)` (R263). -/
  dec : Option DecResult := none
  /-- `SteamCommit(chars)` (R313). -/
  steam : Option (List Byte) := none
  deriving DecidableEq, Repr

/-- INITIALIZED <- 1 (R148). -/
def Engine.commitInit (e : Engine) : Engine := { e with initialized := true }

/-- `KeyCommit`: KEY_LEN, and all of KEY_BUF with 0x00 after the key (R188). -/
def Engine.commitKey (k : List Byte) (e : Engine) : Engine :=
  { e with
    keyLen := BitVec.ofNat 32 k.length
    mem := Memory.writeBytes e.mem Buffer.key.base (padTo (Buffer.key.size e.params) k) }

/-- `HmacCommit`: CTR_OUT and DIGEST0..4 (R214). -/
def Engine.commitHmac (r : HmacResult) (e : Engine) : Engine :=
  { e with
    ctrOutLo := r.counter.extractLsb' 0 32
    ctrOutHi := r.counter.extractLsb' 32 32
    digest := r.digest }

/-- `TruncCommit`: TRUNC_OFFSET, zero-extended, DBC_RAW and DBC (R244). -/
def Engine.commitTrunc (r : TruncResult) (e : Engine) : Engine :=
  { e with truncOffset := r.offset.setWidth 32, dbcRaw := r.raw, dbc := r.dbc }

/-- `DecCommit`: DEC_VALUE, DEC_LEN, and all 16 bytes of DEC_BUF (R263). -/
def Engine.commitDec (r : DecResult) (e : Engine) : Engine :=
  { e with
    decValue := BitVec.ofNat 32 r.value
    decLen := BitVec.ofNat 32 r.digits
    mem := Memory.writeBytes e.mem Buffer.dec.base (padTo (Buffer.dec.size e.params) r.chars) }

/-- `SteamCommit`: all 8 bytes of STEAM_BUF (R313). -/
def Engine.commitSteam (chars : List Byte) (e : Engine) : Engine :=
  { e with
    mem := Memory.writeBytes e.mem Buffer.steam.base (padTo (Buffer.steam.size e.params) chars) }

/-- Apply one part of a commit set, if it is there. -/
def applyPart {α : Type} (f : α → Engine → Engine) : Option α → Engine → Engine
  | none, e => e
  | some a, e => f a e

/-- Apply every entry of a commit set (R146). -/
def Commit.apply (c : Commit) (e : Engine) : Engine :=
  let e := if c.initialized then e.commitInit else e
  let e := applyPart Engine.commitKey c.key e
  let e := applyPart Engine.commitHmac c.hmac e
  let e := applyPart Engine.commitTrunc c.trunc e
  let e := applyPart Engine.commitDec c.dec e
  applyPart Engine.commitSteam c.steam e

/-! ### Completion, the error completion, and reset -/

/-- Error completion, the counterpart of trap entry: STATUS alone changes (R410). There is no return from
an error: the next issue ends the error state (R413). -/
def Engine.failCommand (code : ErrorCode) (e : Engine) : Engine := e.markError code

/-- Completion of a command that succeeded: the whole commit set and the STATUS update, as one event (R146). -/
def Engine.commitCommand (c : Commit) (e : Engine) : Engine := (c.apply e).markSuccess

/-- The completion step for the result of `Exec` (R146). -/
def Engine.complete (r : Except ErrorCode Commit) (e : Engine) : Engine :=
  match r with
  | .ok c => e.commitCommand c
  | .error code => e.failCommand code

/-- Gating: before INIT has completed, a legal command other than INIT fails (R150). -/
def gated (e : Engine) (r : Except ErrorCode Commit) : Except ErrorCode Commit :=
  if e.initialized then r else .error .uninitialized

/-- The completion step of the machine: the host and the schedule are untouched (R146). -/
def completeWith (r : Except ErrorCode Commit) (s : State) : Host.Outcome State Fault Refusal :=
  .next { s with eng := s.eng.complete r }

/-- Reset: every register, field and buffer to its value of R451, a pending command aborted (R450, R452).
The parameters are constant, and the host agent is not part of the engine (log 5). -/
def platformReset (s : State) : State := { s with eng := Engine.reset s.eng.params }

end Sys2Proof.Machine
end

