-- ==== Sys2Proof/Machine/Operands.lean ====
section
/-! DEFINITION. The operands of the commands (30_encoding.md R111) and the checks that guard them. A
command carries none of its own: each is a fixed register, register pair or buffer. -/

namespace Sys2Proof.Machine

/-- `x[COUNTER]`, the pair HI:LO (R14, R43). -/
def Engine.counter (e : Engine) : DWord := e.counterHi ++ e.counterLo

/-- `x[TIME]`, the pair HI:LO (R14, R44). -/
def Engine.time (e : Engine) : DWord := e.timeHi ++ e.timeLo

/-- `x[CTR_OUT]`, the pair HI:LO (R14, R47). -/
def Engine.ctrOut (e : Engine) : DWord := e.ctrOutHi ++ e.ctrOutLo

/-- `SECRET_BUF[0 .. x[SECRET_LEN])` (R55). -/
def Engine.secret (e : Engine) : List Byte := e.bufferBytes .secret e.secretLen.toNat

/-- `KEY_BUF[0 .. x[KEY_LEN])` (R56, R213). -/
def Engine.key (e : Engine) : List Byte := e.bufferBytes .key e.keyLen.toNat

/-- The 20 bytes of a digest, big-endian per word (R48, R207). -/
def Digest.bytes (d : Digest) : List Byte :=
  beBytes d.h0 ++ beBytes d.h1 ++ beBytes d.h2 ++ beBytes d.h3 ++ beBytes d.h4

/-- `CheckSecretLen` (R187). -/
def checkSecretLen (e : Engine) : Except ErrorCode Unit :=
  if e.secretLen.toNat > e.params.secretMax then .error .secretLength else .ok ()

/-- `CheckDigits`: all 32 bits of DIGITS are compared (R261). -/
def checkDigits (e : Engine) : Except ErrorCode Unit :=
  if e.digits.toNat < Config.digitsMin ∨ e.digits.toNat > Config.digitsMax then
    .error .invalidDigitCount
  else .ok ()

/-- `CheckPeriod` (R291). -/
def checkPeriod (e : Engine) : Except ErrorCode Unit :=
  if e.period = 0 then .error .invalidPeriod else .ok ()

/-- The TOTP counter, `x[TIME] div x[PERIOD]` (R290). -/
def Engine.totpCounter (e : Engine) : DWord := BitVec.ofNat 64 (e.time.toNat / e.period.toNat)

/-- The Steam counter, `x[TIME] div 30` (R317). -/
def Engine.steamCounter (e : Engine) : DWord := BitVec.ofNat 64 (e.time.toNat / Config.steamPeriod)

end Sys2Proof.Machine
end

