-- ==== Sys2Proof/Machine/Control.lean ====
section
/-! DEFINITION. INIT (40_command_control.md R148). -/

namespace Sys2Proof.Machine

/-- `ExecInit`: INITIALIZED <- 1 (R148). -/
def initCommand : Except ErrorCode Commit := .ok { initialized := true }

/-- INIT is the one command exempt from the gating check (R148, R150). -/
def execInit (s : State) : Host.Outcome State Fault Refusal := completeWith initCommand s

end Sys2Proof.Machine
end

