-- ==== Sys2Proof/Machine/Base32.lean ====
section
/-! DEFINITION. The base32 decoder, the key source, and DECODE (41_base32.md). -/

namespace Sys2Proof.Machine

/-- `Val(c)`: the 5-bit value of a base32 symbol, in either case (R171, R172). -/
def symbolValue (c : Byte) : Option Nat :=
  let n := c.toNat
  if 0x41 ≤ n ∧ n ≤ 0x5A then some (n - 0x41)
  else if 0x61 ≤ n ∧ n ≤ 0x7A then some (n - 0x61)
  else if 0x32 ≤ n ∧ n ≤ 0x37 then some (n - 0x32 + 26)
  else none

/-- The padding byte `'='` (R173). -/
def paddingByte : Byte := 0x3D

/-- The loop of `B32Decode` (R175): `acc` holds the `nbits` bits not yet used, `key` the bytes made so
far, and `padded` says that a `'='` has been read. -/
def b32Loop : List Byte → Nat → Nat → List Byte → Bool → Except ErrorCode (List Byte)
  | [], _, _, key, _ => .ok key
  | c :: cs, acc, nbits, key, padded =>
    if c = paddingByte then b32Loop cs acc nbits key true
    else if padded then .error .invalidSecretEncoding
    else
      match symbolValue c with
      | none => .error .invalidSecretEncoding
      | some v =>
        if nbits + 5 ≥ 8 then
          b32Loop cs ((acc * 32 + v) % 2 ^ (nbits + 5 - 8)) (nbits + 5 - 8)
            (key ++ [BitVec.ofNat 8 ((acc * 32 + v) / 2 ^ (nbits + 5 - 8) % 256)]) padded
        else b32Loop cs (acc * 32 + v) (nbits + 5) key padded

/-- `B32Decode(s)` (R175). -/
def b32Decode (s : List Byte) : Except ErrorCode (List Byte) := b32Loop s 0 0 [] false

/-- `KeyFrom(raw, s)` (R185). -/
def keyFrom (raw : Bool) (s : List Byte) : Except ErrorCode (List Byte) :=
  if raw then .ok s else b32Decode s

/-- The secret's length check and then its key, shared by DECODE, HOTP, TOTP and STEAM (R187, R185). -/
def keyOfSecret (raw : Bool) (e : Engine) : Except ErrorCode (List Byte) := do
  checkSecretLen e
  keyFrom raw e.secret

/-- `ExecDecode(raw)` (R186). -/
def decodeCommand (raw : Bool) (e : Engine) : Except ErrorCode Commit := do
  let key ← keyOfSecret raw e
  .ok { key := some key }

/-- DECODE (R186). -/
def execDecode (s : State) : Host.Outcome State Fault Refusal :=
  completeWith (gated s.eng (decodeCommand false s.eng)) s

/-- DECODE.raw (R186). -/
def execDecodeRaw (s : State) : Host.Outcome State Fault Refusal :=
  completeWith (gated s.eng (decodeCommand true s.eng)) s

end Sys2Proof.Machine
end

