-- ==== Sys2Proof/Machine/Sha1.lean ====
section
/-! DEFINITION. SHA-1 (42_hmac_sha1.md R201 to R207). -/

namespace Sys2Proof.Machine

/-- Padding: 0x80, the least number of 0x00 bytes that reaches 56 modulo 64, and the length in bits (R201). -/
def sha1Pad (m : List Byte) : List Byte :=
  m ++ [0x80] ++ List.replicate ((119 - m.length % 64) % 64) 0x00 ++ be64 (BitVec.ofNat 64 (8 * m.length))

/-- The big-endian words of a block (R202). -/
def blockWords : List Byte → List Word
  | b0 :: b1 :: b2 :: b3 :: r => be32 b0 b1 b2 b3 :: blockWords r
  | _ => []

/-- The initial hash value (R203). -/
def sha1Init : Digest :=
  { h0 := 0x67452301, h1 := 0xEFCDAB89, h2 := 0x98BADCFE, h3 := 0x10325476, h4 := 0xC3D2E1F0 }

/-- `n` more words of the message schedule, newest first: from `W[t-1], W[t-2], ...` to
`W[t] = ROTL_1(W[t-3] ^ W[t-8] ^ W[t-14] ^ W[t-16])` (R204). -/
def extendSchedule : Nat → List Word → List Word
  | 0, ws => ws
  | n + 1, ws =>
    extendSchedule n (rotl 1 (ws.getD 2 0 ^^^ ws.getD 7 0 ^^^ ws.getD 13 0 ^^^ ws.getD 15 0) :: ws)

/-- `W[0] .. W[79]` of a block (R204). -/
def messageSchedule (block : List Byte) : List Word :=
  (extendSchedule 64 (blockWords block).reverse).reverse

/-- `f_t(b, c, d)` (R205). -/
def roundFunction (t : Nat) (b c d : Word) : Word :=
  if t < 20 then (b &&& c) ^^^ (~~~b &&& d)
  else if t < 40 then b ^^^ c ^^^ d
  else if t < 60 then (b &&& c) ^^^ (b &&& d) ^^^ (c &&& d)
  else b ^^^ c ^^^ d

/-- `K_t` (R205). -/
def roundConstant (t : Nat) : Word :=
  if t < 20 then 0x5A827999
  else if t < 40 then 0x6ED9EBA1
  else if t < 60 then 0x8F1BBCDC
  else 0xCA62C1D6

/-- One round on `a, b, c, d, e`, held in the fields `h0` to `h4` in that order (R206). -/
def sha1Round (t : Nat) (w : Word) (v : Digest) : Digest :=
  { h0 := rotl 5 v.h0 + roundFunction t v.h1 v.h2 v.h3 + v.h4 + roundConstant t + w
    h1 := v.h0
    h2 := rotl 30 v.h1
    h3 := v.h2
    h4 := v.h3 }

/-- The rounds from round `t` on, one for each word of the schedule left (R206). -/
def sha1Rounds : Nat → List Word → Digest → Digest
  | _, [], v => v
  | t, w :: ws, v => sha1Rounds (t + 1) ws (sha1Round t w v)

/-- The compression of one block (R206). -/
def sha1Compress (h : Digest) (block : List Byte) : Digest :=
  let v := sha1Rounds 0 (messageSchedule block) h
  { h0 := h.h0 + v.h0, h1 := h.h1 + v.h1, h2 := h.h2 + v.h2, h3 := h.h3 + v.h3, h4 := h.h4 + v.h4 }

/-- Compress the first `n` blocks of 64 bytes in turn (R202, R206). -/
def sha1Blocks : Nat → List Byte → Digest → Digest
  | 0, _, h => h
  | n + 1, m, h => sha1Blocks n (m.drop 64) (sha1Compress h (m.take 64))

/-- `SHA1(m)`, as the five words H0..H4; its bytes are `Digest.bytes` (R207). -/
def sha1 (m : List Byte) : Digest :=
  let p := sha1Pad m
  sha1Blocks (p.length / 64) p sha1Init

end Sys2Proof.Machine
end

