-- ==== Sys2Proof/Machine/Hmac.lean ====
section
/-! DEFINITION. HMAC-SHA1 and the HMAC command (42_hmac_sha1.md R208 to R214). -/

namespace Sys2Proof.Machine

/-- `K0`: a key of more than 64 bytes is hashed, and the rest up to 64 bytes is 0x00 (R208). -/
def hmacKeyBlock (key : List Byte) : List Byte :=
  padTo 64 (if key.length > 64 then (sha1 key).bytes else key)

/-- Bytewise exclusive or with a pad byte (R209). -/
def xorPad (pad : Byte) (block : List Byte) : List Byte := block.map fun b => b ^^^ pad

/-- `HMAC_SHA1(key, msg)`, as the five words of the digest (R210). -/
def hmacSha1 (key msg : List Byte) : Digest :=
  sha1 (xorPad 0x5C (hmacKeyBlock key) ++ (sha1 (xorPad 0x36 (hmacKeyBlock key) ++ msg)).bytes)

/-- The counter `c` and `HMAC_SHA1(key, BE64(c))`, as `HmacCommit` takes them (R211, R214). -/
def hmacOfCounter (key : List Byte) (c : DWord) : HmacResult :=
  { counter := c, digest := hmacSha1 key (be64 c) }

/-- `ExecHmac` (R213). -/
def hmacCommand (e : Engine) : Except ErrorCode Commit :=
  .ok { hmac := some (hmacOfCounter e.key e.counter) }

/-- HMAC (R213). -/
def execHmac (s : State) : Host.Outcome State Fault Refusal :=
  completeWith (gated s.eng (hmacCommand s.eng)) s

end Sys2Proof.Machine
end

