-- ==== Sys2Proof/Machine/Trunc.lean ====
section
/-! DEFINITION. Dynamic truncation and TRUNC (43_truncation.md). -/

namespace Sys2Proof.Machine

/-- `offset = d[19] & 0x0F`, the low nibble of the last digest byte (R241). -/
def truncOffsetOf (d : List Byte) : BitVec 4 := (d.getD 19 0).extractLsb' 0 4

/-- The four digest bytes from an offset on, big-endian (R242, R243). -/
def truncWindow (d : List Byte) (offset : Nat) : Word :=
  be32 (d.getD offset 0) (d.getD (offset + 1) 0) (d.getD (offset + 2) 0) (d.getD (offset + 3) 0)

/-- `Truncate(d)` (R244). -/
def truncate (d : List Byte) : TruncResult :=
  let raw := truncWindow d (truncOffsetOf d).toNat
  { offset := truncOffsetOf d, raw := raw, dbc := raw &&& 0x7FFFFFFF }

/-- `ExecTrunc` (R245). -/
def truncCommand (e : Engine) : Except ErrorCode Commit :=
  .ok { trunc := some (truncate e.digest.bytes) }

/-- TRUNC (R245). -/
def execTrunc (s : State) : Host.Outcome State Fault Refusal :=
  completeWith (gated s.eng (truncCommand s.eng)) s

end Sys2Proof.Machine
end

