-- ==== Sys2Proof/Machine/Steam.lean ====
section
/-! DEFINITION. The Steam Guard output stage, FMT_STEAM and STEAM (46_steam.md). -/

namespace Sys2Proof.Machine

/-- STEAM_ALPHABET, `"23456789BCDFGHJKMNPQRTVWXY"`, as its ASCII bytes (R311). -/
def steamAlphabet : List Byte :=
  [ 0x32, 0x33, 0x34, 0x35, 0x36, 0x37, 0x38, 0x39, 0x42, 0x43, 0x44, 0x46, 0x47,
    0x48, 0x4A, 0x4B, 0x4D, 0x4E, 0x50, 0x51, 0x52, 0x54, 0x56, 0x57, 0x58, 0x59 ]

/-- `n` base-26 digits of `v` as symbols, least significant first (R312). -/
def steamDigits : Nat → Nat → List Byte
  | 0, _ => []
  | n + 1, v => steamAlphabet.getD (v % 26) 0 :: steamDigits n (v / 26)

/-- `FmtSteam(v)` (R312). -/
def fmtSteam (v : Nat) : List Byte := steamDigits Config.steamLen v

/-- `ExecFmtSteam` (R315): the input is DBC, the masked value (R310). -/
def fmtSteamCommand (e : Engine) : Except ErrorCode Commit :=
  .ok { steam := some (fmtSteam e.dbc.toNat) }

/-- FMT_STEAM (R315). -/
def execFmtSteam (s : State) : Host.Outcome State Fault Refusal :=
  completeWith (gated s.eng (fmtSteamCommand s.eng)) s

/-- The commit set of STEAM: key, digest, truncation and Steam code (R316). -/
def steamCommit (key : List Byte) (c : DWord) : Commit :=
  let h := hmacOfCounter key c
  let t := truncate h.digest.bytes
  { key := some key, hmac := some h, trunc := some t, steam := some (fmtSteam t.dbc.toNat) }

/-- `ExecSteam(raw)` (R316). -/
def steamCommand (raw : Bool) (e : Engine) : Except ErrorCode Commit := do
  let key ← keyOfSecret raw e
  .ok (steamCommit key e.steamCounter)

/-- STEAM (R316). -/
def execSteam (s : State) : Host.Outcome State Fault Refusal :=
  completeWith (gated s.eng (steamCommand false s.eng)) s

/-- STEAM.raw (R316). -/
def execSteamRaw (s : State) : Host.Outcome State Fault Refusal :=
  completeWith (gated s.eng (steamCommand true s.eng)) s

end Sys2Proof.Machine
end

