-- ==== Sys2Proof/Machine/Decimal.lean ====
section
/-! DEFINITION. The decimal output stage, FMT_DEC and HOTP (44_hotp_decimal.md). -/

namespace Sys2Proof.Machine

/-- `FmtDec(v, n)`: the numeric code `v mod 10^n` and its `n` characters, most significant first (R260). -/
def fmtDec (v n : Nat) : DecResult :=
  let value := v % 10 ^ n
  { digits := n
    value := value
    chars := (List.range n).map fun i => BitVec.ofNat 8 (0x30 + value / 10 ^ (n - 1 - i) % 10) }

/-- `ExecFmtDec` (R265). -/
def fmtDecCommand (e : Engine) : Except ErrorCode Commit := do
  checkDigits e
  .ok { dec := some (fmtDec e.dbc.toNat e.digits.toNat) }

/-- FMT_DEC (R265). -/
def execFmtDec (s : State) : Host.Outcome State Fault Refusal :=
  completeWith (gated s.eng (fmtDecCommand s.eng)) s

/-- The commit set of a decimal generator: key, digest, truncation and decimal code (R266). -/
def hotpCommit (key : List Byte) (c : DWord) (digits : Nat) : Commit :=
  let h := hmacOfCounter key c
  let t := truncate h.digest.bytes
  { key := some key, hmac := some h, trunc := some t, dec := some (fmtDec t.dbc.toNat digits) }

/-- `HotpCore(raw, c)` (R266). -/
def hotpCore (raw : Bool) (c : DWord) (e : Engine) : Except ErrorCode Commit := do
  checkDigits e
  let key ← keyOfSecret raw e
  .ok (hotpCommit key c e.digits.toNat)

/-- HOTP (R266). -/
def execHotp (s : State) : Host.Outcome State Fault Refusal :=
  completeWith (gated s.eng (hotpCore false s.eng.counter s.eng)) s

/-- HOTP.raw (R266). -/
def execHotpRaw (s : State) : Host.Outcome State Fault Refusal :=
  completeWith (gated s.eng (hotpCore true s.eng.counter s.eng)) s

end Sys2Proof.Machine
end

