-- ==== Sys2Proof/Machine/Totp.lean ====
section
/-! DEFINITION. TOTP: HOTP at a counter derived from TIME and PERIOD (45_totp.md). -/

namespace Sys2Proof.Machine

/-- `ExecTotp(raw)` (R292). -/
def totpCommand (raw : Bool) (e : Engine) : Except ErrorCode Commit := do
  checkPeriod e
  hotpCore raw e.totpCounter e

/-- TOTP (R292). -/
def execTotp (s : State) : Host.Outcome State Fault Refusal :=
  completeWith (gated s.eng (totpCommand false s.eng)) s

/-- TOTP.raw (R292). -/
def execTotpRaw (s : State) : Host.Outcome State Fault Refusal :=
  completeWith (gated s.eng (totpCommand true s.eng)) s

end Sys2Proof.Machine
end

