-- ==== Sys2Proof/Machine/Dispatch.lean ====
section
/-! DEFINITION. One arm per command (40_command_control.md R144). -/

namespace Sys2Proof.Machine

def exec (i : Instr) (s : State) : Host.Outcome State Fault Refusal :=
  match i with
  | .init => Sys2Proof.Machine.execInit s
  | .decode => Sys2Proof.Machine.execDecode s
  | .decodeRaw => Sys2Proof.Machine.execDecodeRaw s
  | .hmac => Sys2Proof.Machine.execHmac s
  | .trunc => Sys2Proof.Machine.execTrunc s
  | .fmtDec => Sys2Proof.Machine.execFmtDec s
  | .fmtSteam => Sys2Proof.Machine.execFmtSteam s
  | .hotp => Sys2Proof.Machine.execHotp s
  | .hotpRaw => Sys2Proof.Machine.execHotpRaw s
  | .totp => Sys2Proof.Machine.execTotp s
  | .totpRaw => Sys2Proof.Machine.execTotpRaw s
  | .steam => Sys2Proof.Machine.execSteam s
  | .steamRaw => Sys2Proof.Machine.execSteamRaw s

end Sys2Proof.Machine
end

