-- ==== Sys2Proof/Machine/Bus.lean ====
section
/-! DEFINITION. The host bus: `MemRead` and `MemWrite` (00_scope.md R15; 20_memory.md R80 to R91;
60_exceptions.md R409). -/

namespace Sys2Proof.Machine

/-- What an accepted access addresses: a whole register, or bytes of a buffer (R81). -/
inductive Target where
  | reg (r : Reg)
  | buf (b : Buffer)
  deriving DecidableEq, Repr

/-- Whether the target accepts writes (R87). -/
def Target.writable : Target → Bool
  | .reg r => r.writable
  | .buf b => b.writable

/-- Where an access of `n` bytes at an offset goes, or why the bus refuses it: width (R83), alignment
(R84), an 8-bit access in the register regions 0x000..0x07F (R85), an unmapped offset or an access
partly outside a mapped item (R82). -/
def locate (p : Params) (off : Offset) (n : Nat) : Except Fault Target :=
  if n ≠ 1 ∧ n ≠ 4 then .error .badWidth
  else if n = 4 ∧ off.toNat % 4 ≠ 0 then .error .misaligned
  else if off.toNat < 0x080 then
    if n = 1 then .error .byteAccessToRegister
    else
      match Reg.atOffset off.toNat with
      | some r => .ok (.reg r)
      | none => .error .unmapped
  else
    match Buffer.atOffset p off.toNat n with
    | some b => .ok (.buf b)
    | none => .error .unmapped

/-- The little-endian word at a buffer offset (R86). -/
def Engine.bufferWord (e : Engine) (a : Nat) : Word :=
  le32 (Memory.read e.mem a) (Memory.read e.mem (a + 1)) (Memory.read e.mem (a + 2))
    (Memory.read e.mem (a + 3))

/-- `MemRead(off, n)`: the current value, with no side effect (R89). -/
def busRead (e : Engine) (off : Offset) (n : Nat) : Except Fault Response :=
  match locate e.params off n with
  | .error f => .error f
  | .ok (.reg r) => .ok (.word (e.readReg r))
  | .ok (.buf _) =>
    .ok (if n = 1 then .byte (Memory.read e.mem off.toNat) else .word (e.bufferWord off.toNat))

/-- Store a value in a register that accepts writes; the write of CMD issues (R90, R141). -/
def Engine.writeReg (e : Engine) (v : Word) : Reg → Engine
  | .cmd => e.issue v
  | .secretLen => { e with secretLen := v }
  | .digits => { e with digits := v }
  | .period => { e with period := v }
  | .counterLo => { e with counterLo := v }
  | .counterHi => { e with counterHi := v }
  | .timeLo => { e with timeLo := v }
  | .timeHi => { e with timeHi := v }
  | .id | .caps | .status | .keyLen | .truncOffset | .ctrOutLo | .ctrOutHi
  | .digest0 | .digest1 | .digest2 | .digest3 | .digest4
  | .dbcRaw | .dbc | .decValue | .decLen => e

/-- Store the low `n` bytes of a value at a buffer offset, little-endian (R86). -/
def Engine.writeBuffer (e : Engine) (a n : Nat) (v : Word) : Engine :=
  { e with mem := Memory.writeBytes e.mem a (leBytes n v) }

/-- `MemWrite(off, n, v)`: refused for a read-only item (R87) and, while BUSY = 1, for every item that
accepts writes (R88); otherwise stored (R90). -/
def busWrite (e : Engine) (off : Offset) (n : Nat) (v : Word) : Except Fault Engine :=
  match locate e.params off n with
  | .error f => .error f
  | .ok t =>
    if t.writable = false then .error .readOnly
    else if e.busy then .error .writeWhileBusy
    else
      match t with
      | .reg r => .ok (e.writeReg v r)
      | .buf _ => .ok (e.writeBuffer off.toNat n v)

end Sys2Proof.Machine
end

