-- ==== Sys2Proof/Machine/HostAgent.lean ====
section
/-! DEFINITION. The host agent: one line of its program at a time, and the pseudo-instructions
(30_encoding.md R119 to R121). And whose event comes next (20_memory.md R95). -/

namespace Sys2Proof.Machine

/-- The line is finished: its result is recorded, and the position moves to the next line (R119). -/
def State.finishLine (r : Response) (s : State) : State :=
  { s with host := { s.host with pos := s.host.pos + 1, results := s.host.results ++ [r] } }

/-- What the host records for a read (R119). -/
def readResponse : Except Fault Response → Response
  | .ok r => r
  | .error _ => .busError

/-- One event of the host (R95). A refused access records BUS_ERROR, changes nothing else, and the program
goes on to its next line (R119, R409). A WAIT reads STATUS: with DONE = 0 it stays on its line, with
DONE = 1 it ends with that word as its result (R120). Past the last line nothing happens (R121). -/
def hostTurn (s : State) : State :=
  match s.host.program[s.host.pos]? with
  | none => s
  | some (.read off n) => s.finishLine (readResponse (busRead s.eng off n))
  | some (.write off n v) =>
    match busWrite s.eng off n v with
    | .ok e => State.finishLine .ok { s with eng := e }
    | .error _ => s.finishLine .busError
  | some .wait =>
    if s.eng.statusWord.getLsbD 1 then s.finishLine (.word s.eng.statusWord) else s

/-- Take the next event from the schedule. When it is empty, a pending engine completes, which makes
completion certain (R147), and an idle one leaves the turn to the host (log 3; DESIGN CHOICE). -/
def State.takeTurn (s : State) : Turn × State :=
  match s.schedule with
  | t :: ts => (t, { s with schedule := ts })
  | [] => (if s.eng.busy then .engine else .host, s)

/-! ### Host lines (R119, R120)

`BUF+i` names a byte of the buffer, and an offset has 12 bits (R119, R80). For an `i` that carries the offset
past 0xFFF the spec gives no line; the lines below take the offset modulo 4096 (log 14; DESIGN CHOICE). -/

/-- `WR <reg>, <v32>`. -/
def wr (r : Reg) (v : Word) : HostLine := .write (BitVec.ofNat 12 r.offset) 4 v

/-- `RD <reg>`. -/
def rd (r : Reg) : HostLine := .read (BitVec.ofNat 12 r.offset) 4

/-- `WRB BUF+i, <v8>`. -/
def wrb (b : Buffer) (i : Nat) (v : Byte) : HostLine :=
  .write (BitVec.ofNat 12 (b.base + i)) 1 (v.setWidth 32)

/-- `RDB BUF+i`. -/
def rdb (b : Buffer) (i : Nat) : HostLine := .read (BitVec.ofNat 12 (b.base + i)) 1

/-- `RDW BUF+i`. -/
def rdw (b : Buffer) (i : Nat) : HostLine := .read (BitVec.ofNat 12 (b.base + i)) 4

/-- `CMD <mnemonic>` and `CMD <mnemonic>.raw` (R120). -/
def cmdLine (i : Instr) : HostLine := wr .cmd (encode i)

/-- `RUN <mnemonic>[.raw]` (R120). -/
def runLines (i : Instr) : List HostLine := [cmdLine i, .wait]

/-- `WR64 <pair>, <v64>`, for the pair of registers `lo` and `hi` (R120). -/
def wr64 (lo hi : Reg) (v : DWord) : List HostLine :=
  [wr lo (v.extractLsb' 0 32), wr hi (v.extractLsb' 32 32)]

/-- The words of a `SECRET` from byte `k` on: four bytes a line, 0x00 past the end (R120). Past the 0xC00 bytes
from SECRET_BUF to the window's end the spec leaves the line open; here its offset wraps to 0x000 and up, so
that the word for `k = 0xC08` is a CMD write (log 14; DESIGN CHOICE, unsafe for such a text). -/
def secretWordLines : Nat → List Byte → List HostLine
  | _, [] => []
  | k, b0 :: r =>
    .write (BitVec.ofNat 12 (Buffer.secret.base + k)) 4 (le32 b0 (r.getD 0 0) (r.getD 1 0) (r.getD 2 0)) ::
      match r with
      | _ :: _ :: _ :: r' => secretWordLines (k + 4) r'
      | _ => []

/-- `SECRET "<text>"` and `SECRETB <b0> <b1> ...` (R120). A length of 2^32 bytes or more, which the 32 bits of
SECRET_LEN cannot hold, is taken modulo 2^32 (log 14; DESIGN CHOICE). -/
def secretLines (text : List Byte) : List HostLine :=
  secretWordLines 0 text ++ [wr .secretLen (BitVec.ofNat 32 text.length)]

end Sys2Proof.Machine
end

