-- ==== Sys2Proof/Machine/Step.lean ====
section
/-! DEFINITION. One event of the stream of 20_memory.md R95, and how a command word is placed. -/

namespace Sys2Proof.Machine

/-- The completion step (R146): the pending word is decoded and its command executed (R144); an illegal
word completes with ILLEGAL_COMMAND (R153). It is enabled exactly when the engine is pending: a turn
given to an idle engine changes nothing (log 3). -/
def engineTurn (s : State) : Host.Outcome State Fault Refusal :=
  if s.eng.busy then
    match decode s.eng.cmd with
    | .ok i => exec i s
    | .error _ => completeWith (.error .illegalCommand) s
  else .next s

/-- One event: the host's, the engine's or the platform's (R95, R450). -/
def step (s : State) : Host.Outcome State Fault Refusal :=
  match s.takeTurn with
  | (.host, s') => .next (hostTurn s')
  | (.engine, s') => engineTurn s'
  | (.reset, s') => .next (platformReset s')

/-- The word issued as the pending command, and the very next event given to the engine: what the host's
write of CMD and the stream do for a command (R141, R146; log 6). -/
def State.withFetchWord (s : State) (nbits w : Nat) : State :=
  { s with
    eng := s.eng.issue (BitVec.ofNat 32 (w % 2 ^ nbits))
    schedule := .engine :: s.schedule }

end Sys2Proof.Machine
end

