-- ==== Sys2Proof/Safety.lean ====
section
/-! DEFINITION. What a sound state is: the invariants of 10_state.md R62, with those that R45, R46, R53,
R54, R56 and R61 state of single registers and buffers, and the canonical form of the byte memory. -/

namespace Sys2Proof.Machine

/-! ### Terms of the claims -/

/-- Byte `i` of DEC_BUF after the value `v` is formatted with `n` digits: `'0'` plus the decimal digit of
weight `10^(n-1-i)`, and 0x00 past the digits (R260, R263). -/
def decimalChar (v n i : Nat) : Byte :=
  if i < n then BitVec.ofNat 8 (0x30 + v % 10 ^ n / 10 ^ (n - 1 - i) % 10) else 0x00

/-- Byte `i` of STEAM_BUF after the value `v` is formatted: the symbol of the base-26 digit of weight
`26^i`, and 0x00 past the fifth (R312, R313). -/
def steamChar (v i : Nat) : Byte :=
  if i < 5 then steamAlphabet.getD (v / 26 ^ i % 26) 0x00 else 0x00

/-- The digest as one 160-bit number, byte 0 in its top bits (R48, R207). -/
def Digest.value (d : Digest) : BitVec 160 := d.h0 ++ d.h1 ++ d.h2 ++ d.h3 ++ d.h4

/-- The truncation offset: DIGEST4 bits 3:0 (R241). -/
def Digest.codeOffset (d : Digest) : Nat := (d.h4 &&& 0xF).toNat

/-- The four digest bytes from the offset on, as bits of the 160-bit number (R242, R243). -/
def Digest.window (d : Digest) : Word := d.value.extractLsb' (128 - 8 * d.codeOffset) 32

/-- The window with bit 31 cleared (R244). -/
def Digest.code (d : Digest) : Word := d.window &&& 0x7FFFFFFF

/-- The RAWKEY bit of the commands that take a key source (R113). -/
def rawkeyOf : Instr → Option Bool
  | .decode | .hotp | .totp | .steam => some false
  | .decodeRaw | .hotpRaw | .totpRaw | .steamRaw => some true
  | .init | .hmac | .trunc | .fmtDec | .fmtSteam => none

/-- The generator commands (R20). -/
def generators : List Instr := [.hotp, .hotpRaw, .totp, .totpRaw, .steam, .steamRaw]

/-- The commands that write the decimal result (R111). -/
def decimalCommands : List Instr := [.fmtDec, .hotp, .hotpRaw, .totp, .totpRaw]

/-- The commands that write the Steam code (R111). -/
def steamCommands : List Instr := [.fmtSteam, .steam, .steamRaw]

/-- The key of a command: the secret bytes for RAWKEY = 1, their base32 decoding for RAWKEY = 0 (R185). -/
def Engine.HasKey (e : Engine) (raw : Bool) (key : List Byte) : Prop :=
  e.secretLen.toNat ≤ e.params.secretMax ∧
    if raw then key = e.secret else b32Decode e.secret = .ok key

/-! ### Sound states -/

/-- The parameters are in the ranges of R9. -/
abbrev Engine.ParamsSound (e : Engine) : Prop := e.params.wf = true

/-- Every stored byte is a byte of a buffer, and the memory is in canonical form (R81). -/
abbrev Engine.MemSound (e : Engine) : Prop :=
  Memory.wf e.mem ∧ ∀ c ∈ e.mem, (Buffer.atOffset e.params c.1 1).isSome = true

/-- Not both BUSY and DONE; ERROR implies DONE; ERRCODE is non-zero exactly when ERROR is 1 (R62), and
never 5 or 8..15 (R39). -/
abbrev Engine.StatusSound (e : Engine) : Prop :=
  (e.busy && e.done) = false ∧ (e.error = true → e.done = true) ∧
    (e.errcode ≠ 0 ↔ e.error = true) ∧ e.errcode ≠ 5 ∧ e.errcode.toNat < 8

/-- KEY_LEN is at most SECRET_MAX (R45), and KEY_BUF is 0x00 from KEY_LEN on (R62). -/
abbrev Engine.KeySound (e : Engine) : Prop :=
  e.keyLen.toNat ≤ e.params.secretMax ∧
    ∀ i < e.params.secretMax, e.keyLen.toNat ≤ i → e.bufferByte .key i = 0x00

/-- `x[DBC] = x[DBC_RAW] & 0x7FFFFFFF` (R62), and TRUNC_OFFSET is 0..15 (R46). -/
abbrev Engine.TruncSound (e : Engine) : Prop :=
  e.dbc = e.dbcRaw &&& 0x7FFFFFFF ∧ e.truncOffset.toNat ≤ 15

/-- DEC_LEN is 0..10, DEC_VALUE is below 10^DEC_LEN when DEC_LEN > 0 and at most 2^31-1 (R51, R62), and
DEC_BUF holds the DEC_LEN decimal digits of DEC_VALUE, then 0x00 (R53, R62). -/
abbrev Engine.DecSound (e : Engine) : Prop :=
  e.decLen.toNat ≤ 10 ∧ e.decValue.toNat < 2 ^ 31 ∧
    (e.decLen.toNat > 0 → e.decValue.toNat < 10 ^ e.decLen.toNat) ∧
    ∀ i < 16, e.bufferByte .dec i = decimalChar e.decValue.toNat e.decLen.toNat i

/-- STEAM_BUF is all 0x00, or five symbols of the alphabet; its bytes 5 to 7 are 0x00 (R54, R62). -/
abbrev Engine.SteamSound (e : Engine) : Prop :=
  ((∀ i < 5, e.bufferByte .steam i = 0x00) ∨ ∀ i < 5, e.bufferByte .steam i ∈ steamAlphabet) ∧
    ∀ i < 3, e.bufferByte .steam (5 + i) = 0x00

/-- A sound engine. -/
abbrev Engine.Sound (e : Engine) : Prop :=
  e.ParamsSound ∧ e.MemSound ∧ e.StatusSound ∧ e.KeySound ∧ e.TruncSound ∧ e.DecSound ∧ e.SteamSound

/-- The host has recorded one result for each line it has finished, and is not past its program (R119). -/
abbrev HostAgent.Sound (h : HostAgent) : Prop :=
  h.results.length = h.pos ∧ h.pos ≤ h.program.length

/-- A sound state: the invariant that every step keeps. -/
abbrev State.Sound (s : State) : Prop := s.eng.Sound ∧ s.host.Sound

end Sys2Proof.Machine
end

