-- ==== Sys2Proof/Certificates/Slice0/Obligations.lean ====
section
/-! DEFINITION. The statements for the provers, from the numbered rules of spec/. -/

open Sys2Proof Sys2Proof.Machine

/-! ### Encoding -/

/-- R112: these thirteen words decode to these commands, and no other word decodes to any. -/
def Obligations.OpcodeMapHoldsExactlyThirteenWords : Prop :=
  ∀ (w : Word) (i : Instr), decode w = .ok i ↔
    (w, i) ∈ ([(0x00000001, .init), (0x00000010, .decode), (0x00000110, .decodeRaw),
      (0x00000011, .hmac), (0x00000012, .trunc), (0x00000013, .fmtDec), (0x00000014, .fmtSteam),
      (0x00000020, .hotp), (0x00000120, .hotpRaw), (0x00000021, .totp), (0x00000121, .totpRaw),
      (0x00000022, .steam), (0x00000122, .steamRaw)] : List (Word × Instr))

/-- Decoding and encoding agree, in both directions: a word decodes to a command exactly when it is that
command's word (R110, R115). -/
def Obligations.DecodeAgreesWithEncode : Prop :=
  ∀ (w : Word) (i : Instr), decode w = .ok i ↔ w = encode i

/-- Words written out from the bits of the table (R112), one or more per family, and the illegal words
that R153 names. -/
def Obligations.SampleWordsDecodeAsTheTableSays : Prop :=
  decode 0b00000000000000000000000000000001 = .ok .init ∧
  decode 0b00000000000000000000000100010000 = .ok .decodeRaw ∧
  decode 0b00000000000000000000000000010001 = .ok .hmac ∧
  decode 0b00000000000000000000000000010010 = .ok .trunc ∧
  decode 0b00000000000000000000000000010011 = .ok .fmtDec ∧
  decode 0b00000000000000000000000100100001 = .ok .totpRaw ∧
  decode 0b00000000000000000000000000100010 = .ok .steam ∧
  decode 0x00000000 = .error .unassignedOpcode ∧
  decode 0x00000111 = .error .rawkeyNotAllowed ∧
  decode 0x80000020 = .error .reservedBits

/-- R115: a word is ILLEGAL exactly when a reserved bit is set, the OPCODE is not in the list, or RAWKEY is
set on an OPCODE that takes none; a legal word gives its OPCODE and RAWKEY; every word is accepted by the
CMD write of an idle engine, and refused only while BUSY = 1; an illegal one then completes with
ILLEGAL_COMMAND, and only STATUS changes (R408). -/
def Obligations.IllegalWordsAreIssuedAndCompleteWithIllegalCommand : Prop :=
  (∀ w : Word, (∃ x, decode w = .error x) ↔
    w.extractLsb' 9 23 ≠ 0 ∨
    w.extractLsb' 0 8 ∉ ([0x01, 0x10, 0x11, 0x12, 0x13, 0x14, 0x20, 0x21, 0x22] : List (BitVec 8)) ∨
    (w.getLsbD 8 = true ∧ w.extractLsb' 0 8 ∉ ([0x10, 0x20, 0x21, 0x22] : List (BitVec 8)))) ∧
  (∀ (w : Word) (i : Instr), decode w = .ok i →
    i.fields.opcode = w.extractLsb' 0 8 ∧ i.fields.rawkey = w.getLsbD 8) ∧
  (∀ (e : Engine) (w : Word), e.busy = false → busWrite e 0x008 4 w =
    .ok { e with cmd := w, busy := true, done := false, error := false, errcode := 0 }) ∧
  (∀ (e : Engine) (w : Word), (∃ f, busWrite e 0x008 4 w = .error f) ↔ e.busy = true) ∧
  (∀ (s : State) (x : DecodeError), s.eng.busy = true → decode s.eng.cmd = .error x →
    engineTurn s = .next { s with
      eng := { s.eng with busy := false, done := true, error := true, errcode := 7 } })

/-! ### The step -/

/-- A step runs the decoded command: when the pending word decodes to a command and the next event is the
engine's, `step` is `exec` of it, with the event taken from the schedule (R144, R146). Which event is next
when the schedule is empty is the model's choice (log 3). -/
def Obligations.StepExecutesThePendingCommand : Prop :=
  ∀ (s : State) (i : Instr), s.eng.busy = true → decode s.eng.cmd = .ok i →
    (∀ ts, s.schedule = .engine :: ts → step s = exec i { s with schedule := ts }) ∧
    (s.schedule = [] → step s = exec i s)

/-- A step performs the event that the schedule names, and takes it from the schedule; when the schedule is
empty a pending engine completes, and an idle one leaves the turn to the host. A reset event touches the
engine alone. The schedule is the model's form of the one stream of R95 (logs 3 and 5). -/
def Obligations.StepPerformsTheScheduledEvent : Prop :=
  ∀ (s : State) (ts : List Turn),
    (s.schedule = .host :: ts → step s = .next (hostTurn { s with schedule := ts })) ∧
    (s.schedule = .engine :: ts → step s = engineTurn { s with schedule := ts }) ∧
    (s.schedule = .reset :: ts →
      step s = .next { s with schedule := ts, eng := Engine.reset s.eng.params }) ∧
    (s.schedule = [] → s.eng.busy = true → step s = engineTurn s) ∧
    (s.schedule = [] → s.eng.busy = false → step s = .next (hostTurn s)) ∧
    (s.eng.busy = false → engineTurn s = .next s)

/-- R141 and R142: the CMD write of an idle engine issues, and touches CMD and STATUS alone; while a
command is pending it is refused with BUS_ERROR, and the engine is as it was. -/
def Obligations.CommandWriteIssuesOrIsRefused : Prop :=
  ∀ (s : State) (w : Word), s.host.program[s.host.pos]? = some (.write 0x008 4 w) →
    (s.eng.busy = false → hostTurn s = { s with
      eng := { s.eng with cmd := w, busy := true, done := false, error := false, errcode := 0 }
      host := { s.host with pos := s.host.pos + 1, results := s.host.results ++ [.ok] } }) ∧
    (s.eng.busy = true → hostTurn s = { s with
      host := { s.host with pos := s.host.pos + 1, results := s.host.results ++ [.busError] } })

/-- Every step answers a next state, takes one event from the schedule, and leaves the parameters and the
host program (R16, R400: `Exec` is total and nothing else is an error). -/
def Obligations.EveryStepAnswersANextState : Prop :=
  ∀ s : State, ∃ t, step s = .next t ∧ t.schedule = s.schedule.tail ∧
    t.eng.params = s.eng.params ∧ t.host.program = s.host.program ∧ s.host.pos ≤ t.host.pos ∧
    t.host.pos ≤ s.host.pos + 1

/-- Completion is certain (R147), under the model's schedule (log 3): from a pending state, after finitely
many events in which the engine does not change, comes the completion of the pending command, or a reset
that aborts it. -/
def Obligations.PendingCommandCompletesOrIsReset : Prop :=
  ∀ s : State, s.eng.busy = true →
    ∃ k t u, k ≤ s.schedule.length ∧ core.run k s = .next t ∧ t.eng = s.eng ∧
      core.run (k + 1) s = .next u ∧ u.eng.busy = false ∧
      ((u.eng.done = true ∧ engineTurn t.takeTurn.2 = .next u) ∨
        (t.takeTurn.1 = .reset ∧ u.eng = Engine.reset s.eng.params))

/-- A WAIT whose host event finds DONE = 0 stays on its line, a command pending or not, and changes nothing;
with nothing pending it never ends, whatever events follow; a WAIT with DONE = 1 ends at once, with the
STATUS word as its result (R120, R459; that the line records that word is log 4). -/
def Obligations.WaitEndsOnlyWhenDone : Prop :=
  ∀ s : State, s.host.program[s.host.pos]? = some .wait →
    (s.eng.done = false → hostTurn s = s) ∧
    (s.eng.busy = false → s.eng.done = false →
      ∀ k, ∃ t, core.run k s = .next t ∧ t.host = s.host ∧ t.eng.done = false) ∧
    (s.eng.done = true → hostTurn s = { s with
      host := { s.host with pos := s.host.pos + 1
                            results := s.host.results ++ [.word s.eng.statusWord] } })

/-! ### The bus -/

/-- The accesses the bus accepts, and that a refused one changes no state: R82 to R85, R87, R409. A read is
accepted exactly for a whole mapped register at 32 bits, or for buffer bytes at 8 or aligned 32 bits; a
write exactly for CMD, an input register or SECRET_BUF bytes, while BUSY = 0; a refused line records
BUS_ERROR. -/
def Obligations.BusAcceptsExactlyTheMappedAccesses : Prop :=
  (∀ (e : Engine) (off : Offset) (n : Nat), e.params.wf = true →
    ((∃ r, busRead e off n = .ok r) ↔
      (n = 4 ∧ off.toNat ∈ [0x000, 0x004, 0x008, 0x00C, 0x010, 0x014, 0x018, 0x020, 0x024, 0x028, 0x02C,
        0x040, 0x044, 0x048, 0x04C, 0x050, 0x054, 0x058, 0x05C, 0x060, 0x064, 0x068, 0x06C, 0x070]) ∨
      ((n = 1 ∨ n = 4 ∧ off.toNat % 4 = 0) ∧
        ((0x080 ≤ off.toNat ∧ off.toNat + n ≤ 0x090) ∨ (0x090 ≤ off.toNat ∧ off.toNat + n ≤ 0x098) ∨
          (0x400 ≤ off.toNat ∧ off.toNat + n ≤ 0x400 + e.params.secretMax) ∨
          (0x800 ≤ off.toNat ∧ off.toNat + n ≤ 0x800 + e.params.secretMax))))) ∧
  (∀ (e : Engine) (off : Offset) (n : Nat) (v : Word), e.params.wf = true →
    ((∃ e', busWrite e off n v = .ok e') ↔ e.busy = false ∧
      ((n = 4 ∧ off.toNat ∈ [0x008, 0x010, 0x014, 0x018, 0x020, 0x024, 0x028, 0x02C]) ∨
        ((n = 1 ∨ n = 4 ∧ off.toNat % 4 = 0) ∧
          0x400 ≤ off.toNat ∧ off.toNat + n ≤ 0x400 + e.params.secretMax)))) ∧
  (∀ (s : State) (off : Offset) (n : Nat) (f : Fault),
    s.host.program[s.host.pos]? = some (.read off n) → busRead s.eng off n = .error f →
    hostTurn s = { s with
      host := { s.host with pos := s.host.pos + 1, results := s.host.results ++ [.busError] } }) ∧
  (∀ (s : State) (off : Offset) (n : Nat) (v : Word) (f : Fault),
    s.host.program[s.host.pos]? = some (.write off n v) → busWrite s.eng off n v = .error f →
    hostTurn s = { s with
      host := { s.host with pos := s.host.pos + 1, results := s.host.results ++ [.busError] } })

/-- R88: while BUSY = 1 no write is accepted and the host changes nothing in the engine; a read is accepted
as it is while BUSY = 0, and returns the current value. -/
def Obligations.PendingEngineRefusesWritesAndAnswersReads : Prop :=
  ∀ s : State, s.eng.busy = true →
    (∀ off n v, ∃ f, busWrite s.eng off n v = .error f) ∧
    (hostTurn s).eng = s.eng ∧
    (∀ (r : Reg) (off : Offset), off.toNat = r.offset →
      busRead s.eng off 4 = .ok (.word (s.eng.readReg r))) ∧
    (s.eng.params.wf = true → ∀ (b : Buffer) (i : Nat), i < b.size s.eng.params →
      busRead s.eng (BitVec.ofNat 12 (b.base + i)) 1 = .ok (.byte (s.eng.bufferByte b i))) ∧
    (s.eng.params.wf = true → ∀ (b : Buffer) (k : Nat), 4 * k + 4 ≤ b.size s.eng.params →
      busRead s.eng (BitVec.ofNat 12 (b.base + 4 * k)) 4 =
        .ok (.word (le32 (s.eng.bufferByte b (4 * k)) (s.eng.bufferByte b (4 * k + 1))
          (s.eng.bufferByte b (4 * k + 2)) (s.eng.bufferByte b (4 * k + 3)))))

/-- R86: buffer bytes and words. A 32-bit read packs four bytes little-endian; an accepted 32-bit write
stores the word's bytes in address order; a byte written by an 8-bit access is that byte, and lands in its
place of the word; every other byte of the window stays. -/
def Obligations.BufferWordsAreLittleEndian : Prop :=
  ∀ (e : Engine), e.params.wf = true → Memory.wf e.mem →
    (∀ (b : Buffer) (k : Nat), 4 * k + 4 ≤ b.size e.params → ∃ w : Word,
      busRead e (BitVec.ofNat 12 (b.base + 4 * k)) 4 = .ok (.word w) ∧
      w.toNat = (e.bufferByte b (4 * k)).toNat + (e.bufferByte b (4 * k + 1)).toNat * 2 ^ 8 +
        (e.bufferByte b (4 * k + 2)).toNat * 2 ^ 16 + (e.bufferByte b (4 * k + 3)).toNat * 2 ^ 24) ∧
    (∀ (b : Buffer) (i : Nat), i < b.size e.params →
      busRead e (BitVec.ofNat 12 (b.base + i)) 1 = .ok (.byte (e.bufferByte b i))) ∧
    (e.busy = false → ∀ (k : Nat) (v : Word), 4 * k + 4 ≤ e.params.secretMax → ∃ m : Memory,
      busWrite e (BitVec.ofNat 12 (0x400 + 4 * k)) 4 v = .ok { e with mem := m } ∧
      (∀ j < 4, Memory.read m (0x400 + 4 * k + j) = v.extractLsb' (8 * j) 8) ∧
      ∀ a, (a < 0x400 + 4 * k ∨ 0x400 + 4 * k + 4 ≤ a) → Memory.read m a = Memory.read e.mem a) ∧
    (e.busy = false → ∀ (i : Nat) (v : Word), i < e.params.secretMax → ∃ m : Memory,
      busWrite e (BitVec.ofNat 12 (0x400 + i)) 1 v = .ok { e with mem := m } ∧
      Memory.read m (0x400 + i) = v.extractLsb' 0 8 ∧
      ∀ a, a ≠ 0x400 + i → Memory.read m a = Memory.read e.mem a)

/-- A read returns the current value, in every engine, BUSY or not: each register's at its offset, CMD's last
stored word among them (R89, R33, R30; BufferWordsAreLittleEndian says it of the buffers). A read line
records the value read and has no other effect: the engine is untouched. -/
def Obligations.ReadLinesHaveNoSideEffect : Prop :=
  (∀ e : Engine, ∀ item ∈ ([(0x000, 0x544F5450), (0x004, e.readReg .caps), (0x008, e.cmd),
      (0x00C, e.statusWord), (0x010, e.secretLen), (0x014, e.digits), (0x018, e.period),
      (0x020, e.counterLo), (0x024, e.counterHi), (0x028, e.timeLo), (0x02C, e.timeHi),
      (0x040, e.keyLen), (0x044, e.truncOffset), (0x048, e.ctrOutLo), (0x04C, e.ctrOutHi),
      (0x050, e.digest.h0), (0x054, e.digest.h1), (0x058, e.digest.h2), (0x05C, e.digest.h3),
      (0x060, e.digest.h4), (0x064, e.dbcRaw), (0x068, e.dbc), (0x06C, e.decValue),
      (0x070, e.decLen)] : List (Offset × Word)),
    busRead e item.1 4 = .ok (.word item.2)) ∧
  ∀ (s : State) (off : Offset) (n : Nat) (r : Response),
    s.host.program[s.host.pos]? = some (.read off n) → busRead s.eng off n = .ok r →
    hostTurn s = { s with
      host := { s.host with pos := s.host.pos + 1, results := s.host.results ++ [r] } }

/-- An accepted write of an input register stores the value there and changes no other register and no
buffer (R40 to R44, R90). -/
def Obligations.InputWritesStoreOneRegister : Prop :=
  ∀ (e : Engine) (r : Reg) (off : Offset) (v : Word), e.busy = false → off.toNat = r.offset →
    r ∈ [Reg.secretLen, .digits, .period, .counterLo, .counterHi, .timeLo, .timeHi] →
    ∃ e', busWrite e off 4 v = .ok e' ∧ e'.readReg r = v ∧
      (∀ r', r' ≠ r → e'.readReg r' = e.readReg r') ∧ e'.mem = e.mem ∧ e'.params = e.params

/-- The pseudo-instruction SECRET stores a text of any length up to SECRET_MAX: run from an idle engine,
its lines leave the text in SECRET_BUF and its length in SECRET_LEN (R120). -/
def Obligations.SecretLinesLoadTheText : Prop :=
  ∀ (s : State) (text : List Byte), s.eng.params.wf = true → Memory.wf s.eng.mem →
    s.eng.busy = false → s.schedule = [] → text.length ≤ s.eng.params.secretMax →
    s.host.program = secretLines text → s.host.pos = 0 →
    ∃ t, core.run (secretLines text).length s = .next t ∧ t.eng.secret = text ∧
      t.eng.secretLen = BitVec.ofNat 32 text.length ∧ t.host.pos = t.host.program.length

/-! ### STATUS and the constant registers -/

/-- R34: the fields of STATUS stand at their bits, and every other bit reads 0. -/
def Obligations.StatusWordHoldsItsFields : Prop :=
  ∀ e : Engine,
    e.statusWord.getLsbD 0 = e.busy ∧ e.statusWord.getLsbD 1 = e.done ∧
    e.statusWord.getLsbD 2 = e.error ∧ e.statusWord.getLsbD 3 = e.initialized ∧
    e.statusWord.extractLsb' 4 4 = 0 ∧ e.statusWord.extractLsb' 8 4 = e.errcode ∧
    e.statusWord.extractLsb' 12 20 = 0

/-- R31 and R32: ID reads 0x544F5450, and CAPS holds SECRET_MAX, DIGITS_MIN, DIGITS_MAX and STEAM_PERIOD in
its fields; with SECRET_MAX = 256 it reads 0x1EA10100. No write is accepted at either, and no step changes
them, reset included. -/
def Obligations.IdAndCapsAreConstant : Prop :=
  (∀ e : Engine, busRead e 0x000 4 = .ok (.word 0x544F5450) ∧ e.readReg .id = 0x544F5450) ∧
  (∀ e : Engine, busRead e 0x004 4 = .ok (.word (e.readReg .caps))) ∧
  (∀ (e : Engine) (n : Nat) (v : Word),
    (∃ f, busWrite e 0x000 n v = .error f) ∧ ∃ f, busWrite e 0x004 n v = .error f) ∧
  (∀ e : Engine, e.params.wf = true →
    ((e.readReg .caps).extractLsb' 0 16).toNat = e.params.secretMax ∧
    (e.readReg .caps).extractLsb' 16 4 = 1 ∧ (e.readReg .caps).extractLsb' 20 4 = 10 ∧
    (e.readReg .caps).extractLsb' 24 8 = 30) ∧
  (∀ e : Engine, e.params.secretMax = 256 → e.readReg .caps = 0x1EA10100) ∧
  (∀ s t : State, step s = .next t →
    t.eng.readReg .id = s.eng.readReg .id ∧ t.eng.readReg .caps = s.eng.readReg .caps)

/-! ### Invariants and whole-machine rules -/

/-- The state after reset is sound, for the default parameters and for every legal SECRET_MAX. -/
def Obligations.ResetStateIsSound : Prop :=
  State.reset.Sound ∧ ∀ p : Params, p.wf = true → (Engine.reset p).Sound

/-- Every step keeps a sound state sound: the invariants of R62, and those of R39, R45, R46, R51 to R54 and
R56, in every state any run of any host program, interleaving and resets can reach. -/
def Obligations.EveryStepKeepsTheStateSound : Prop :=
  ∀ s t : State, s.Sound → step s = .next t → t.Sound

/-- R62: the invariants hold in every reachable state: whatever the parameters, the host program and the
interleaving of accesses, completions and resets, every state a run from reset comes to is sound. -/
def Obligations.ReachableStatesAreSound : Prop :=
  ∀ (p : Params) (program : List HostLine) (schedule : List Turn) (k : Nat) (t : State), p.wf = true →
    core.run k { eng := Engine.reset p, host := { program := program, pos := 0, results := [] },
                 schedule := schedule } = .next t →
    t.Sound

/-- R453: INITIALIZED changes only by a completion of INIT, which sets it, and by reset, which clears it. -/
def Obligations.OnlyInitSetsAndOnlyResetClearsInitialized : Prop :=
  ∀ s t : State, step s = .next t →
    (t.eng.initialized ≠ s.eng.initialized →
      s.takeTurn.1 = .reset ∨
      (s.takeTurn.1 = .engine ∧ s.eng.busy = true ∧ decode s.eng.cmd = .ok .init)) ∧
    (s.takeTurn.1 = .reset → t.eng.initialized = false) ∧
    (s.takeTurn.1 = .engine → s.eng.busy = true → decode s.eng.cmd = .ok .init →
      t.eng.initialized = true)

/-- R61: who writes each class of state. The inputs and SECRET_BUF change only by an accepted host write or
reset; the results, KEY_BUF, DEC_BUF and STEAM_BUF only by the commit of a command that succeeds or reset;
CMD and STATUS only by an issue, a completion or reset; ID and CAPS never. -/
def Obligations.EachClassOfStateHasItsOnlyWriters : Prop :=
  ∀ s t : State, s.eng.params.wf = true → Memory.wf s.eng.mem → step s = .next t →
    (((t.eng.secretLen, t.eng.digits, t.eng.period, t.eng.counterLo, t.eng.counterHi, t.eng.timeLo,
        t.eng.timeHi) ≠
      (s.eng.secretLen, s.eng.digits, s.eng.period, s.eng.counterLo, s.eng.counterHi, s.eng.timeLo,
        s.eng.timeHi) ∨
      ∃ i < s.eng.params.secretMax, t.eng.bufferByte .secret i ≠ s.eng.bufferByte .secret i) →
      s.takeTurn.1 = .reset ∨
      (s.takeTurn.1 = .host ∧ ∃ off n v e, s.host.program[s.host.pos]? = some (.write off n v) ∧
        busWrite s.eng off n v = .ok e)) ∧
    (((t.eng.keyLen, t.eng.truncOffset, t.eng.ctrOutLo, t.eng.ctrOutHi, t.eng.digest, t.eng.dbcRaw,
        t.eng.dbc, t.eng.decValue, t.eng.decLen) ≠
      (s.eng.keyLen, s.eng.truncOffset, s.eng.ctrOutLo, s.eng.ctrOutHi, s.eng.digest, s.eng.dbcRaw,
        s.eng.dbc, s.eng.decValue, s.eng.decLen) ∨
      ∃ b i, b ≠ Buffer.secret ∧ i < b.size s.eng.params ∧
        t.eng.bufferByte b i ≠ s.eng.bufferByte b i) →
      s.takeTurn.1 = .reset ∨
      (s.takeTurn.1 = .engine ∧ s.eng.busy = true ∧ t.eng.error = false)) ∧
    (((t.eng.cmd, t.eng.statusWord) ≠ (s.eng.cmd, s.eng.statusWord)) →
      s.takeTurn.1 = .reset ∨ (s.takeTurn.1 = .engine ∧ s.eng.busy = true) ∨
      (s.takeTurn.1 = .host ∧ s.eng.busy = false ∧
        ∃ w, s.host.program[s.host.pos]? = some (.write 0x008 4 w))) ∧
    t.eng.readReg .id = s.eng.readReg .id ∧ t.eng.readReg .caps = s.eng.readReg .caps

/-- R410: a command that fails changes STATUS alone; one that succeeds ends with ERRCODE 0 and ERROR 0. -/
def Obligations.FailedCommandChangesOnlyStatus : Prop :=
  ∀ s t : State, s.eng.busy = true → engineTurn s = .next t →
    (t.eng.error = true → ∃ code : BitVec 4, code ∈ ([1, 2, 3, 4, 6, 7] : List (BitVec 4)) ∧
      t = { s with
        eng := { s.eng with busy := false, done := true, error := true, errcode := code } }) ∧
    (t.eng.error = false → t.eng.errcode = 0 ∧ t.eng.busy = false ∧ t.eng.done = true)

/-- R411: the error a completion reports is the first that applies, in the order ILLEGAL_COMMAND,
UNINITIALIZED, INVALID_PERIOD, INVALID_DIGIT_COUNT, SECRET_LENGTH, INVALID_SECRET_ENCODING. -/
def Obligations.ReportedErrorFollowsThePriority : Prop :=
  ∀ s t : State, s.eng.busy = true → engineTurn s = .next t →
    t.eng.errcode =
      (match decode s.eng.cmd with
       | .error _ => (7 : BitVec 4)
       | .ok i =>
         if i ≠ .init ∧ s.eng.initialized = false then 4
         else if i ∈ [Instr.totp, .totpRaw] ∧ s.eng.period = 0 then 3
         else if i ∈ [Instr.fmtDec, .hotp, .hotpRaw, .totp, .totpRaw] ∧
             (s.eng.digits.toNat < 1 ∨ s.eng.digits.toNat > 10) then 2
         else if i ∈ [Instr.decode, .decodeRaw, .hotp, .hotpRaw, .totp, .totpRaw, .steam, .steamRaw] ∧
             s.eng.secretLen.toNat > s.eng.params.secretMax then 6
         else if i ∈ [Instr.decode, .hotp, .totp, .steam] ∧
             (b32Decode s.eng.secret).isOk = false then 1
         else 0) ∧
    (t.eng.error = true ↔ t.eng.errcode ≠ 0)

/-- R150: before INIT has completed, every legal command other than INIT completes with UNINITIALIZED and
writes nothing else; an illegal word reports ILLEGAL_COMMAND even then. -/
def Obligations.UninitializedEngineRunsOnlyInit : Prop :=
  (∀ (s : State) (i : Instr), i ≠ .init → s.eng.initialized = false →
    exec i s = .next { s with
      eng := { s.eng with busy := false, done := true, error := true, errcode := 4 } }) ∧
  (∀ (s : State) (x : DecodeError), s.eng.busy = true → s.eng.initialized = false →
    decode s.eng.cmd = .error x →
    engineTurn s = .next { s with
      eng := { s.eng with busy := false, done := true, error := true, errcode := 7 } })

/-- The frame of every command (R111): a command writes only the parts of its commit set, and STATUS; the
inputs, CMD, the parameters, the host and the schedule stay, and so does every byte outside the buffers it
writes. -/
def Obligations.CommandsWriteOnlyTheirCommitSet : Prop :=
  ∀ (i : Instr) (s t : State), s.eng.params.wf = true → Memory.wf s.eng.mem → exec i s = .next t →
    t.host = s.host ∧ t.schedule = s.schedule ∧ t.eng.params = s.eng.params ∧ t.eng.cmd = s.eng.cmd ∧
    t.eng.secretLen = s.eng.secretLen ∧ t.eng.digits = s.eng.digits ∧ t.eng.period = s.eng.period ∧
    t.eng.counterLo = s.eng.counterLo ∧ t.eng.counterHi = s.eng.counterHi ∧
    t.eng.timeLo = s.eng.timeLo ∧ t.eng.timeHi = s.eng.timeHi ∧
    (i ≠ .init → t.eng.initialized = s.eng.initialized) ∧
    (rawkeyOf i = none → t.eng.keyLen = s.eng.keyLen) ∧
    (i ∉ Instr.hmac :: generators → t.eng.ctrOutLo = s.eng.ctrOutLo ∧
      t.eng.ctrOutHi = s.eng.ctrOutHi ∧ t.eng.digest = s.eng.digest) ∧
    (i ∉ Instr.trunc :: generators → t.eng.truncOffset = s.eng.truncOffset ∧
      t.eng.dbcRaw = s.eng.dbcRaw ∧ t.eng.dbc = s.eng.dbc) ∧
    (i ∉ decimalCommands → t.eng.decValue = s.eng.decValue ∧ t.eng.decLen = s.eng.decLen) ∧
    ∀ a, (rawkeyOf i = none ∨ a < 0x800 ∨ 0x800 + s.eng.params.secretMax ≤ a) →
      (i ∉ decimalCommands ∨ a < 0x080 ∨ 0x090 ≤ a) →
      (i ∉ steamCommands ∨ a < 0x090 ∨ 0x098 ≤ a) →
      Memory.read t.eng.mem a = Memory.read s.eng.mem a

/-! ### The commands: each completes with the next state its rule gives -/

/-- INIT (R148): from every state, INITIALIZED becomes 1, STATUS reports success, nothing else changes. -/
def Obligations.InitCompletes : Prop :=
  ∀ s : State, exec .init s = .next { s with
    eng := { s.eng with initialized := true, busy := false, done := true, error := false, errcode := 0 } }

/-- R149: INIT is idempotent: after one INIT, a second changes nothing at all; INIT changes STATUS alone; and
no command clears INITIALIZED again. -/
def Obligations.InitIsIdempotent : Prop :=
  (∀ s t : State, exec .init s = .next t →
    exec .init t = .next t ∧ t.eng.initialized = true ∧
    { t with eng := { t.eng with busy := s.eng.busy, done := s.eng.done, error := s.eng.error
                                 errcode := s.eng.errcode, initialized := s.eng.initialized } } = s) ∧
  (∀ (i : Instr) (s t : State), exec i s = .next t → s.eng.initialized = true →
    t.eng.initialized = true)

/-- DECODE and DECODE.raw (R186): with a legal length and a key, KEY_LEN is the key's length, KEY_BUF is the
key followed by 0x00 up to SECRET_MAX (R188), and nothing else changes but STATUS. -/
def Obligations.DecodeCommitsTheKey : Prop :=
  ∀ (s : State) (i : Instr) (raw : Bool) (key : List Byte),
    (i, raw) ∈ [(Instr.decode, false), (Instr.decodeRaw, true)] → Memory.wf s.eng.mem →
    s.eng.initialized = true → s.eng.HasKey raw key →
    ∃ m : Memory,
      exec i s = .next { s with
        eng := { s.eng with
          busy := false, done := true, error := false, errcode := 0
          keyLen := BitVec.ofNat 32 key.length, mem := m } } ∧
      Memory.wf m ∧
      ∀ a, Memory.read m a =
        if 0x800 ≤ a ∧ a < 0x800 + s.eng.params.secretMax then key.getD (a - 0x800) 0x00
        else Memory.read s.eng.mem a

/-- HMAC (R213): CTR_OUT is COUNTER, DIGEST is the HMAC-SHA1 of BE64(COUNTER) under the current key (R214),
and nothing else changes but STATUS. -/
def Obligations.HmacCommitsTheDigest : Prop :=
  ∀ s : State, s.eng.initialized = true →
    exec .hmac s = .next { s with
      eng := { s.eng with
        busy := false, done := true, error := false, errcode := 0
        ctrOutLo := s.eng.counterLo, ctrOutHi := s.eng.counterHi
        digest := hmacSha1 (Memory.readBytes s.eng.mem 0x800 s.eng.keyLen.toNat)
          (be64 (s.eng.counterHi ++ s.eng.counterLo)) } }

/-- TRUNC (R245): TRUNC_OFFSET is DIGEST4 bits 3:0, DBC_RAW the four digest bytes from there, big-endian,
DBC the same with bit 31 cleared, and nothing else changes but STATUS. -/
def Obligations.TruncCommitsTheWindow : Prop :=
  ∀ s : State, s.eng.initialized = true →
    exec .trunc s = .next { s with
      eng := { s.eng with
        busy := false, done := true, error := false, errcode := 0
        truncOffset := s.eng.digest.h4 &&& 0xF
        dbcRaw := s.eng.digest.window, dbc := s.eng.digest.window &&& 0x7FFFFFFF } }

/-- FMT_DEC (R265): for 1 to 10 digits, DEC_VALUE is DBC mod 10^DIGITS, DEC_LEN is DIGITS, DEC_BUF holds the
digits and then 0x00 (R263), and nothing else changes but STATUS. -/
def Obligations.FmtDecCommitsTheDecimalCode : Prop :=
  ∀ s : State, Memory.wf s.eng.mem → s.eng.initialized = true →
    1 ≤ s.eng.digits.toNat → s.eng.digits.toNat ≤ 10 →
    ∃ m : Memory,
      exec .fmtDec s = .next { s with
        eng := { s.eng with
          busy := false, done := true, error := false, errcode := 0
          decValue := BitVec.ofNat 32 (s.eng.dbc.toNat % 10 ^ s.eng.digits.toNat)
          decLen := s.eng.digits, mem := m } } ∧
      Memory.wf m ∧
      ∀ a, Memory.read m a =
        if 0x080 ≤ a ∧ a < 0x090 then decimalChar s.eng.dbc.toNat s.eng.digits.toNat (a - 0x080)
        else Memory.read s.eng.mem a

/-- FMT_STEAM (R315): STEAM_BUF holds the five base-26 symbols of DBC and then 0x00 (R312, R313), and nothing
else changes but STATUS. -/
def Obligations.FmtSteamCommitsTheSteamCode : Prop :=
  ∀ s : State, Memory.wf s.eng.mem → s.eng.initialized = true →
    ∃ m : Memory,
      exec .fmtSteam s = .next { s with
        eng := { s.eng with busy := false, done := true, error := false, errcode := 0, mem := m } } ∧
      Memory.wf m ∧
      ∀ a, Memory.read m a =
        if 0x090 ≤ a ∧ a < 0x098 then steamChar s.eng.dbc.toNat (a - 0x090)
        else Memory.read s.eng.mem a

/-- HOTP and HOTP.raw (R266): with 1 to 10 digits, a legal length and a key, the whole commit set at the
counter COUNTER: key, CTR_OUT and digest, truncation, decimal code; STEAM_BUF and everything else stay but
STATUS. -/
def Obligations.HotpCommitsKeyDigestAndCode : Prop :=
  ∀ (s : State) (i : Instr) (raw : Bool) (key : List Byte) (d : Digest),
    (i, raw) ∈ [(Instr.hotp, false), (Instr.hotpRaw, true)] → Memory.wf s.eng.mem →
    s.eng.initialized = true → 1 ≤ s.eng.digits.toNat → s.eng.digits.toNat ≤ 10 →
    s.eng.HasKey raw key → d = hmacSha1 key (be64 (s.eng.counterHi ++ s.eng.counterLo)) →
    ∃ m : Memory,
      exec i s = .next { s with
        eng := { s.eng with
          busy := false, done := true, error := false, errcode := 0
          keyLen := BitVec.ofNat 32 key.length
          ctrOutLo := s.eng.counterLo, ctrOutHi := s.eng.counterHi, digest := d
          truncOffset := d.h4 &&& 0xF, dbcRaw := d.window, dbc := d.code
          decValue := BitVec.ofNat 32 (d.code.toNat % 10 ^ s.eng.digits.toNat)
          decLen := s.eng.digits, mem := m } } ∧
      Memory.wf m ∧
      ∀ a, Memory.read m a =
        if 0x800 ≤ a ∧ a < 0x800 + s.eng.params.secretMax then key.getD (a - 0x800) 0x00
        else if 0x080 ≤ a ∧ a < 0x090 then decimalChar d.code.toNat s.eng.digits.toNat (a - 0x080)
        else Memory.read s.eng.mem a

/-- TOTP and TOTP.raw (R292): with PERIOD not 0, 1 to 10 digits, a legal length and a key, the commit set of
HOTP at the counter TIME div PERIOD. -/
def Obligations.TotpCommitsKeyDigestAndCode : Prop :=
  ∀ (s : State) (i : Instr) (raw : Bool) (key : List Byte) (c : DWord) (d : Digest),
    (i, raw) ∈ [(Instr.totp, false), (Instr.totpRaw, true)] → Memory.wf s.eng.mem →
    s.eng.initialized = true → s.eng.period ≠ 0 →
    1 ≤ s.eng.digits.toNat → s.eng.digits.toNat ≤ 10 → s.eng.HasKey raw key →
    c.toNat = (s.eng.timeHi ++ s.eng.timeLo).toNat / s.eng.period.toNat →
    d = hmacSha1 key (be64 c) →
    ∃ m : Memory,
      exec i s = .next { s with
        eng := { s.eng with
          busy := false, done := true, error := false, errcode := 0
          keyLen := BitVec.ofNat 32 key.length
          ctrOutLo := c.extractLsb' 0 32, ctrOutHi := c.extractLsb' 32 32, digest := d
          truncOffset := d.h4 &&& 0xF, dbcRaw := d.window, dbc := d.code
          decValue := BitVec.ofNat 32 (d.code.toNat % 10 ^ s.eng.digits.toNat)
          decLen := s.eng.digits, mem := m } } ∧
      Memory.wf m ∧
      ∀ a, Memory.read m a =
        if 0x800 ≤ a ∧ a < 0x800 + s.eng.params.secretMax then key.getD (a - 0x800) 0x00
        else if 0x080 ≤ a ∧ a < 0x090 then decimalChar d.code.toNat s.eng.digits.toNat (a - 0x080)
        else Memory.read s.eng.mem a

/-- STEAM and STEAM.raw (R316): with a legal length and a key, whatever DIGITS and PERIOD hold, the key, the
digest at the counter TIME div 30 (R317), the truncation and the Steam code; the decimal results and
everything else stay but STATUS. -/
def Obligations.SteamCommitsKeyDigestAndCode : Prop :=
  ∀ (s : State) (i : Instr) (raw : Bool) (key : List Byte) (c : DWord) (d : Digest),
    (i, raw) ∈ [(Instr.steam, false), (Instr.steamRaw, true)] → Memory.wf s.eng.mem →
    s.eng.initialized = true → s.eng.HasKey raw key →
    c.toNat = (s.eng.timeHi ++ s.eng.timeLo).toNat / 30 → d = hmacSha1 key (be64 c) →
    ∃ m : Memory,
      exec i s = .next { s with
        eng := { s.eng with
          busy := false, done := true, error := false, errcode := 0
          keyLen := BitVec.ofNat 32 key.length
          ctrOutLo := c.extractLsb' 0 32, ctrOutHi := c.extractLsb' 32 32, digest := d
          truncOffset := d.h4 &&& 0xF, dbcRaw := d.window, dbc := d.code, mem := m } } ∧
      Memory.wf m ∧
      ∀ a, Memory.read m a =
        if 0x800 ≤ a ∧ a < 0x800 + s.eng.params.secretMax then key.getD (a - 0x800) 0x00
        else if 0x090 ≤ a ∧ a < 0x098 then steamChar d.code.toNat (a - 0x090)
        else Memory.read s.eng.mem a

/-! ### Composition and purity -/

/-- R151: the error and the results of a generator are a function of INITIALIZED, SECRET_LEN, the secret
bytes and its own inputs: two engines that agree on those (and on SECRET_MAX) report the same error, or
commit the same values. -/
def Obligations.GeneratorsArePureFunctionsOfTheirInputs : Prop :=
  ∀ (i : Instr) (s₁ s₂ t₁ t₂ : State), i ∈ generators →
    Memory.wf s₁.eng.mem → Memory.wf s₂.eng.mem →
    s₁.eng.params.secretMax = s₂.eng.params.secretMax → s₁.eng.initialized = s₂.eng.initialized →
    s₁.eng.secretLen = s₂.eng.secretLen →
    (∀ j < s₁.eng.params.secretMax, j < s₁.eng.secretLen.toNat →
      s₁.eng.bufferByte .secret j = s₂.eng.bufferByte .secret j) →
    (i ∈ [Instr.hotp, .hotpRaw] → s₁.eng.counter = s₂.eng.counter) →
    (i ∈ [Instr.totp, .totpRaw] → s₁.eng.time = s₂.eng.time ∧ s₁.eng.period = s₂.eng.period) →
    (i ∈ [Instr.steam, .steamRaw] → s₁.eng.time = s₂.eng.time) →
    (i ∈ decimalCommands → s₁.eng.digits = s₂.eng.digits) →
    exec i s₁ = .next t₁ → exec i s₂ = .next t₂ →
    t₁.eng.errcode = t₂.eng.errcode ∧
    (t₁.eng.error = false →
      t₁.eng.keyLen = t₂.eng.keyLen ∧ t₁.eng.ctrOut = t₂.eng.ctrOut ∧ t₁.eng.digest = t₂.eng.digest ∧
      t₁.eng.truncOffset = t₂.eng.truncOffset ∧ t₁.eng.dbcRaw = t₂.eng.dbcRaw ∧
      t₁.eng.dbc = t₂.eng.dbc ∧
      (∀ j < s₁.eng.params.secretMax, t₁.eng.bufferByte .key j = t₂.eng.bufferByte .key j) ∧
      (i ∈ decimalCommands → t₁.eng.decValue = t₂.eng.decValue ∧ t₁.eng.decLen = t₂.eng.decLen ∧
        ∀ j < 16, t₁.eng.bufferByte .dec j = t₂.eng.bufferByte .dec j) ∧
      (i ∈ steamCommands → ∀ j < 8, t₁.eng.bufferByte .steam j = t₂.eng.bufferByte .steam j))

/-- R293, the composition law: TOTP in a state with PERIOD not 0 ends as HOTP does in the same state with
COUNTER at TIME div PERIOD, in every register and buffer but COUNTER itself, whether they succeed or fail.
With PERIOD = 0, an initialized engine reports INVALID_PERIOD and changes nothing but STATUS. -/
def Obligations.TotpIsHotpAtTheTimeStep : Prop :=
  (∀ (s t u : State) (i j : Instr) (c : DWord),
    (i, j) ∈ [(Instr.totp, Instr.hotp), (Instr.totpRaw, Instr.hotpRaw)] → s.eng.period ≠ 0 →
    c.toNat = (s.eng.timeHi ++ s.eng.timeLo).toNat / s.eng.period.toNat →
    exec i s = .next t →
    exec j { s with eng := { s.eng with counterLo := c.extractLsb' 0 32
                                        counterHi := c.extractLsb' 32 32 } } = .next u →
    t = { u with eng := { u.eng with counterLo := s.eng.counterLo, counterHi := s.eng.counterHi } }) ∧
  (∀ (s : State) (i : Instr), i ∈ [Instr.totp, .totpRaw] → s.eng.initialized = true →
    s.eng.period = 0 →
    exec i s = .next { s with
      eng := { s.eng with busy := false, done := true, error := true, errcode := 3 } })

/-- R152: the component commands in sequence leave what the generator leaves: DECODE, HMAC, TRUNC, FMT_DEC
against HOTP, and DECODE, HMAC, TRUNC, FMT_STEAM against STEAM at COUNTER = TIME div 30, in every register
and buffer; HOTP and its sequence leave STEAM_BUF. Each RUN stands here as the `exec` of its command on the
state the command before it left, which is log 7 (DEDUCED). -/
def Obligations.ComponentSequenceEqualsTheGenerator : Prop :=
  ∀ (s s₁ s₂ s₃ : State) (raw : Bool), s.eng.params.wf = true → Memory.wf s.eng.mem →
    exec (if raw then .decodeRaw else .decode) s = .next s₁ → s₁.eng.error = false →
    exec .hmac s₁ = .next s₂ → exec .trunc s₂ = .next s₃ →
    (∀ s₄ t, exec .fmtDec s₃ = .next s₄ → s₄.eng.error = false →
      exec (if raw then .hotpRaw else .hotp) s = .next t →
      s₄ = t ∧ ∀ j < 8, t.eng.bufferByte .steam j = s.eng.bufferByte .steam j) ∧
    (∀ s₄ t, (s.eng.counterHi ++ s.eng.counterLo).toNat =
        (s.eng.timeHi ++ s.eng.timeLo).toNat / 30 →
      exec .fmtSteam s₃ = .next s₄ →
      exec (if raw then .steamRaw else .steam) s = .next t → s₄ = t)

/-- R314: the Steam commands ignore DIGITS and PERIOD: with any other values there, the same next state but
for those two registers. -/
def Obligations.SteamIgnoresDigitsAndPeriod : Prop :=
  ∀ (s t : State) (i : Instr) (digits period : Word), i ∈ steamCommands → exec i s = .next t →
    exec i { s with eng := { s.eng with digits := digits, period := period } } =
      .next { t with eng := { t.eng with digits := digits, period := period } }

/-! ### Reset -/

/-- R451: the platform's reset, in any state, pending or not, puts every register and every buffer byte to
its value of the table. -/
def Obligations.ResetPutsEveryRegisterToItsResetValue : Prop :=
  ∀ s : State, s.eng.params.wf = true →
    (∀ r, (platformReset s).eng.readReg r =
      (match r with
       | .id => (0x544F5450 : Word)
       | .caps => BitVec.ofNat 32 (0x1EA10000 + s.eng.params.secretMax)
       | .digits => 6
       | .period => 30
       | _ => 0)) ∧
    (∀ b i, (platformReset s).eng.bufferByte b i = 0x00) ∧ (platformReset s).eng.busy = false

/-! ### Base32 -/

/-- R176: a decoded key has `(5*m) div 8` bytes, for `m` non-padding bytes of input. -/
def Obligations.DecodedKeyLengthIsFiveEighths : Prop :=
  ∀ s key : List Byte, b32Decode s = .ok key →
    key.length = 5 * (s.filter fun c => c != 0x3D).length / 8

/-- R172: decoding is case-insensitive: strings that differ only in the case of letters decode alike. -/
def Obligations.DecodingIsCaseInsensitive : Prop :=
  ∀ s s' : List Byte,
    s.map (fun c => if 0x61 ≤ c.toNat ∧ c.toNat ≤ 0x7A then c - 0x20 else c) =
      s'.map (fun c => if 0x61 ≤ c.toNat ∧ c.toNat ≤ 0x7A then c - 0x20 else c) →
    b32Decode s = b32Decode s'

/-- R402: the decoding fails exactly when some byte is neither in the alphabet nor `'='`, or a non-padding
byte stands after a `'='`; its one error is INVALID_SECRET_ENCODING, and a raw key never raises it. A
DECODE of such a secret changes nothing but STATUS, which reports code 1. -/
def Obligations.DecodingFailsExactlyOnBadBytesOrBadPadding : Prop :=
  (∀ s : List Byte, (b32Decode s = .error .invalidSecretEncoding ↔
      (∃ c ∈ s, c ≠ 0x3D ∧ ¬(0x41 ≤ c.toNat ∧ c.toNat ≤ 0x5A) ∧ ¬(0x61 ≤ c.toNat ∧ c.toNat ≤ 0x7A) ∧
        ¬(0x32 ≤ c.toNat ∧ c.toNat ≤ 0x37)) ∨
      ∃ l r c, s = l ++ 0x3D :: r ∧ c ∈ r ∧ c ≠ 0x3D)) ∧
  (∀ (s : List Byte) (x : ErrorCode), b32Decode s = .error x → x = .invalidSecretEncoding) ∧
  (∀ s : List Byte, keyFrom true s = .ok s) ∧
  (∀ (s : State) (x : ErrorCode), s.eng.initialized = true →
    s.eng.secretLen.toNat ≤ s.eng.params.secretMax → b32Decode s.eng.secret = .error x →
    exec .decode s = .next { s with
      eng := { s.eng with busy := false, done := true, error := true, errcode := 1 } })

/-- R171, its values written out: 'A'..'Z' and 'a'..'z' are 0..25, '2'..'7' are 26..31, and no other byte has a
value. R175 and R177, as numbers: the key, read as a base-256 number, is the number whose base-32 digits are
the symbol values in order, with the `(5*m) mod 8` bits left over at the end dropped. -/
def Obligations.DecodedKeyIsTheBitStream : Prop :=
  (∀ (c : Byte) (v : Nat), symbolValue c = some v ↔
    (v < 26 ∧ (c.toNat = 0x41 + v ∨ c.toNat = 0x61 + v)) ∨
    (26 ≤ v ∧ v < 32 ∧ c.toNat = 0x32 + (v - 26))) ∧
  ∀ s key : List Byte, b32Decode s = .ok key →
    key.foldl (fun n b => n * 256 + b.toNat) 0 =
      (s.filter fun c => c != 0x3D).foldl (fun n c => n * 32 + (symbolValue c).getD 0) 0 /
        2 ^ (5 * (s.filter fun c => c != 0x3D).length % 8)

/-! ### SHA-1 and HMAC -/

/-- R201: the padded message is the message, 0x80, the least number of 0x00 bytes that brings the length to
56 modulo 64, and the 64-bit length in bits; its length is a multiple of 64. -/
def Obligations.PaddingReachesWholeBlocks : Prop :=
  ∀ m : List Byte, ∃ z,
    sha1Pad m = m ++ [0x80] ++ List.replicate z 0x00 ++ be64 (BitVec.ofNat 64 (8 * m.length)) ∧
    (m.length + 1 + z) % 64 = 56 ∧ (∀ z' < z, (m.length + 1 + z') % 64 ≠ 56) ∧
    (sha1Pad m).length % 64 = 0

/-- R204: the schedule has 80 words; the first 16 are the big-endian words of the block, and each later one is
`ROTL_1` of four earlier ones. -/
def Obligations.MessageScheduleFollowsItsRecurrence : Prop :=
  ∀ block : List Byte, block.length = 64 →
    (messageSchedule block).length = 80 ∧
    (∀ t < 16, (messageSchedule block).getD t 0 =
      be32 (block.getD (4 * t) 0) (block.getD (4 * t + 1) 0) (block.getD (4 * t + 2) 0)
        (block.getD (4 * t + 3) 0)) ∧
    (∀ t, 16 ≤ t → t < 80 → (messageSchedule block).getD t 0 =
      rotl 1 ((messageSchedule block).getD (t - 3) 0 ^^^ (messageSchedule block).getD (t - 8) 0 ^^^
        (messageSchedule block).getD (t - 14) 0 ^^^ (messageSchedule block).getD (t - 16) 0))

/-- R203 and R206: the compression of a block is the loop over t in 0..79, and then the word-wise sum; and the
hash of a message compresses its 64-byte blocks in order, from the initial hash value. -/
def Obligations.CompressionIsTheEightyRoundLoop : Prop :=
  (∀ (h : Digest) (block : List Byte), block.length = 64 →
    ∃ v : Digest,
      v = (List.range 80).foldl (fun (v : Digest) t =>
        { h0 := rotl 5 v.h0 + roundFunction t v.h1 v.h2 v.h3 + v.h4 + roundConstant t +
            (messageSchedule block).getD t 0
          h1 := v.h0, h2 := rotl 30 v.h1, h3 := v.h2, h4 := v.h3 }) h ∧
      sha1Compress h block =
        { h0 := h.h0 + v.h0, h1 := h.h1 + v.h1, h2 := h.h2 + v.h2, h3 := h.h3 + v.h3
          h4 := h.h4 + v.h4 }) ∧
  (∀ m : List Byte, ∃ blocks : List (List Byte),
    blocks.flatten = sha1Pad m ∧ (∀ b ∈ blocks, b.length = 64) ∧
    sha1 m = blocks.foldl sha1Compress
      { h0 := 0x67452301, h1 := 0xEFCDAB89, h2 := 0x98BADCFE, h3 := 0x10325476, h4 := 0xC3D2E1F0 })

/-- SHA-1 of "abc" and of the empty string (95_test_vectors.md V-SHA-1 and V-SHA-2). -/
def Obligations.Sha1GivesThePublishedDigests : Prop :=
  sha1 [0x61, 0x62, 0x63] =
    { h0 := 0xa9993e36, h1 := 0x4706816a, h2 := 0xba3e2571, h3 := 0x7850c26c, h4 := 0x9cd0d89d } ∧
  sha1 [] =
    { h0 := 0xda39a3ee, h1 := 0x5e6b4b0d, h2 := 0x3255bfef, h3 := 0x95601890, h4 := 0xafd80709 }

/-- R212: a key with zero bytes appended, up to 64 bytes in all, and a key of more than 64 bytes against its
SHA-1 digest, give the same HMAC. -/
def Obligations.EquivalentKeysGiveTheSameDigest : Prop :=
  (∀ (key msg : List Byte) (j : Nat), key.length + j ≤ 64 →
    hmacSha1 (key ++ List.replicate j 0x00) msg = hmacSha1 key msg) ∧
  (∀ key msg : List Byte, 64 < key.length → hmacSha1 (sha1 key).bytes msg = hmacSha1 key msg)

/-! ### Truncation, decimal and Steam formatting -/

/-- R241, R242, R243: the offset is the low nibble of byte 19, which is DIGEST4 bits 3:0; the window always
lies inside the digest, the last byte it takes is at most byte 18; its value is those four bytes big-endian.
DBC is that value with bit 31 cleared. -/
def Obligations.TruncationWindowLiesInsideTheDigest : Prop :=
  ∀ d : Digest,
    (truncate d.bytes).offset.toNat + 3 ≤ 18 ∧
    (truncate d.bytes).offset.toNat = (d.bytes.getD 19 0).toNat % 16 ∧
    (truncate d.bytes).offset = d.h4.extractLsb' 0 4 ∧
    (truncate d.bytes).raw.toNat =
      (d.bytes.getD (truncate d.bytes).offset.toNat 0).toNat * 2 ^ 24 +
      (d.bytes.getD ((truncate d.bytes).offset.toNat + 1) 0).toNat * 2 ^ 16 +
      (d.bytes.getD ((truncate d.bytes).offset.toNat + 2) 0).toNat * 2 ^ 8 +
      (d.bytes.getD ((truncate d.bytes).offset.toNat + 3) 0).toNat ∧
    (truncate d.bytes).dbc.toNat = (truncate d.bytes).raw.toNat % 2 ^ 31

/-- R262 and R260: exactly `n` characters, each a decimal digit, whose value is `v mod 10^n`. -/
def Obligations.DecimalCharactersSpellTheCode : Prop :=
  ∀ v n : Nat, 1 ≤ n → n ≤ 10 →
    (fmtDec v n).chars.length = n ∧ (∀ c ∈ (fmtDec v n).chars, 0x30 ≤ c.toNat ∧ c.toNat ≤ 0x39) ∧
    (fmtDec v n).value = v % 10 ^ n ∧
    (fmtDec v n).chars.foldl (fun a c => a * 10 + (c.toNat - 0x30)) 0 = v % 10 ^ n

/-- R264: after a successful FMT_DEC, HOTP or TOTP, DEC_LEN is DIGITS, exactly that many bytes of DEC_BUF are
digits, and DEC_VALUE is their decimal value. -/
def Obligations.DecimalResultHasExactlyDigitsCharacters : Prop :=
  ∀ (i : Instr) (s t : State), i ∈ decimalCommands → Memory.wf s.eng.mem → s.eng.dbc.toNat < 2 ^ 31 →
    exec i s = .next t → t.eng.error = false →
    t.eng.decLen = s.eng.digits ∧
    (∀ j < 16, (0x30 ≤ (t.eng.bufferByte .dec j).toNat ∧ (t.eng.bufferByte .dec j).toNat ≤ 0x39) ↔
      j < s.eng.digits.toNat) ∧
    (t.eng.bufferBytes .dec s.eng.digits.toNat).foldl (fun a c => a * 10 + (c.toNat - 0x30)) 0 =
      t.eng.decValue.toNat

/-- R311, its table written out: the Steam alphabet holds these bytes in this order. R318: after a successful
FMT_STEAM or STEAM, STEAM_BUF holds five symbols of the alphabet, of which the symbol at `j` is that of the
base-26 digit of DBC of weight `26^j` (R312), and three 0x00 bytes; after reset it is all 0x00. -/
def Obligations.SteamCodeIsFiveAlphabetSymbols : Prop :=
  let alphabet : List Byte := [0x32, 0x33, 0x34, 0x35, 0x36, 0x37, 0x38, 0x39, 0x42, 0x43, 0x44, 0x46, 0x47,
    0x48, 0x4A, 0x4B, 0x4D, 0x4E, 0x50, 0x51, 0x52, 0x54, 0x56, 0x57, 0x58, 0x59]
  steamAlphabet = alphabet ∧
  (∀ j < 8, State.reset.eng.bufferByte .steam j = 0x00) ∧
  ∀ (i : Instr) (s t : State), i ∈ steamCommands → Memory.wf s.eng.mem → exec i s = .next t →
    t.eng.error = false →
    (∀ j < 5, t.eng.bufferByte .steam j ∈ alphabet ∧
      t.eng.bufferByte .steam j = alphabet.getD (t.eng.dbc.toNat / 26 ^ j % 26) 0x00) ∧
    ∀ j < 3, t.eng.bufferByte .steam (5 + j) = 0x00

/-- R319: only `v mod 26^5` affects the Steam code. -/
def Obligations.SteamCodeDependsOnlyModuloTwentySixToTheFive : Prop :=
  ∀ v : Nat, fmtSteam v = fmtSteam (v % 26 ^ 5) ∧ fmtSteam (v + 26 ^ 5) = fmtSteam v ∧ 26 ^ 5 < 2 ^ 31

/-- R290 and R317: the TOTP and Steam counters are the exact quotients, which fit in 64 bits. -/
def Obligations.TimeStepCountersAreExactQuotients : Prop :=
  ∀ e : Engine,
    e.totpCounter.toNat = (e.timeHi.toNat * 2 ^ 32 + e.timeLo.toNat) / e.period.toNat ∧
    e.totpCounter.toNat ≤ e.time.toNat ∧
    e.steamCounter.toNat = (e.timeHi.toNat * 2 ^ 32 + e.timeLo.toNat) / 30

/-! ### The byte memory -/

/-- The canonical form: two memories in it that read alike at every address are equal. -/
def Obligations.MemoriesThatReadAlikeAreEqual : Prop :=
  ∀ m m' : Memory, Memory.wf m → Memory.wf m' → (∀ a, Memory.read m a = Memory.read m' a) → m = m'

/-! ### The HMAC of a key and a message -/

/-- R208, R209 and R210 spelled out: K0 is 64 bytes, those of the key, or of its SHA-1 digest where the key has
more than 64, and then 0x00; the inner and the outer block are K0 with every byte exclusive-or 0x36 and 0x5C;
and the HMAC is the hash of the outer block and the inner digest's 20 bytes, the inner digest that of the
inner block and the message. A digest's bytes are its words, each most significant byte first (R207). -/
def Obligations.HmacIsTheNestedHashOfThePaddedKey : Prop :=
  (∀ d : Digest, d.bytes.length = 20 ∧
    ∀ k < 5, ∀ j < 4, d.bytes.getD (4 * k + j) 0 =
      ([d.h0, d.h1, d.h2, d.h3, d.h4].getD k 0).extractLsb' (24 - 8 * j) 8) ∧
  ∀ key msg : List Byte, ∃ inner outer : List Byte,
    inner.length = 64 ∧ outer.length = 64 ∧
    (∀ j < 64,
      inner.getD j 0 = (if 64 < key.length then (sha1 key).bytes else key).getD j 0x00 ^^^ 0x36 ∧
      outer.getD j 0 = (if 64 < key.length then (sha1 key).bytes else key).getD j 0x00 ^^^ 0x5C) ∧
    hmacSha1 key msg = sha1 (outer ++ (sha1 (inner ++ msg)).bytes)

/-- HMAC-SHA1 of keys of 20, 64 and 65 bytes, the last one hashed first (95_test_vectors.md V-HMAC-1, V-HMAC-5
and V-HMAC-7). -/
def Obligations.HmacGivesThePublishedDigests : Prop :=
  hmacSha1 (List.replicate 20 0x0B) (be64 0x4869205468657265) =
    { h0 := 0xB6173186, h1 := 0x55057264, h2 := 0xE28BC0B6, h3 := 0xFB378C8E, h4 := 0xF146BE00 } ∧
  hmacSha1 (List.replicate 64 0xAA) (be64 0) =
    { h0 := 0x00264B75, h1 := 0xE153F623, h2 := 0xFA41E60A, h3 := 0x9EB3DDA5, h4 := 0xC24F1BD5 } ∧
  hmacSha1 (List.replicate 65 0xAA) (be64 0) =
    { h0 := 0x861119F6, h1 := 0x81CE0D31, h2 := 0xDA6E970A, h3 := 0xF1FD8F84, h4 := 0x695CD224 }
end

