-- ==== Sys2Proof/Laws/Memory.lean ====
section
/-! SUPPORT. The byte memory: what a read gives after a write, and that every operation keeps the
canonical form. -/

namespace Sys2Proof.Machine

@[simp] theorem Memory.read_nil (a : Nat) : Memory.read [] a = 0x00 := rfl

theorem Memory.read_cons (k : Nat) (c : Byte) (r : Memory) (a : Nat) :
    Memory.read ((k, c) :: r) a = if k = a then c else Memory.read r a := rfl

/-- An address below every listed one reads as an unlisted cell. -/
theorem Memory.read_of_lt {m : Memory} {a : Nat} (h : ∀ c ∈ m, a < c.1) :
    Memory.read m a = Memory.unlisted := by
  induction m with
  | nil => rfl
  | cons c r ih =>
    obtain ⟨k, v⟩ := c
    have hk : a < k := h (k, v) (by simp)
    rw [Memory.read_cons, if_neg (by omega)]
    exact ih fun c hc => h c (by simp [hc])

theorem Memory.wf_nil : Memory.wf [] := by simp [Memory.wf]

theorem Memory.wf_cons {k : Nat} {v : Byte} {r : Memory} :
    Memory.wf ((k, v) :: r) ↔
      (∀ c ∈ r, k < c.1) ∧ v ≠ Memory.unlisted ∧ Memory.wf r := by
  simp only [Memory.wf, List.pairwise_cons, List.mem_cons, forall_eq_or_imp]
  tauto

/-- A cell of the memory after a write is an old cell or the written one. -/
theorem Memory.mem_write {m : Memory} {a : Nat} {b : Byte} {c : Host.Cell}
    (h : c ∈ Memory.write m a b) : c ∈ m ∨ c = (a, b) := by
  induction m with
  | nil =>
    simp only [Memory.write] at h
    split at h <;> simp_all
  | cons d r ih =>
    obtain ⟨k, v⟩ := d
    simp only [Memory.write] at h
    split_ifs at h
    · exact .inl h
    · rcases List.mem_cons.1 h with rfl | h
      · exact .inr rfl
      · exact .inl h
    · exact .inl (List.mem_cons_of_mem _ h)
    · rcases List.mem_cons.1 h with rfl | h
      · exact .inr rfl
      · exact .inl (List.mem_cons_of_mem _ h)
    · rcases List.mem_cons.1 h with rfl | h
      · exact .inl (by simp)
      · exact (ih h).imp (List.mem_cons_of_mem _) id

/-- A write keeps the canonical form. -/
theorem Memory.wf_write {m : Memory} (h : Memory.wf m) (a : Nat) (b : Byte) :
    Memory.wf (Memory.write m a b) := by
  induction m with
  | nil =>
    simp only [Memory.write]
    split_ifs with hb
    · exact h
    · simp [Memory.wf, hb]
  | cons d r ih =>
    obtain ⟨k, v⟩ := d
    obtain ⟨hk, hv, hr⟩ := Memory.wf_cons.1 h
    simp only [Memory.write]
    split_ifs with h1 h2 h3 h4
    · exact h
    · refine Memory.wf_cons.2 ⟨fun c hc => ?_, h2, h⟩
      rcases List.mem_cons.1 hc with rfl | hc
      · exact h1
      · exact h1.trans (hk c hc)
    · exact hr
    · exact Memory.wf_cons.2 ⟨fun c hc => h3 ▸ hk c hc, h4, hr⟩
    · refine Memory.wf_cons.2 ⟨fun c hc => ?_, hv, ih hr⟩
      rcases Memory.mem_write hc with hc | rfl
      · exact hk c hc
      · simp only; omega

/-- A write leaves every other byte as it was. -/
theorem Memory.read_write_of_ne {m : Memory} {a x : Nat} (b : Byte) (hx : x ≠ a) :
    Memory.read (Memory.write m a b) x = Memory.read m x := by
  induction m with
  | nil =>
    simp only [Memory.write]
    split_ifs <;> simp [Memory.read_cons, Ne.symm hx]
  | cons d r ih =>
    obtain ⟨k, v⟩ := d
    simp only [Memory.write]
    split_ifs with h1 h2 h3 h4
    · rfl
    · simp [Memory.read_cons, Ne.symm hx]
    · simp [Memory.read_cons, ← h3, Ne.symm hx]
    · simp [Memory.read_cons, ← h3, Ne.symm hx]
    · simp [Memory.read_cons, ih]

/-- A written byte reads back. -/
theorem Memory.read_write_self {m : Memory} (h : Memory.wf m) (a : Nat) (b : Byte) :
    Memory.read (Memory.write m a b) a = b := by
  induction m with
  | nil =>
    simp only [Memory.write]
    split_ifs with hb
    · exact hb.symm
    · simp [Memory.read_cons]
  | cons d r ih =>
    obtain ⟨k, v⟩ := d
    obtain ⟨hk, hv, hr⟩ := Memory.wf_cons.1 h
    simp only [Memory.write]
    split_ifs with h1 h2 h3 h4
    · rw [h2]
      refine Memory.read_of_lt fun c hc => ?_
      rcases List.mem_cons.1 hc with rfl | hc
      · exact h1
      · exact h1.trans (hk c hc)
    · simp [Memory.read_cons]
    · rw [h4]
      exact Memory.read_of_lt fun c hc => h3 ▸ hk c hc
    · simp [Memory.read_cons]
    · rw [Memory.read_cons, if_neg (by omega), ih hr]

/-- Storing a byte string keeps the canonical form. -/
theorem Memory.wf_writeBytes {m : Memory} (h : Memory.wf m) (a : Nat) (bs : List Byte) :
    Memory.wf (Memory.writeBytes m a bs) := by
  induction bs generalizing m a with
  | nil => exact h
  | cons b bs ih => exact ih (Memory.wf_write h a b) (a + 1)

/-- A cell of the memory after storing a byte string is an old cell or lies in the stored range. -/
theorem Memory.mem_writeBytes {m : Memory} {a : Nat} {bs : List Byte} {c : Host.Cell}
    (h : c ∈ Memory.writeBytes m a bs) : c ∈ m ∨ (a ≤ c.1 ∧ c.1 < a + bs.length) := by
  induction bs generalizing m a with
  | nil => exact .inl h
  | cons b bs ih =>
    rcases ih h with h | h
    · rcases Memory.mem_write h with h | rfl
      · exact .inl h
      · exact .inr ⟨le_rfl, by simp⟩
    · exact .inr (by simp only [List.length_cons]; omega)

/-- What a read gives after a byte string is stored. -/
theorem Memory.read_writeBytes {m : Memory} (h : Memory.wf m) (a : Nat) (bs : List Byte) (x : Nat) :
    Memory.read (Memory.writeBytes m a bs) x =
      if a ≤ x ∧ x < a + bs.length then bs.getD (x - a) 0x00 else Memory.read m x := by
  induction bs generalizing m a with
  | nil => simp only [Memory.writeBytes, List.length_nil]; rw [if_neg (by omega)]
  | cons b bs ih =>
    rw [Memory.writeBytes, ih (Memory.wf_write h a b)]
    simp only [List.length_cons]
    by_cases hx : x = a
    · subst hx
      rw [if_neg (by omega), Memory.read_write_self h, if_pos (by omega)]
      simp
    · rw [Memory.read_write_of_ne b hx]
      by_cases h2 : a + 1 ≤ x ∧ x < a + 1 + bs.length
      · rw [if_pos h2, if_pos (by omega), show x - a = (x - (a + 1)) + 1 by omega]
        simp
      · rw [if_neg h2, if_neg (by omega)]

/-- Storing a byte string leaves every byte outside it as it was. -/
theorem Memory.read_writeBytes_of_out {m : Memory} {a x : Nat} {bs : List Byte}
    (hx : x < a ∨ a + bs.length ≤ x) :
    Memory.read (Memory.writeBytes m a bs) x = Memory.read m x := by
  induction bs generalizing m a with
  | nil => rfl
  | cons b bs ih =>
    simp only [List.length_cons] at hx
    rw [Memory.writeBytes, ih (by omega), Memory.read_write_of_ne b (by omega)]

@[simp] theorem Memory.length_readBytes (m : Memory) (a n : Nat) :
    (Memory.readBytes m a n).length = n := by simp [Memory.readBytes]

theorem Memory.getD_readBytes {m : Memory} {a n i : Nat} (h : i < n) (d : Byte) :
    (Memory.readBytes m a n).getD i d = Memory.read m (a + i) := by
  simp [Memory.readBytes, List.getD, h]

/-- Two reads of `n` bytes agree when the bytes agree. -/
theorem Memory.readBytes_congr {m m' : Memory} {a n : Nat}
    (h : ∀ i < n, Memory.read m (a + i) = Memory.read m' (a + i)) :
    Memory.readBytes m a n = Memory.readBytes m' a n := by
  simp only [Memory.readBytes]
  exact List.map_congr_left fun i hi => h i (List.mem_range.1 hi)

/-- A stored byte string reads back, from its start. -/
theorem Memory.readBytes_writeBytes {m : Memory} (h : Memory.wf m) (a n : Nat) (bs : List Byte)
    (hn : n ≤ bs.length) :
    Memory.readBytes (Memory.writeBytes m a bs) a n = bs.take n := by
  apply List.ext_getElem
  · simp [hn]
  · intro i h1 h2
    have hi : i < n := by simpa using h1
    simp only [Memory.readBytes, List.getElem_map, List.getElem_range, List.getElem_take]
    rw [Memory.read_writeBytes h, if_pos (by omega), show a + i - a = i by omega]
    simp [List.getD, show i < bs.length by omega]

@[simp] theorem length_padTo {n : Nat} {s : List Byte} (h : s.length ≤ n) : (padTo n s).length = n := by
  simp [padTo]; omega

/-- Past its bytes a padded string holds 0x00. -/
theorem getD_padTo (n : Nat) (s : List Byte) (i : Nat) :
    (padTo n s).getD i 0x00 = s.getD i 0x00 := by
  simp only [padTo, List.getD_eq_getElem?_getD, List.getElem?_append, List.getElem?_replicate]
  split_ifs with h1 h2
  · rfl
  · simp [List.getElem?_eq_none (Nat.le_of_not_lt h1)]
  · simp [List.getElem?_eq_none (Nat.le_of_not_lt h1)]

theorem take_padTo (n : Nat) (s : List Byte) : (padTo n s).take s.length = s := by simp [padTo]

end Sys2Proof.Machine
end

