-- ==== Sys2Proof/Laws/State.lean ====
section
/-! SUPPORT. One lemma per field per update of the state, so that no proof unfolds a record update. -/

namespace Sys2Proof.Machine

/-! ### `Engine.markIssued` -/

@[simp] theorem Engine.markIssued_params (e : Engine) :
    (e.markIssued).params = e.params := rfl
@[simp] theorem Engine.markIssued_cmd (e : Engine) :
    (e.markIssued).cmd = e.cmd := rfl
@[simp] theorem Engine.markIssued_busy (e : Engine) :
    (e.markIssued).busy = true := rfl
@[simp] theorem Engine.markIssued_done (e : Engine) :
    (e.markIssued).done = false := rfl
@[simp] theorem Engine.markIssued_error (e : Engine) :
    (e.markIssued).error = false := rfl
@[simp] theorem Engine.markIssued_initialized (e : Engine) :
    (e.markIssued).initialized = e.initialized := rfl
@[simp] theorem Engine.markIssued_errcode (e : Engine) :
    (e.markIssued).errcode = 0 := rfl
@[simp] theorem Engine.markIssued_secretLen (e : Engine) :
    (e.markIssued).secretLen = e.secretLen := rfl
@[simp] theorem Engine.markIssued_digits (e : Engine) :
    (e.markIssued).digits = e.digits := rfl
@[simp] theorem Engine.markIssued_period (e : Engine) :
    (e.markIssued).period = e.period := rfl
@[simp] theorem Engine.markIssued_counterLo (e : Engine) :
    (e.markIssued).counterLo = e.counterLo := rfl
@[simp] theorem Engine.markIssued_counterHi (e : Engine) :
    (e.markIssued).counterHi = e.counterHi := rfl
@[simp] theorem Engine.markIssued_timeLo (e : Engine) :
    (e.markIssued).timeLo = e.timeLo := rfl
@[simp] theorem Engine.markIssued_timeHi (e : Engine) :
    (e.markIssued).timeHi = e.timeHi := rfl
@[simp] theorem Engine.markIssued_keyLen (e : Engine) :
    (e.markIssued).keyLen = e.keyLen := rfl
@[simp] theorem Engine.markIssued_truncOffset (e : Engine) :
    (e.markIssued).truncOffset = e.truncOffset := rfl
@[simp] theorem Engine.markIssued_ctrOutLo (e : Engine) :
    (e.markIssued).ctrOutLo = e.ctrOutLo := rfl
@[simp] theorem Engine.markIssued_ctrOutHi (e : Engine) :
    (e.markIssued).ctrOutHi = e.ctrOutHi := rfl
@[simp] theorem Engine.markIssued_digest (e : Engine) :
    (e.markIssued).digest = e.digest := rfl
@[simp] theorem Engine.markIssued_dbcRaw (e : Engine) :
    (e.markIssued).dbcRaw = e.dbcRaw := rfl
@[simp] theorem Engine.markIssued_dbc (e : Engine) :
    (e.markIssued).dbc = e.dbc := rfl
@[simp] theorem Engine.markIssued_decValue (e : Engine) :
    (e.markIssued).decValue = e.decValue := rfl
@[simp] theorem Engine.markIssued_decLen (e : Engine) :
    (e.markIssued).decLen = e.decLen := rfl
@[simp] theorem Engine.markIssued_mem (e : Engine) :
    (e.markIssued).mem = e.mem := rfl

/-! ### `Engine.markSuccess` -/

@[simp] theorem Engine.markSuccess_params (e : Engine) :
    (e.markSuccess).params = e.params := rfl
@[simp] theorem Engine.markSuccess_cmd (e : Engine) :
    (e.markSuccess).cmd = e.cmd := rfl
@[simp] theorem Engine.markSuccess_busy (e : Engine) :
    (e.markSuccess).busy = false := rfl
@[simp] theorem Engine.markSuccess_done (e : Engine) :
    (e.markSuccess).done = true := rfl
@[simp] theorem Engine.markSuccess_error (e : Engine) :
    (e.markSuccess).error = false := rfl
@[simp] theorem Engine.markSuccess_initialized (e : Engine) :
    (e.markSuccess).initialized = e.initialized := rfl
@[simp] theorem Engine.markSuccess_errcode (e : Engine) :
    (e.markSuccess).errcode = 0 := rfl
@[simp] theorem Engine.markSuccess_secretLen (e : Engine) :
    (e.markSuccess).secretLen = e.secretLen := rfl
@[simp] theorem Engine.markSuccess_digits (e : Engine) :
    (e.markSuccess).digits = e.digits := rfl
@[simp] theorem Engine.markSuccess_period (e : Engine) :
    (e.markSuccess).period = e.period := rfl
@[simp] theorem Engine.markSuccess_counterLo (e : Engine) :
    (e.markSuccess).counterLo = e.counterLo := rfl
@[simp] theorem Engine.markSuccess_counterHi (e : Engine) :
    (e.markSuccess).counterHi = e.counterHi := rfl
@[simp] theorem Engine.markSuccess_timeLo (e : Engine) :
    (e.markSuccess).timeLo = e.timeLo := rfl
@[simp] theorem Engine.markSuccess_timeHi (e : Engine) :
    (e.markSuccess).timeHi = e.timeHi := rfl
@[simp] theorem Engine.markSuccess_keyLen (e : Engine) :
    (e.markSuccess).keyLen = e.keyLen := rfl
@[simp] theorem Engine.markSuccess_truncOffset (e : Engine) :
    (e.markSuccess).truncOffset = e.truncOffset := rfl
@[simp] theorem Engine.markSuccess_ctrOutLo (e : Engine) :
    (e.markSuccess).ctrOutLo = e.ctrOutLo := rfl
@[simp] theorem Engine.markSuccess_ctrOutHi (e : Engine) :
    (e.markSuccess).ctrOutHi = e.ctrOutHi := rfl
@[simp] theorem Engine.markSuccess_digest (e : Engine) :
    (e.markSuccess).digest = e.digest := rfl
@[simp] theorem Engine.markSuccess_dbcRaw (e : Engine) :
    (e.markSuccess).dbcRaw = e.dbcRaw := rfl
@[simp] theorem Engine.markSuccess_dbc (e : Engine) :
    (e.markSuccess).dbc = e.dbc := rfl
@[simp] theorem Engine.markSuccess_decValue (e : Engine) :
    (e.markSuccess).decValue = e.decValue := rfl
@[simp] theorem Engine.markSuccess_decLen (e : Engine) :
    (e.markSuccess).decLen = e.decLen := rfl
@[simp] theorem Engine.markSuccess_mem (e : Engine) :
    (e.markSuccess).mem = e.mem := rfl

/-! ### `Engine.markError` -/

@[simp] theorem Engine.markError_params (c : ErrorCode) (e : Engine) :
    (e.markError c).params = e.params := rfl
@[simp] theorem Engine.markError_cmd (c : ErrorCode) (e : Engine) :
    (e.markError c).cmd = e.cmd := rfl
@[simp] theorem Engine.markError_busy (c : ErrorCode) (e : Engine) :
    (e.markError c).busy = false := rfl
@[simp] theorem Engine.markError_done (c : ErrorCode) (e : Engine) :
    (e.markError c).done = true := rfl
@[simp] theorem Engine.markError_error (c : ErrorCode) (e : Engine) :
    (e.markError c).error = true := rfl
@[simp] theorem Engine.markError_initialized (c : ErrorCode) (e : Engine) :
    (e.markError c).initialized = e.initialized := rfl
@[simp] theorem Engine.markError_errcode (c : ErrorCode) (e : Engine) :
    (e.markError c).errcode = c.code := rfl
@[simp] theorem Engine.markError_secretLen (c : ErrorCode) (e : Engine) :
    (e.markError c).secretLen = e.secretLen := rfl
@[simp] theorem Engine.markError_digits (c : ErrorCode) (e : Engine) :
    (e.markError c).digits = e.digits := rfl
@[simp] theorem Engine.markError_period (c : ErrorCode) (e : Engine) :
    (e.markError c).period = e.period := rfl
@[simp] theorem Engine.markError_counterLo (c : ErrorCode) (e : Engine) :
    (e.markError c).counterLo = e.counterLo := rfl
@[simp] theorem Engine.markError_counterHi (c : ErrorCode) (e : Engine) :
    (e.markError c).counterHi = e.counterHi := rfl
@[simp] theorem Engine.markError_timeLo (c : ErrorCode) (e : Engine) :
    (e.markError c).timeLo = e.timeLo := rfl
@[simp] theorem Engine.markError_timeHi (c : ErrorCode) (e : Engine) :
    (e.markError c).timeHi = e.timeHi := rfl
@[simp] theorem Engine.markError_keyLen (c : ErrorCode) (e : Engine) :
    (e.markError c).keyLen = e.keyLen := rfl
@[simp] theorem Engine.markError_truncOffset (c : ErrorCode) (e : Engine) :
    (e.markError c).truncOffset = e.truncOffset := rfl
@[simp] theorem Engine.markError_ctrOutLo (c : ErrorCode) (e : Engine) :
    (e.markError c).ctrOutLo = e.ctrOutLo := rfl
@[simp] theorem Engine.markError_ctrOutHi (c : ErrorCode) (e : Engine) :
    (e.markError c).ctrOutHi = e.ctrOutHi := rfl
@[simp] theorem Engine.markError_digest (c : ErrorCode) (e : Engine) :
    (e.markError c).digest = e.digest := rfl
@[simp] theorem Engine.markError_dbcRaw (c : ErrorCode) (e : Engine) :
    (e.markError c).dbcRaw = e.dbcRaw := rfl
@[simp] theorem Engine.markError_dbc (c : ErrorCode) (e : Engine) :
    (e.markError c).dbc = e.dbc := rfl
@[simp] theorem Engine.markError_decValue (c : ErrorCode) (e : Engine) :
    (e.markError c).decValue = e.decValue := rfl
@[simp] theorem Engine.markError_decLen (c : ErrorCode) (e : Engine) :
    (e.markError c).decLen = e.decLen := rfl
@[simp] theorem Engine.markError_mem (c : ErrorCode) (e : Engine) :
    (e.markError c).mem = e.mem := rfl

/-! ### `Engine.issue` -/

@[simp] theorem Engine.issue_params (w : Word) (e : Engine) :
    (e.issue w).params = e.params := rfl
@[simp] theorem Engine.issue_cmd (w : Word) (e : Engine) :
    (e.issue w).cmd = w := rfl
@[simp] theorem Engine.issue_busy (w : Word) (e : Engine) :
    (e.issue w).busy = true := rfl
@[simp] theorem Engine.issue_done (w : Word) (e : Engine) :
    (e.issue w).done = false := rfl
@[simp] theorem Engine.issue_error (w : Word) (e : Engine) :
    (e.issue w).error = false := rfl
@[simp] theorem Engine.issue_initialized (w : Word) (e : Engine) :
    (e.issue w).initialized = e.initialized := rfl
@[simp] theorem Engine.issue_errcode (w : Word) (e : Engine) :
    (e.issue w).errcode = 0 := rfl
@[simp] theorem Engine.issue_secretLen (w : Word) (e : Engine) :
    (e.issue w).secretLen = e.secretLen := rfl
@[simp] theorem Engine.issue_digits (w : Word) (e : Engine) :
    (e.issue w).digits = e.digits := rfl
@[simp] theorem Engine.issue_period (w : Word) (e : Engine) :
    (e.issue w).period = e.period := rfl
@[simp] theorem Engine.issue_counterLo (w : Word) (e : Engine) :
    (e.issue w).counterLo = e.counterLo := rfl
@[simp] theorem Engine.issue_counterHi (w : Word) (e : Engine) :
    (e.issue w).counterHi = e.counterHi := rfl
@[simp] theorem Engine.issue_timeLo (w : Word) (e : Engine) :
    (e.issue w).timeLo = e.timeLo := rfl
@[simp] theorem Engine.issue_timeHi (w : Word) (e : Engine) :
    (e.issue w).timeHi = e.timeHi := rfl
@[simp] theorem Engine.issue_keyLen (w : Word) (e : Engine) :
    (e.issue w).keyLen = e.keyLen := rfl
@[simp] theorem Engine.issue_truncOffset (w : Word) (e : Engine) :
    (e.issue w).truncOffset = e.truncOffset := rfl
@[simp] theorem Engine.issue_ctrOutLo (w : Word) (e : Engine) :
    (e.issue w).ctrOutLo = e.ctrOutLo := rfl
@[simp] theorem Engine.issue_ctrOutHi (w : Word) (e : Engine) :
    (e.issue w).ctrOutHi = e.ctrOutHi := rfl
@[simp] theorem Engine.issue_digest (w : Word) (e : Engine) :
    (e.issue w).digest = e.digest := rfl
@[simp] theorem Engine.issue_dbcRaw (w : Word) (e : Engine) :
    (e.issue w).dbcRaw = e.dbcRaw := rfl
@[simp] theorem Engine.issue_dbc (w : Word) (e : Engine) :
    (e.issue w).dbc = e.dbc := rfl
@[simp] theorem Engine.issue_decValue (w : Word) (e : Engine) :
    (e.issue w).decValue = e.decValue := rfl
@[simp] theorem Engine.issue_decLen (w : Word) (e : Engine) :
    (e.issue w).decLen = e.decLen := rfl
@[simp] theorem Engine.issue_mem (w : Word) (e : Engine) :
    (e.issue w).mem = e.mem := rfl

/-! ### `Engine.commitInit` -/

@[simp] theorem Engine.commitInit_params (e : Engine) :
    (e.commitInit).params = e.params := rfl
@[simp] theorem Engine.commitInit_cmd (e : Engine) :
    (e.commitInit).cmd = e.cmd := rfl
@[simp] theorem Engine.commitInit_busy (e : Engine) :
    (e.commitInit).busy = e.busy := rfl
@[simp] theorem Engine.commitInit_done (e : Engine) :
    (e.commitInit).done = e.done := rfl
@[simp] theorem Engine.commitInit_error (e : Engine) :
    (e.commitInit).error = e.error := rfl
@[simp] theorem Engine.commitInit_initialized (e : Engine) :
    (e.commitInit).initialized = true := rfl
@[simp] theorem Engine.commitInit_errcode (e : Engine) :
    (e.commitInit).errcode = e.errcode := rfl
@[simp] theorem Engine.commitInit_secretLen (e : Engine) :
    (e.commitInit).secretLen = e.secretLen := rfl
@[simp] theorem Engine.commitInit_digits (e : Engine) :
    (e.commitInit).digits = e.digits := rfl
@[simp] theorem Engine.commitInit_period (e : Engine) :
    (e.commitInit).period = e.period := rfl
@[simp] theorem Engine.commitInit_counterLo (e : Engine) :
    (e.commitInit).counterLo = e.counterLo := rfl
@[simp] theorem Engine.commitInit_counterHi (e : Engine) :
    (e.commitInit).counterHi = e.counterHi := rfl
@[simp] theorem Engine.commitInit_timeLo (e : Engine) :
    (e.commitInit).timeLo = e.timeLo := rfl
@[simp] theorem Engine.commitInit_timeHi (e : Engine) :
    (e.commitInit).timeHi = e.timeHi := rfl
@[simp] theorem Engine.commitInit_keyLen (e : Engine) :
    (e.commitInit).keyLen = e.keyLen := rfl
@[simp] theorem Engine.commitInit_truncOffset (e : Engine) :
    (e.commitInit).truncOffset = e.truncOffset := rfl
@[simp] theorem Engine.commitInit_ctrOutLo (e : Engine) :
    (e.commitInit).ctrOutLo = e.ctrOutLo := rfl
@[simp] theorem Engine.commitInit_ctrOutHi (e : Engine) :
    (e.commitInit).ctrOutHi = e.ctrOutHi := rfl
@[simp] theorem Engine.commitInit_digest (e : Engine) :
    (e.commitInit).digest = e.digest := rfl
@[simp] theorem Engine.commitInit_dbcRaw (e : Engine) :
    (e.commitInit).dbcRaw = e.dbcRaw := rfl
@[simp] theorem Engine.commitInit_dbc (e : Engine) :
    (e.commitInit).dbc = e.dbc := rfl
@[simp] theorem Engine.commitInit_decValue (e : Engine) :
    (e.commitInit).decValue = e.decValue := rfl
@[simp] theorem Engine.commitInit_decLen (e : Engine) :
    (e.commitInit).decLen = e.decLen := rfl
@[simp] theorem Engine.commitInit_mem (e : Engine) :
    (e.commitInit).mem = e.mem := rfl

/-! ### `Engine.commitKey` -/

@[simp] theorem Engine.commitKey_params (k : List Byte) (e : Engine) :
    (e.commitKey k).params = e.params := rfl
@[simp] theorem Engine.commitKey_cmd (k : List Byte) (e : Engine) :
    (e.commitKey k).cmd = e.cmd := rfl
@[simp] theorem Engine.commitKey_busy (k : List Byte) (e : Engine) :
    (e.commitKey k).busy = e.busy := rfl
@[simp] theorem Engine.commitKey_done (k : List Byte) (e : Engine) :
    (e.commitKey k).done = e.done := rfl
@[simp] theorem Engine.commitKey_error (k : List Byte) (e : Engine) :
    (e.commitKey k).error = e.error := rfl
@[simp] theorem Engine.commitKey_initialized (k : List Byte) (e : Engine) :
    (e.commitKey k).initialized = e.initialized := rfl
@[simp] theorem Engine.commitKey_errcode (k : List Byte) (e : Engine) :
    (e.commitKey k).errcode = e.errcode := rfl
@[simp] theorem Engine.commitKey_secretLen (k : List Byte) (e : Engine) :
    (e.commitKey k).secretLen = e.secretLen := rfl
@[simp] theorem Engine.commitKey_digits (k : List Byte) (e : Engine) :
    (e.commitKey k).digits = e.digits := rfl
@[simp] theorem Engine.commitKey_period (k : List Byte) (e : Engine) :
    (e.commitKey k).period = e.period := rfl
@[simp] theorem Engine.commitKey_counterLo (k : List Byte) (e : Engine) :
    (e.commitKey k).counterLo = e.counterLo := rfl
@[simp] theorem Engine.commitKey_counterHi (k : List Byte) (e : Engine) :
    (e.commitKey k).counterHi = e.counterHi := rfl
@[simp] theorem Engine.commitKey_timeLo (k : List Byte) (e : Engine) :
    (e.commitKey k).timeLo = e.timeLo := rfl
@[simp] theorem Engine.commitKey_timeHi (k : List Byte) (e : Engine) :
    (e.commitKey k).timeHi = e.timeHi := rfl
@[simp] theorem Engine.commitKey_keyLen (k : List Byte) (e : Engine) :
    (e.commitKey k).keyLen = BitVec.ofNat 32 k.length := rfl
@[simp] theorem Engine.commitKey_truncOffset (k : List Byte) (e : Engine) :
    (e.commitKey k).truncOffset = e.truncOffset := rfl
@[simp] theorem Engine.commitKey_ctrOutLo (k : List Byte) (e : Engine) :
    (e.commitKey k).ctrOutLo = e.ctrOutLo := rfl
@[simp] theorem Engine.commitKey_ctrOutHi (k : List Byte) (e : Engine) :
    (e.commitKey k).ctrOutHi = e.ctrOutHi := rfl
@[simp] theorem Engine.commitKey_digest (k : List Byte) (e : Engine) :
    (e.commitKey k).digest = e.digest := rfl
@[simp] theorem Engine.commitKey_dbcRaw (k : List Byte) (e : Engine) :
    (e.commitKey k).dbcRaw = e.dbcRaw := rfl
@[simp] theorem Engine.commitKey_dbc (k : List Byte) (e : Engine) :
    (e.commitKey k).dbc = e.dbc := rfl
@[simp] theorem Engine.commitKey_decValue (k : List Byte) (e : Engine) :
    (e.commitKey k).decValue = e.decValue := rfl
@[simp] theorem Engine.commitKey_decLen (k : List Byte) (e : Engine) :
    (e.commitKey k).decLen = e.decLen := rfl
@[simp] theorem Engine.commitKey_mem (k : List Byte) (e : Engine) :
    (e.commitKey k).mem = Memory.writeBytes e.mem Buffer.key.base (padTo (Buffer.key.size e.params) k) := rfl

/-! ### `Engine.commitHmac` -/

@[simp] theorem Engine.commitHmac_params (r : HmacResult) (e : Engine) :
    (e.commitHmac r).params = e.params := rfl
@[simp] theorem Engine.commitHmac_cmd (r : HmacResult) (e : Engine) :
    (e.commitHmac r).cmd = e.cmd := rfl
@[simp] theorem Engine.commitHmac_busy (r : HmacResult) (e : Engine) :
    (e.commitHmac r).busy = e.busy := rfl
@[simp] theorem Engine.commitHmac_done (r : HmacResult) (e : Engine) :
    (e.commitHmac r).done = e.done := rfl
@[simp] theorem Engine.commitHmac_error (r : HmacResult) (e : Engine) :
    (e.commitHmac r).error = e.error := rfl
@[simp] theorem Engine.commitHmac_initialized (r : HmacResult) (e : Engine) :
    (e.commitHmac r).initialized = e.initialized := rfl
@[simp] theorem Engine.commitHmac_errcode (r : HmacResult) (e : Engine) :
    (e.commitHmac r).errcode = e.errcode := rfl
@[simp] theorem Engine.commitHmac_secretLen (r : HmacResult) (e : Engine) :
    (e.commitHmac r).secretLen = e.secretLen := rfl
@[simp] theorem Engine.commitHmac_digits (r : HmacResult) (e : Engine) :
    (e.commitHmac r).digits = e.digits := rfl
@[simp] theorem Engine.commitHmac_period (r : HmacResult) (e : Engine) :
    (e.commitHmac r).period = e.period := rfl
@[simp] theorem Engine.commitHmac_counterLo (r : HmacResult) (e : Engine) :
    (e.commitHmac r).counterLo = e.counterLo := rfl
@[simp] theorem Engine.commitHmac_counterHi (r : HmacResult) (e : Engine) :
    (e.commitHmac r).counterHi = e.counterHi := rfl
@[simp] theorem Engine.commitHmac_timeLo (r : HmacResult) (e : Engine) :
    (e.commitHmac r).timeLo = e.timeLo := rfl
@[simp] theorem Engine.commitHmac_timeHi (r : HmacResult) (e : Engine) :
    (e.commitHmac r).timeHi = e.timeHi := rfl
@[simp] theorem Engine.commitHmac_keyLen (r : HmacResult) (e : Engine) :
    (e.commitHmac r).keyLen = e.keyLen := rfl
@[simp] theorem Engine.commitHmac_truncOffset (r : HmacResult) (e : Engine) :
    (e.commitHmac r).truncOffset = e.truncOffset := rfl
@[simp] theorem Engine.commitHmac_ctrOutLo (r : HmacResult) (e : Engine) :
    (e.commitHmac r).ctrOutLo = r.counter.extractLsb' 0 32 := rfl
@[simp] theorem Engine.commitHmac_ctrOutHi (r : HmacResult) (e : Engine) :
    (e.commitHmac r).ctrOutHi = r.counter.extractLsb' 32 32 := rfl
@[simp] theorem Engine.commitHmac_digest (r : HmacResult) (e : Engine) :
    (e.commitHmac r).digest = r.digest := rfl
@[simp] theorem Engine.commitHmac_dbcRaw (r : HmacResult) (e : Engine) :
    (e.commitHmac r).dbcRaw = e.dbcRaw := rfl
@[simp] theorem Engine.commitHmac_dbc (r : HmacResult) (e : Engine) :
    (e.commitHmac r).dbc = e.dbc := rfl
@[simp] theorem Engine.commitHmac_decValue (r : HmacResult) (e : Engine) :
    (e.commitHmac r).decValue = e.decValue := rfl
@[simp] theorem Engine.commitHmac_decLen (r : HmacResult) (e : Engine) :
    (e.commitHmac r).decLen = e.decLen := rfl
@[simp] theorem Engine.commitHmac_mem (r : HmacResult) (e : Engine) :
    (e.commitHmac r).mem = e.mem := rfl

/-! ### `Engine.commitTrunc` -/

@[simp] theorem Engine.commitTrunc_params (r : TruncResult) (e : Engine) :
    (e.commitTrunc r).params = e.params := rfl
@[simp] theorem Engine.commitTrunc_cmd (r : TruncResult) (e : Engine) :
    (e.commitTrunc r).cmd = e.cmd := rfl
@[simp] theorem Engine.commitTrunc_busy (r : TruncResult) (e : Engine) :
    (e.commitTrunc r).busy = e.busy := rfl
@[simp] theorem Engine.commitTrunc_done (r : TruncResult) (e : Engine) :
    (e.commitTrunc r).done = e.done := rfl
@[simp] theorem Engine.commitTrunc_error (r : TruncResult) (e : Engine) :
    (e.commitTrunc r).error = e.error := rfl
@[simp] theorem Engine.commitTrunc_initialized (r : TruncResult) (e : Engine) :
    (e.commitTrunc r).initialized = e.initialized := rfl
@[simp] theorem Engine.commitTrunc_errcode (r : TruncResult) (e : Engine) :
    (e.commitTrunc r).errcode = e.errcode := rfl
@[simp] theorem Engine.commitTrunc_secretLen (r : TruncResult) (e : Engine) :
    (e.commitTrunc r).secretLen = e.secretLen := rfl
@[simp] theorem Engine.commitTrunc_digits (r : TruncResult) (e : Engine) :
    (e.commitTrunc r).digits = e.digits := rfl
@[simp] theorem Engine.commitTrunc_period (r : TruncResult) (e : Engine) :
    (e.commitTrunc r).period = e.period := rfl
@[simp] theorem Engine.commitTrunc_counterLo (r : TruncResult) (e : Engine) :
    (e.commitTrunc r).counterLo = e.counterLo := rfl
@[simp] theorem Engine.commitTrunc_counterHi (r : TruncResult) (e : Engine) :
    (e.commitTrunc r).counterHi = e.counterHi := rfl
@[simp] theorem Engine.commitTrunc_timeLo (r : TruncResult) (e : Engine) :
    (e.commitTrunc r).timeLo = e.timeLo := rfl
@[simp] theorem Engine.commitTrunc_timeHi (r : TruncResult) (e : Engine) :
    (e.commitTrunc r).timeHi = e.timeHi := rfl
@[simp] theorem Engine.commitTrunc_keyLen (r : TruncResult) (e : Engine) :
    (e.commitTrunc r).keyLen = e.keyLen := rfl
@[simp] theorem Engine.commitTrunc_truncOffset (r : TruncResult) (e : Engine) :
    (e.commitTrunc r).truncOffset = r.offset.setWidth 32 := rfl
@[simp] theorem Engine.commitTrunc_ctrOutLo (r : TruncResult) (e : Engine) :
    (e.commitTrunc r).ctrOutLo = e.ctrOutLo := rfl
@[simp] theorem Engine.commitTrunc_ctrOutHi (r : TruncResult) (e : Engine) :
    (e.commitTrunc r).ctrOutHi = e.ctrOutHi := rfl
@[simp] theorem Engine.commitTrunc_digest (r : TruncResult) (e : Engine) :
    (e.commitTrunc r).digest = e.digest := rfl
@[simp] theorem Engine.commitTrunc_dbcRaw (r : TruncResult) (e : Engine) :
    (e.commitTrunc r).dbcRaw = r.raw := rfl
@[simp] theorem Engine.commitTrunc_dbc (r : TruncResult) (e : Engine) :
    (e.commitTrunc r).dbc = r.dbc := rfl
@[simp] theorem Engine.commitTrunc_decValue (r : TruncResult) (e : Engine) :
    (e.commitTrunc r).decValue = e.decValue := rfl
@[simp] theorem Engine.commitTrunc_decLen (r : TruncResult) (e : Engine) :
    (e.commitTrunc r).decLen = e.decLen := rfl
@[simp] theorem Engine.commitTrunc_mem (r : TruncResult) (e : Engine) :
    (e.commitTrunc r).mem = e.mem := rfl

/-! ### `Engine.commitDec` -/

@[simp] theorem Engine.commitDec_params (r : DecResult) (e : Engine) :
    (e.commitDec r).params = e.params := rfl
@[simp] theorem Engine.commitDec_cmd (r : DecResult) (e : Engine) :
    (e.commitDec r).cmd = e.cmd := rfl
@[simp] theorem Engine.commitDec_busy (r : DecResult) (e : Engine) :
    (e.commitDec r).busy = e.busy := rfl
@[simp] theorem Engine.commitDec_done (r : DecResult) (e : Engine) :
    (e.commitDec r).done = e.done := rfl
@[simp] theorem Engine.commitDec_error (r : DecResult) (e : Engine) :
    (e.commitDec r).error = e.error := rfl
@[simp] theorem Engine.commitDec_initialized (r : DecResult) (e : Engine) :
    (e.commitDec r).initialized = e.initialized := rfl
@[simp] theorem Engine.commitDec_errcode (r : DecResult) (e : Engine) :
    (e.commitDec r).errcode = e.errcode := rfl
@[simp] theorem Engine.commitDec_secretLen (r : DecResult) (e : Engine) :
    (e.commitDec r).secretLen = e.secretLen := rfl
@[simp] theorem Engine.commitDec_digits (r : DecResult) (e : Engine) :
    (e.commitDec r).digits = e.digits := rfl
@[simp] theorem Engine.commitDec_period (r : DecResult) (e : Engine) :
    (e.commitDec r).period = e.period := rfl
@[simp] theorem Engine.commitDec_counterLo (r : DecResult) (e : Engine) :
    (e.commitDec r).counterLo = e.counterLo := rfl
@[simp] theorem Engine.commitDec_counterHi (r : DecResult) (e : Engine) :
    (e.commitDec r).counterHi = e.counterHi := rfl
@[simp] theorem Engine.commitDec_timeLo (r : DecResult) (e : Engine) :
    (e.commitDec r).timeLo = e.timeLo := rfl
@[simp] theorem Engine.commitDec_timeHi (r : DecResult) (e : Engine) :
    (e.commitDec r).timeHi = e.timeHi := rfl
@[simp] theorem Engine.commitDec_keyLen (r : DecResult) (e : Engine) :
    (e.commitDec r).keyLen = e.keyLen := rfl
@[simp] theorem Engine.commitDec_truncOffset (r : DecResult) (e : Engine) :
    (e.commitDec r).truncOffset = e.truncOffset := rfl
@[simp] theorem Engine.commitDec_ctrOutLo (r : DecResult) (e : Engine) :
    (e.commitDec r).ctrOutLo = e.ctrOutLo := rfl
@[simp] theorem Engine.commitDec_ctrOutHi (r : DecResult) (e : Engine) :
    (e.commitDec r).ctrOutHi = e.ctrOutHi := rfl
@[simp] theorem Engine.commitDec_digest (r : DecResult) (e : Engine) :
    (e.commitDec r).digest = e.digest := rfl
@[simp] theorem Engine.commitDec_dbcRaw (r : DecResult) (e : Engine) :
    (e.commitDec r).dbcRaw = e.dbcRaw := rfl
@[simp] theorem Engine.commitDec_dbc (r : DecResult) (e : Engine) :
    (e.commitDec r).dbc = e.dbc := rfl
@[simp] theorem Engine.commitDec_decValue (r : DecResult) (e : Engine) :
    (e.commitDec r).decValue = BitVec.ofNat 32 r.value := rfl
@[simp] theorem Engine.commitDec_decLen (r : DecResult) (e : Engine) :
    (e.commitDec r).decLen = BitVec.ofNat 32 r.digits := rfl
@[simp] theorem Engine.commitDec_mem (r : DecResult) (e : Engine) :
    (e.commitDec r).mem = Memory.writeBytes e.mem Buffer.dec.base (padTo (Buffer.dec.size e.params) r.chars) := rfl

/-! ### `Engine.commitSteam` -/

@[simp] theorem Engine.commitSteam_params (s : List Byte) (e : Engine) :
    (e.commitSteam s).params = e.params := rfl
@[simp] theorem Engine.commitSteam_cmd (s : List Byte) (e : Engine) :
    (e.commitSteam s).cmd = e.cmd := rfl
@[simp] theorem Engine.commitSteam_busy (s : List Byte) (e : Engine) :
    (e.commitSteam s).busy = e.busy := rfl
@[simp] theorem Engine.commitSteam_done (s : List Byte) (e : Engine) :
    (e.commitSteam s).done = e.done := rfl
@[simp] theorem Engine.commitSteam_error (s : List Byte) (e : Engine) :
    (e.commitSteam s).error = e.error := rfl
@[simp] theorem Engine.commitSteam_initialized (s : List Byte) (e : Engine) :
    (e.commitSteam s).initialized = e.initialized := rfl
@[simp] theorem Engine.commitSteam_errcode (s : List Byte) (e : Engine) :
    (e.commitSteam s).errcode = e.errcode := rfl
@[simp] theorem Engine.commitSteam_secretLen (s : List Byte) (e : Engine) :
    (e.commitSteam s).secretLen = e.secretLen := rfl
@[simp] theorem Engine.commitSteam_digits (s : List Byte) (e : Engine) :
    (e.commitSteam s).digits = e.digits := rfl
@[simp] theorem Engine.commitSteam_period (s : List Byte) (e : Engine) :
    (e.commitSteam s).period = e.period := rfl
@[simp] theorem Engine.commitSteam_counterLo (s : List Byte) (e : Engine) :
    (e.commitSteam s).counterLo = e.counterLo := rfl
@[simp] theorem Engine.commitSteam_counterHi (s : List Byte) (e : Engine) :
    (e.commitSteam s).counterHi = e.counterHi := rfl
@[simp] theorem Engine.commitSteam_timeLo (s : List Byte) (e : Engine) :
    (e.commitSteam s).timeLo = e.timeLo := rfl
@[simp] theorem Engine.commitSteam_timeHi (s : List Byte) (e : Engine) :
    (e.commitSteam s).timeHi = e.timeHi := rfl
@[simp] theorem Engine.commitSteam_keyLen (s : List Byte) (e : Engine) :
    (e.commitSteam s).keyLen = e.keyLen := rfl
@[simp] theorem Engine.commitSteam_truncOffset (s : List Byte) (e : Engine) :
    (e.commitSteam s).truncOffset = e.truncOffset := rfl
@[simp] theorem Engine.commitSteam_ctrOutLo (s : List Byte) (e : Engine) :
    (e.commitSteam s).ctrOutLo = e.ctrOutLo := rfl
@[simp] theorem Engine.commitSteam_ctrOutHi (s : List Byte) (e : Engine) :
    (e.commitSteam s).ctrOutHi = e.ctrOutHi := rfl
@[simp] theorem Engine.commitSteam_digest (s : List Byte) (e : Engine) :
    (e.commitSteam s).digest = e.digest := rfl
@[simp] theorem Engine.commitSteam_dbcRaw (s : List Byte) (e : Engine) :
    (e.commitSteam s).dbcRaw = e.dbcRaw := rfl
@[simp] theorem Engine.commitSteam_dbc (s : List Byte) (e : Engine) :
    (e.commitSteam s).dbc = e.dbc := rfl
@[simp] theorem Engine.commitSteam_decValue (s : List Byte) (e : Engine) :
    (e.commitSteam s).decValue = e.decValue := rfl
@[simp] theorem Engine.commitSteam_decLen (s : List Byte) (e : Engine) :
    (e.commitSteam s).decLen = e.decLen := rfl
@[simp] theorem Engine.commitSteam_mem (s : List Byte) (e : Engine) :
    (e.commitSteam s).mem = Memory.writeBytes e.mem Buffer.steam.base (padTo (Buffer.steam.size e.params) s) := rfl

/-! ### `Engine.writeBuffer` -/

@[simp] theorem Engine.writeBuffer_params (a n : Nat) (v : Word) (e : Engine) :
    (e.writeBuffer a n v).params = e.params := rfl
@[simp] theorem Engine.writeBuffer_cmd (a n : Nat) (v : Word) (e : Engine) :
    (e.writeBuffer a n v).cmd = e.cmd := rfl
@[simp] theorem Engine.writeBuffer_busy (a n : Nat) (v : Word) (e : Engine) :
    (e.writeBuffer a n v).busy = e.busy := rfl
@[simp] theorem Engine.writeBuffer_done (a n : Nat) (v : Word) (e : Engine) :
    (e.writeBuffer a n v).done = e.done := rfl
@[simp] theorem Engine.writeBuffer_error (a n : Nat) (v : Word) (e : Engine) :
    (e.writeBuffer a n v).error = e.error := rfl
@[simp] theorem Engine.writeBuffer_initialized (a n : Nat) (v : Word) (e : Engine) :
    (e.writeBuffer a n v).initialized = e.initialized := rfl
@[simp] theorem Engine.writeBuffer_errcode (a n : Nat) (v : Word) (e : Engine) :
    (e.writeBuffer a n v).errcode = e.errcode := rfl
@[simp] theorem Engine.writeBuffer_secretLen (a n : Nat) (v : Word) (e : Engine) :
    (e.writeBuffer a n v).secretLen = e.secretLen := rfl
@[simp] theorem Engine.writeBuffer_digits (a n : Nat) (v : Word) (e : Engine) :
    (e.writeBuffer a n v).digits = e.digits := rfl
@[simp] theorem Engine.writeBuffer_period (a n : Nat) (v : Word) (e : Engine) :
    (e.writeBuffer a n v).period = e.period := rfl
@[simp] theorem Engine.writeBuffer_counterLo (a n : Nat) (v : Word) (e : Engine) :
    (e.writeBuffer a n v).counterLo = e.counterLo := rfl
@[simp] theorem Engine.writeBuffer_counterHi (a n : Nat) (v : Word) (e : Engine) :
    (e.writeBuffer a n v).counterHi = e.counterHi := rfl
@[simp] theorem Engine.writeBuffer_timeLo (a n : Nat) (v : Word) (e : Engine) :
    (e.writeBuffer a n v).timeLo = e.timeLo := rfl
@[simp] theorem Engine.writeBuffer_timeHi (a n : Nat) (v : Word) (e : Engine) :
    (e.writeBuffer a n v).timeHi = e.timeHi := rfl
@[simp] theorem Engine.writeBuffer_keyLen (a n : Nat) (v : Word) (e : Engine) :
    (e.writeBuffer a n v).keyLen = e.keyLen := rfl
@[simp] theorem Engine.writeBuffer_truncOffset (a n : Nat) (v : Word) (e : Engine) :
    (e.writeBuffer a n v).truncOffset = e.truncOffset := rfl
@[simp] theorem Engine.writeBuffer_ctrOutLo (a n : Nat) (v : Word) (e : Engine) :
    (e.writeBuffer a n v).ctrOutLo = e.ctrOutLo := rfl
@[simp] theorem Engine.writeBuffer_ctrOutHi (a n : Nat) (v : Word) (e : Engine) :
    (e.writeBuffer a n v).ctrOutHi = e.ctrOutHi := rfl
@[simp] theorem Engine.writeBuffer_digest (a n : Nat) (v : Word) (e : Engine) :
    (e.writeBuffer a n v).digest = e.digest := rfl
@[simp] theorem Engine.writeBuffer_dbcRaw (a n : Nat) (v : Word) (e : Engine) :
    (e.writeBuffer a n v).dbcRaw = e.dbcRaw := rfl
@[simp] theorem Engine.writeBuffer_dbc (a n : Nat) (v : Word) (e : Engine) :
    (e.writeBuffer a n v).dbc = e.dbc := rfl
@[simp] theorem Engine.writeBuffer_decValue (a n : Nat) (v : Word) (e : Engine) :
    (e.writeBuffer a n v).decValue = e.decValue := rfl
@[simp] theorem Engine.writeBuffer_decLen (a n : Nat) (v : Word) (e : Engine) :
    (e.writeBuffer a n v).decLen = e.decLen := rfl
@[simp] theorem Engine.writeBuffer_mem (a n : Nat) (v : Word) (e : Engine) :
    (e.writeBuffer a n v).mem = Memory.writeBytes e.mem a (leBytes n v) := rfl

/-! ### The host agent and the schedule -/

@[simp] theorem State.finishLine_eng (r : Response) (s : State) :
    (s.finishLine r).eng = s.eng := rfl
@[simp] theorem State.finishLine_program (r : Response) (s : State) :
    (s.finishLine r).host.program = s.host.program := rfl
@[simp] theorem State.finishLine_pos (r : Response) (s : State) :
    (s.finishLine r).host.pos = s.host.pos + 1 := rfl
@[simp] theorem State.finishLine_results (r : Response) (s : State) :
    (s.finishLine r).host.results = s.host.results ++ [r] := rfl
@[simp] theorem State.finishLine_schedule (r : Response) (s : State) :
    (s.finishLine r).schedule = s.schedule := rfl
@[simp] theorem State.withFetchWord_eng (n w : Nat) (s : State) :
    (s.withFetchWord n w).eng = s.eng.issue (BitVec.ofNat 32 (w % 2 ^ n)) := rfl
@[simp] theorem State.withFetchWord_program (n w : Nat) (s : State) :
    (s.withFetchWord n w).host.program = s.host.program := rfl
@[simp] theorem State.withFetchWord_pos (n w : Nat) (s : State) :
    (s.withFetchWord n w).host.pos = s.host.pos := rfl
@[simp] theorem State.withFetchWord_results (n w : Nat) (s : State) :
    (s.withFetchWord n w).host.results = s.host.results := rfl
@[simp] theorem State.withFetchWord_schedule (n w : Nat) (s : State) :
    (s.withFetchWord n w).schedule = .engine :: s.schedule := rfl
@[simp] theorem platformReset_eng (s : State) :
    (platformReset s).eng = Engine.reset s.eng.params := rfl
@[simp] theorem platformReset_host (s : State) :
    (platformReset s).host = s.host := rfl
@[simp] theorem platformReset_schedule (s : State) :
    (platformReset s).schedule = s.schedule := rfl

/-! ### The commit set, field by field -/

section
variable {α β : Type} (g : Engine → β)

/-- A part that does not touch what `g` sees leaves it, applied or not. -/
theorem applyPart_keeps {f : α → Engine → Engine} (h : ∀ a e, g (f a e) = g e) (o : Option α)
    (e : Engine) : g (applyPart f o e) = g e := by cases o <;> simp [applyPart, h]

/-- A part that sets what `g` sees sets it exactly when it is there. -/
theorem applyPart_sets {f : α → Engine → Engine} {v : α → β} (h : ∀ a e, g (f a e) = v a)
    (o : Option α) (e : Engine) : g (applyPart f o e) = o.elim (g e) v := by
  cases o <;> simp [applyPart, h]

/-- The optional INITIALIZED part leaves what it does not touch. -/
theorem initPart_keeps (h : ∀ e, g (Engine.commitInit e) = g e) (b : Bool) (e : Engine) :
    g (if b then e.commitInit else e) = g e := by cases b <;> simp [h]

end

section
variable {β : Type} (g : Engine → β)

/-- A commit set leaves what none of its parts touches. -/
theorem Commit.apply_keeps (hi : ∀ e, g (Engine.commitInit e) = g e)
    (hk : ∀ a e, g (Engine.commitKey a e) = g e)
    (hh : ∀ a e, g (Engine.commitHmac a e) = g e)
    (ht : ∀ a e, g (Engine.commitTrunc a e) = g e)
    (hd : ∀ a e, g (Engine.commitDec a e) = g e)
    (hs : ∀ a e, g (Engine.commitSteam a e) = g e)
    (c : Commit) (e : Engine) : g (c.apply e) = g e := by
  rw [Commit.apply, applyPart_keeps g hs, applyPart_keeps g hd, applyPart_keeps g ht,
    applyPart_keeps g hh, applyPart_keeps g hk, initPart_keeps g hi]

/-- A commit set sets what only its key part sets, when that part is there. -/
theorem Commit.apply_key_sets {v : List Byte → β} (hi : ∀ e, g (Engine.commitInit e) = g e)
    (hk : ∀ a e, g (Engine.commitKey a e) = v a)
    (hh : ∀ a e, g (Engine.commitHmac a e) = g e)
    (ht : ∀ a e, g (Engine.commitTrunc a e) = g e)
    (hd : ∀ a e, g (Engine.commitDec a e) = g e)
    (hs : ∀ a e, g (Engine.commitSteam a e) = g e)
    (c : Commit) (e : Engine) : g (c.apply e) = c.key.elim (g e) v := by
  rw [Commit.apply, applyPart_keeps g hs, applyPart_keeps g hd, applyPart_keeps g ht,
    applyPart_keeps g hh, applyPart_sets g hk, initPart_keeps g hi]

/-- A commit set sets what only its hmac part sets, when that part is there. -/
theorem Commit.apply_hmac_sets {v : HmacResult → β} (hi : ∀ e, g (Engine.commitInit e) = g e)
    (hk : ∀ a e, g (Engine.commitKey a e) = g e)
    (hh : ∀ a e, g (Engine.commitHmac a e) = v a)
    (ht : ∀ a e, g (Engine.commitTrunc a e) = g e)
    (hd : ∀ a e, g (Engine.commitDec a e) = g e)
    (hs : ∀ a e, g (Engine.commitSteam a e) = g e)
    (c : Commit) (e : Engine) : g (c.apply e) = c.hmac.elim (g e) v := by
  rw [Commit.apply, applyPart_keeps g hs, applyPart_keeps g hd, applyPart_keeps g ht,
    applyPart_sets g hh, applyPart_keeps g hk, initPart_keeps g hi]

/-- A commit set sets what only its trunc part sets, when that part is there. -/
theorem Commit.apply_trunc_sets {v : TruncResult → β} (hi : ∀ e, g (Engine.commitInit e) = g e)
    (hk : ∀ a e, g (Engine.commitKey a e) = g e)
    (hh : ∀ a e, g (Engine.commitHmac a e) = g e)
    (ht : ∀ a e, g (Engine.commitTrunc a e) = v a)
    (hd : ∀ a e, g (Engine.commitDec a e) = g e)
    (hs : ∀ a e, g (Engine.commitSteam a e) = g e)
    (c : Commit) (e : Engine) : g (c.apply e) = c.trunc.elim (g e) v := by
  rw [Commit.apply, applyPart_keeps g hs, applyPart_keeps g hd, applyPart_sets g ht,
    applyPart_keeps g hh, applyPart_keeps g hk, initPart_keeps g hi]

/-- A commit set sets what only its dec part sets, when that part is there. -/
theorem Commit.apply_dec_sets {v : DecResult → β} (hi : ∀ e, g (Engine.commitInit e) = g e)
    (hk : ∀ a e, g (Engine.commitKey a e) = g e)
    (hh : ∀ a e, g (Engine.commitHmac a e) = g e)
    (ht : ∀ a e, g (Engine.commitTrunc a e) = g e)
    (hd : ∀ a e, g (Engine.commitDec a e) = v a)
    (hs : ∀ a e, g (Engine.commitSteam a e) = g e)
    (c : Commit) (e : Engine) : g (c.apply e) = c.dec.elim (g e) v := by
  rw [Commit.apply, applyPart_keeps g hs, applyPart_sets g hd, applyPart_keeps g ht,
    applyPart_keeps g hh, applyPart_keeps g hk, initPart_keeps g hi]

end

@[simp] theorem Commit.apply_params (c : Commit) (e : Engine) : (c.apply e).params = e.params :=
  Commit.apply_keeps Engine.params (fun _ => rfl) (fun _ _ => rfl) (fun _ _ => rfl) (fun _ _ => rfl) (fun _ _ => rfl)
    (fun _ _ => rfl) c e
@[simp] theorem Commit.apply_cmd (c : Commit) (e : Engine) : (c.apply e).cmd = e.cmd :=
  Commit.apply_keeps Engine.cmd (fun _ => rfl) (fun _ _ => rfl) (fun _ _ => rfl) (fun _ _ => rfl) (fun _ _ => rfl)
    (fun _ _ => rfl) c e
@[simp] theorem Commit.apply_busy (c : Commit) (e : Engine) : (c.apply e).busy = e.busy :=
  Commit.apply_keeps Engine.busy (fun _ => rfl) (fun _ _ => rfl) (fun _ _ => rfl) (fun _ _ => rfl) (fun _ _ => rfl)
    (fun _ _ => rfl) c e
@[simp] theorem Commit.apply_done (c : Commit) (e : Engine) : (c.apply e).done = e.done :=
  Commit.apply_keeps Engine.done (fun _ => rfl) (fun _ _ => rfl) (fun _ _ => rfl) (fun _ _ => rfl) (fun _ _ => rfl)
    (fun _ _ => rfl) c e
@[simp] theorem Commit.apply_error (c : Commit) (e : Engine) : (c.apply e).error = e.error :=
  Commit.apply_keeps Engine.error (fun _ => rfl) (fun _ _ => rfl) (fun _ _ => rfl) (fun _ _ => rfl) (fun _ _ => rfl)
    (fun _ _ => rfl) c e
@[simp] theorem Commit.apply_errcode (c : Commit) (e : Engine) : (c.apply e).errcode = e.errcode :=
  Commit.apply_keeps Engine.errcode (fun _ => rfl) (fun _ _ => rfl) (fun _ _ => rfl) (fun _ _ => rfl) (fun _ _ => rfl)
    (fun _ _ => rfl) c e
@[simp] theorem Commit.apply_secretLen (c : Commit) (e : Engine) : (c.apply e).secretLen = e.secretLen :=
  Commit.apply_keeps Engine.secretLen (fun _ => rfl) (fun _ _ => rfl) (fun _ _ => rfl) (fun _ _ => rfl) (fun _ _ => rfl)
    (fun _ _ => rfl) c e
@[simp] theorem Commit.apply_digits (c : Commit) (e : Engine) : (c.apply e).digits = e.digits :=
  Commit.apply_keeps Engine.digits (fun _ => rfl) (fun _ _ => rfl) (fun _ _ => rfl) (fun _ _ => rfl) (fun _ _ => rfl)
    (fun _ _ => rfl) c e
@[simp] theorem Commit.apply_period (c : Commit) (e : Engine) : (c.apply e).period = e.period :=
  Commit.apply_keeps Engine.period (fun _ => rfl) (fun _ _ => rfl) (fun _ _ => rfl) (fun _ _ => rfl) (fun _ _ => rfl)
    (fun _ _ => rfl) c e
@[simp] theorem Commit.apply_counterLo (c : Commit) (e : Engine) : (c.apply e).counterLo = e.counterLo :=
  Commit.apply_keeps Engine.counterLo (fun _ => rfl) (fun _ _ => rfl) (fun _ _ => rfl) (fun _ _ => rfl) (fun _ _ => rfl)
    (fun _ _ => rfl) c e
@[simp] theorem Commit.apply_counterHi (c : Commit) (e : Engine) : (c.apply e).counterHi = e.counterHi :=
  Commit.apply_keeps Engine.counterHi (fun _ => rfl) (fun _ _ => rfl) (fun _ _ => rfl) (fun _ _ => rfl) (fun _ _ => rfl)
    (fun _ _ => rfl) c e
@[simp] theorem Commit.apply_timeLo (c : Commit) (e : Engine) : (c.apply e).timeLo = e.timeLo :=
  Commit.apply_keeps Engine.timeLo (fun _ => rfl) (fun _ _ => rfl) (fun _ _ => rfl) (fun _ _ => rfl) (fun _ _ => rfl)
    (fun _ _ => rfl) c e
@[simp] theorem Commit.apply_timeHi (c : Commit) (e : Engine) : (c.apply e).timeHi = e.timeHi :=
  Commit.apply_keeps Engine.timeHi (fun _ => rfl) (fun _ _ => rfl) (fun _ _ => rfl) (fun _ _ => rfl) (fun _ _ => rfl)
    (fun _ _ => rfl) c e
@[simp] theorem Commit.apply_keyLen (c : Commit) (e : Engine) :
    (c.apply e).keyLen = c.key.elim e.keyLen (fun k => BitVec.ofNat 32 k.length) :=
  Commit.apply_key_sets Engine.keyLen (fun _ => rfl) (fun _ _ => rfl) (fun _ _ => rfl) (fun _ _ => rfl) (fun _ _ => rfl)
    (fun _ _ => rfl) c e
@[simp] theorem Commit.apply_ctrOutLo (c : Commit) (e : Engine) :
    (c.apply e).ctrOutLo = c.hmac.elim e.ctrOutLo (fun r => r.counter.extractLsb' 0 32) :=
  Commit.apply_hmac_sets Engine.ctrOutLo (fun _ => rfl) (fun _ _ => rfl) (fun _ _ => rfl) (fun _ _ => rfl) (fun _ _ => rfl)
    (fun _ _ => rfl) c e
@[simp] theorem Commit.apply_ctrOutHi (c : Commit) (e : Engine) :
    (c.apply e).ctrOutHi = c.hmac.elim e.ctrOutHi (fun r => r.counter.extractLsb' 32 32) :=
  Commit.apply_hmac_sets Engine.ctrOutHi (fun _ => rfl) (fun _ _ => rfl) (fun _ _ => rfl) (fun _ _ => rfl) (fun _ _ => rfl)
    (fun _ _ => rfl) c e
@[simp] theorem Commit.apply_digest (c : Commit) (e : Engine) :
    (c.apply e).digest = c.hmac.elim e.digest (fun r => r.digest) :=
  Commit.apply_hmac_sets Engine.digest (fun _ => rfl) (fun _ _ => rfl) (fun _ _ => rfl) (fun _ _ => rfl) (fun _ _ => rfl)
    (fun _ _ => rfl) c e
@[simp] theorem Commit.apply_truncOffset (c : Commit) (e : Engine) :
    (c.apply e).truncOffset = c.trunc.elim e.truncOffset (fun r => r.offset.setWidth 32) :=
  Commit.apply_trunc_sets Engine.truncOffset (fun _ => rfl) (fun _ _ => rfl) (fun _ _ => rfl) (fun _ _ => rfl) (fun _ _ => rfl)
    (fun _ _ => rfl) c e
@[simp] theorem Commit.apply_dbcRaw (c : Commit) (e : Engine) :
    (c.apply e).dbcRaw = c.trunc.elim e.dbcRaw (fun r => r.raw) :=
  Commit.apply_trunc_sets Engine.dbcRaw (fun _ => rfl) (fun _ _ => rfl) (fun _ _ => rfl) (fun _ _ => rfl) (fun _ _ => rfl)
    (fun _ _ => rfl) c e
@[simp] theorem Commit.apply_dbc (c : Commit) (e : Engine) :
    (c.apply e).dbc = c.trunc.elim e.dbc (fun r => r.dbc) :=
  Commit.apply_trunc_sets Engine.dbc (fun _ => rfl) (fun _ _ => rfl) (fun _ _ => rfl) (fun _ _ => rfl) (fun _ _ => rfl)
    (fun _ _ => rfl) c e
@[simp] theorem Commit.apply_decValue (c : Commit) (e : Engine) :
    (c.apply e).decValue = c.dec.elim e.decValue (fun r => BitVec.ofNat 32 r.value) :=
  Commit.apply_dec_sets Engine.decValue (fun _ => rfl) (fun _ _ => rfl) (fun _ _ => rfl) (fun _ _ => rfl) (fun _ _ => rfl)
    (fun _ _ => rfl) c e
@[simp] theorem Commit.apply_decLen (c : Commit) (e : Engine) :
    (c.apply e).decLen = c.dec.elim e.decLen (fun r => BitVec.ofNat 32 r.digits) :=
  Commit.apply_dec_sets Engine.decLen (fun _ => rfl) (fun _ _ => rfl) (fun _ _ => rfl) (fun _ _ => rfl) (fun _ _ => rfl)
    (fun _ _ => rfl) c e
@[simp] theorem Commit.apply_initialized (c : Commit) (e : Engine) :
    (c.apply e).initialized = (c.initialized || e.initialized) := by
  have h {α : Type} (f : α → Engine → Engine) (hf : ∀ a e, (f a e).initialized = e.initialized) :=
    fun o e => applyPart_keeps Engine.initialized hf o e
  rw [Commit.apply, h Engine.commitSteam fun _ _ => rfl, h Engine.commitDec fun _ _ => rfl,
    h Engine.commitTrunc fun _ _ => rfl, h Engine.commitHmac fun _ _ => rfl,
    h Engine.commitKey fun _ _ => rfl]
  cases c.initialized <;> rfl

/-- What a part that stores bytes at a fixed place does to the byte memory, applied or not. -/
def storePart (a n : Nat) : Option (List Byte) → Memory → Memory
  | none, m => m
  | some s, m => Memory.writeBytes m a (padTo n s)

/-- What a commit set does to the byte memory: the key, then the decimal code, then the Steam code. -/
theorem Commit.apply_mem (c : Commit) (e : Engine) :
    (c.apply e).mem =
      storePart 0x090 8 c.steam
        (storePart 0x080 16 (c.dec.map DecResult.chars) (storePart 0x800 e.params.secretMax c.key e.mem)) := by
  have hs : ∀ (o : Option (List Byte)) (e : Engine),
      (applyPart Engine.commitSteam o e).mem = storePart 0x090 8 o e.mem := by
    intro o e; cases o <;> rfl
  have hd : ∀ (o : Option DecResult) (e : Engine),
      (applyPart Engine.commitDec o e).mem = storePart 0x080 16 (o.map DecResult.chars) e.mem := by
    intro o e; cases o <;> rfl
  have hk : ∀ (o : Option (List Byte)) (e : Engine),
      (applyPart Engine.commitKey o e).mem = storePart 0x800 e.params.secretMax o e.mem := by
    intro o e; cases o <;> rfl
  rw [Commit.apply, hs, hd, applyPart_keeps Engine.mem (f := Engine.commitTrunc) fun _ _ => rfl,
    applyPart_keeps Engine.mem (f := Engine.commitHmac) fun _ _ => rfl, hk,
    initPart_keeps Engine.mem fun _ => rfl, initPart_keeps Engine.params fun _ => rfl]

/-- Storing a part keeps the canonical form. -/
theorem wf_storePart {m : Memory} (h : Memory.wf m) (a n : Nat) (o : Option (List Byte)) :
    Memory.wf (storePart a n o m) := by
  cases o
  · exact h
  · exact Memory.wf_writeBytes h _ _

/-- What a byte reads as after a part of at most `n` bytes is stored at `a`. -/
theorem read_storePart {m : Memory} (h : Memory.wf m) {a n : Nat} {o : Option (List Byte)}
    (hn : ∀ s, o = some s → s.length ≤ n) (x : Nat) :
    Memory.read (storePart a n o m) x =
      o.elim (Memory.read m x) fun s =>
        if a ≤ x ∧ x < a + n then s.getD (x - a) 0x00 else Memory.read m x := by
  cases o with
  | none => rfl
  | some s =>
    rw [storePart, Memory.read_writeBytes h, length_padTo (hn s rfl), getD_padTo]
    rfl

/-- A commit set keeps the canonical form of the memory. -/
theorem Commit.wf_apply (c : Commit) {e : Engine} (h : Memory.wf e.mem) : Memory.wf (c.apply e).mem := by
  rw [Commit.apply_mem]
  exact wf_storePart (wf_storePart (wf_storePart h _ _ _) _ _ _) _ _ _

end Sys2Proof.Machine
end

