-- ==== Sys2Proof/Laws/Exec.lean ====
section
/-! SUPPORT. What a command can do, said once: every command completes with the result of its `Exec`
function, and that function answers in one of the ways listed here. -/

namespace Sys2Proof.Machine

/-- The result of `Exec` for a decoded command, gating included (40_command_control.md R144). -/
def resultOf : Instr → Engine → Except ErrorCode Commit
  | .init, _ => initCommand
  | .decode, e => gated e (decodeCommand false e)
  | .decodeRaw, e => gated e (decodeCommand true e)
  | .hmac, e => gated e (hmacCommand e)
  | .trunc, e => gated e (truncCommand e)
  | .fmtDec, e => gated e (fmtDecCommand e)
  | .fmtSteam, e => gated e (fmtSteamCommand e)
  | .hotp, e => gated e (hotpCore false e.counter e)
  | .hotpRaw, e => gated e (hotpCore true e.counter e)
  | .totp, e => gated e (totpCommand false e)
  | .totpRaw, e => gated e (totpCommand true e)
  | .steam, e => gated e (steamCommand false e)
  | .steamRaw, e => gated e (steamCommand true e)

/-- Every command completes, and the completion step is one shared operation. -/
theorem exec_eq (i : Instr) (s : State) : exec i s = completeWith (resultOf i s.eng) s := by
  cases i <;> rfl

/-- A completion touches the engine alone. -/
theorem completeWith_eq (r : Except ErrorCode Commit) (s : State) :
    completeWith r s = .next { s with eng := s.eng.complete r } := rfl

/-- The next state of a command. -/
theorem exec_next {i : Instr} {s t : State} (h : exec i s = .next t) :
    t = { s with eng := s.eng.complete (resultOf i s.eng) } := by
  rw [exec_eq, completeWith_eq] at h
  injection h with h
  exact h.symm

@[simp] theorem Engine.complete_ok (e : Engine) (c : Commit) :
    e.complete (.ok c) = (c.apply e).markSuccess := rfl

@[simp] theorem Engine.complete_error (e : Engine) (code : ErrorCode) :
    e.complete (.error code) = e.markError code := rfl

/-- A completion ends with ERROR = 0 exactly when `Exec` answered `Ok`. -/
theorem Engine.complete_error_eq (e : Engine) (r : Except ErrorCode Commit) :
    (e.complete r).error = match r with | .ok _ => false | .error _ => true := by
  cases r <;> rfl

/-! ### The checks -/

theorem gated_of_initialized {e : Engine} (h : e.initialized = true) (r : Except ErrorCode Commit) :
    gated e r = r := by simp [gated, h]

theorem gated_of_not_initialized {e : Engine} (h : e.initialized = false)
    (r : Except ErrorCode Commit) : gated e r = .error .uninitialized := by simp [gated, h]

theorem gated_ok {e : Engine} {r : Except ErrorCode Commit} {c : Commit} (h : gated e r = .ok c) :
    e.initialized = true ∧ r = .ok c := by
  unfold gated at h
  split at h
  · exact ⟨by assumption, h⟩
  · cases h

theorem checkDigits_of_legal {e : Engine} (h : 1 ≤ e.digits.toNat ∧ e.digits.toNat ≤ 10) :
    checkDigits e = .ok () := by
  rw [checkDigits, if_neg]
  simp only [Config.digitsMin, Config.digitsMax]
  omega

theorem checkDigits_of_illegal {e : Engine} (h : ¬(1 ≤ e.digits.toNat ∧ e.digits.toNat ≤ 10)) :
    checkDigits e = .error .invalidDigitCount := by
  rw [checkDigits, if_pos]
  simp only [Config.digitsMin, Config.digitsMax]
  omega

theorem checkSecretLen_of_le {e : Engine} (h : e.secretLen.toNat ≤ e.params.secretMax) :
    checkSecretLen e = .ok () := by
  rw [checkSecretLen, if_neg (by omega)]

theorem checkSecretLen_of_gt {e : Engine} (h : ¬e.secretLen.toNat ≤ e.params.secretMax) :
    checkSecretLen e = .error .secretLength := by
  rw [checkSecretLen, if_pos (by omega)]

theorem checkPeriod_of_ne {e : Engine} (h : e.period ≠ 0) : checkPeriod e = .ok () := by
  rw [checkPeriod, if_neg h]

theorem checkPeriod_of_eq {e : Engine} (h : e.period = 0) : checkPeriod e = .error .invalidPeriod := by
  rw [checkPeriod, if_pos h]

/-! ### The length of a key -/

/-- The ways one byte takes the decoder further. -/
theorem b32Loop_cons (c : Byte) (cs : List Byte) (acc nbits : Nat) (key : List Byte) (p : Bool) :
    (c = paddingByte ∧ b32Loop (c :: cs) acc nbits key p = b32Loop cs acc nbits key true) ∨
    (c ≠ paddingByte ∧ (p = true ∨ symbolValue c = none) ∧
      b32Loop (c :: cs) acc nbits key p = .error .invalidSecretEncoding) ∨
    (∃ v, c ≠ paddingByte ∧ p = false ∧ symbolValue c = some v ∧ 3 ≤ nbits ∧
      b32Loop (c :: cs) acc nbits key p =
        b32Loop cs ((acc * 32 + v) % 2 ^ (nbits - 3)) (nbits - 3)
          (key ++ [BitVec.ofNat 8 ((acc * 32 + v) / 2 ^ (nbits - 3) % 256)]) p) ∨
    (∃ v, c ≠ paddingByte ∧ p = false ∧ symbolValue c = some v ∧ nbits < 3 ∧
      b32Loop (c :: cs) acc nbits key p = b32Loop cs (acc * 32 + v) (nbits + 5) key p) := by
  by_cases hc : c = paddingByte
  · exact .inl ⟨hc, by rw [b32Loop, if_pos hc]⟩
  · refine .inr ?_
    cases p with
    | true => exact .inl ⟨hc, .inl rfl, by rw [b32Loop, if_neg hc, if_pos rfl]⟩
    | false =>
      cases hv : symbolValue c with
      | none => exact .inl ⟨hc, .inr rfl, by simp [b32Loop, hc, hv]⟩
      | some v =>
        by_cases hn : 3 ≤ nbits
        · refine .inr (.inl ⟨v, hc, rfl, rfl, hn, ?_⟩)
          have h8 : nbits + 5 ≥ 8 := by omega
          simp [b32Loop, hc, hv, h8, show nbits + 5 - 8 = nbits - 3 by omega]
        · refine .inr (.inr ⟨v, hc, rfl, rfl, by omega, ?_⟩)
          have h8 : ¬8 ≤ nbits + 5 := by omega
          simp [b32Loop, hc, hv, h8]

theorem b32Loop_length_le {s : List Byte} {acc nbits : Nat} {key key' : List Byte} {p : Bool}
    (h : b32Loop s acc nbits key p = .ok key') :
    8 * key'.length ≤ 8 * key.length + nbits + 5 * s.length := by
  induction s generalizing acc nbits key p with
  | nil =>
    injection h with h
    subst h
    omega
  | cons c cs ih =>
    simp only [List.length_cons]
    rcases b32Loop_cons c cs acc nbits key p with
      ⟨_, e⟩ | ⟨_, _, e⟩ | ⟨v, _, _, _, _, e⟩ | ⟨v, _, _, _, _, e⟩ <;> rw [e] at h
    · have := ih h
      omega
    · cases h
    · have := ih h
      simp only [List.length_append, List.length_cons, List.length_nil] at this
      omega
    · have := ih h
      omega

/-- A key is no longer than the secret it comes from. -/
theorem keyFrom_length_le {raw : Bool} {s key : List Byte} (h : keyFrom raw s = .ok key) :
    key.length ≤ s.length := by
  cases raw with
  | true =>
    simp only [keyFrom, if_true, Except.ok.injEq] at h
    exact h ▸ le_rfl
  | false =>
    have h : b32Loop s 0 0 [] false = .ok key := by simpa [keyFrom, b32Decode] using h
    have := b32Loop_length_le h
    simp only [List.length_nil] at this
    omega

/-- The decoder has one error. -/
theorem b32Loop_error {s : List Byte} {acc nbits : Nat} {key : List Byte} {p : Bool} {x : ErrorCode}
    (h : b32Loop s acc nbits key p = .error x) : x = .invalidSecretEncoding := by
  induction s generalizing acc nbits key p with
  | nil => cases h
  | cons c cs ih =>
    rcases b32Loop_cons c cs acc nbits key p with
      ⟨_, e⟩ | ⟨_, _, e⟩ | ⟨v, _, _, _, _, e⟩ | ⟨v, _, _, _, _, e⟩ <;> rw [e] at h
    · exact ih h
    · injection h with h
      exact h.symm
    · exact ih h
    · exact ih h

theorem keyFrom_error {raw : Bool} {s : List Byte} {x : ErrorCode} (h : keyFrom raw s = .error x) :
    raw = false ∧ x = .invalidSecretEncoding := by
  cases raw with
  | true => simp [keyFrom] at h
  | false => exact ⟨rfl, b32Loop_error (by simpa [keyFrom, b32Decode] using h)⟩

@[simp] theorem Engine.length_secret (e : Engine) : e.secret.length = e.secretLen.toNat := by
  simp [Engine.secret, Engine.bufferBytes]

/-- What the key source answers. -/
theorem keyOfSecret_eq (raw : Bool) (e : Engine) :
    keyOfSecret raw e =
      if e.secretLen.toNat ≤ e.params.secretMax then keyFrom raw e.secret else .error .secretLength := by
  unfold keyOfSecret
  split
  · rw [checkSecretLen_of_le (by assumption)]; rfl
  · rw [checkSecretLen_of_gt (by assumption)]; rfl

theorem keyOfSecret_ok {raw : Bool} {e : Engine} {key : List Byte} (h : keyOfSecret raw e = .ok key) :
    e.secretLen.toNat ≤ e.params.secretMax ∧ keyFrom raw e.secret = .ok key ∧
      key.length ≤ e.params.secretMax := by
  rw [keyOfSecret_eq] at h
  split_ifs at h with hl
  exact ⟨hl, h, (keyFrom_length_le h).trans (by simpa using hl)⟩

/-! ### The `Exec` functions, as a chain of their checks -/

theorem decodeCommand_eq (raw : Bool) (e : Engine) :
    decodeCommand raw e =
      match keyOfSecret raw e with
      | .error x => .error x
      | .ok key => .ok { key := some key } := by
  unfold decodeCommand
  cases keyOfSecret raw e <;> rfl

theorem fmtDecCommand_eq (e : Engine) :
    fmtDecCommand e =
      if 1 ≤ e.digits.toNat ∧ e.digits.toNat ≤ 10 then
        .ok { dec := some (fmtDec e.dbc.toNat e.digits.toNat) }
      else .error .invalidDigitCount := by
  unfold fmtDecCommand
  split
  · rw [checkDigits_of_legal (by assumption)]; rfl
  · rw [checkDigits_of_illegal (by assumption)]; rfl

theorem hotpCore_eq (raw : Bool) (c : DWord) (e : Engine) :
    hotpCore raw c e =
      if 1 ≤ e.digits.toNat ∧ e.digits.toNat ≤ 10 then
        match keyOfSecret raw e with
        | .error x => .error x
        | .ok key => .ok (hotpCommit key c e.digits.toNat)
      else .error .invalidDigitCount := by
  unfold hotpCore
  split
  · rw [checkDigits_of_legal (by assumption)]
    cases keyOfSecret raw e <;> rfl
  · rw [checkDigits_of_illegal (by assumption)]; rfl

theorem totpCommand_eq (raw : Bool) (e : Engine) :
    totpCommand raw e =
      if e.period = 0 then .error .invalidPeriod else hotpCore raw e.totpCounter e := by
  unfold totpCommand
  split
  · rw [checkPeriod_of_eq (by assumption)]; rfl
  · rw [checkPeriod_of_ne (by assumption)]; rfl

theorem steamCommand_eq (raw : Bool) (e : Engine) :
    steamCommand raw e =
      match keyOfSecret raw e with
      | .error x => .error x
      | .ok key => .ok (steamCommit key e.steamCounter) := by
  unfold steamCommand
  cases keyOfSecret raw e <;> rfl

/-! ### What a commit set can hold -/

/-- The bounds every commit set of a command meets: a key fits KEY_BUF, a truncation is a `Truncate`, a
decimal code is a `FmtDec` of 1 to 10 digits of DBC or of a new 31-bit value, a Steam code is the
`FmtSteam` of the DBC that the commit leaves. -/
structure Commit.Bounded (e : Engine) (c : Commit) : Prop where
  key : ∀ k, c.key = some k → k.length ≤ e.params.secretMax
  trunc : ∀ t, c.trunc = some t → ∃ d, t = truncate d
  dec : ∀ r, c.dec = some r →
    ∃ v n, r = fmtDec v n ∧ 1 ≤ n ∧ n ≤ 10 ∧
      (v = e.dbc.toNat ∨ ∃ t, c.trunc = some t ∧ v = t.dbc.toNat)
  steam : ∀ x, c.steam = some x → x = fmtSteam (c.apply e).dbc.toNat

theorem hotpCore_bounded {raw : Bool} {k : DWord} {e : Engine} {c : Commit}
    (h : hotpCore raw k e = .ok c) : c.Bounded e ∧ c.initialized = false := by
  rw [hotpCore_eq] at h
  split_ifs at h with hd
  split at h
  · cases h
  · rename_i key hk
    injection h with h
    subst h
    refine ⟨⟨?_, ?_, ?_, ?_⟩, rfl⟩
    · rintro _ ⟨⟩; exact (keyOfSecret_ok hk).2.2
    · rintro _ ⟨⟩; exact ⟨_, rfl⟩
    · rintro _ ⟨⟩; exact ⟨_, _, rfl, hd.1, hd.2, .inr ⟨_, rfl, rfl⟩⟩
    · rintro _ ⟨⟩

theorem decodeCommand_bounded {raw : Bool} {e : Engine} {c : Commit}
    (h : decodeCommand raw e = .ok c) : c.Bounded e ∧ c.initialized = false := by
  rw [decodeCommand_eq] at h
  split at h
  · cases h
  · rename_i key hk
    injection h with h
    subst h
    refine ⟨⟨?_, ?_, ?_, ?_⟩, rfl⟩
    · rintro _ ⟨⟩; exact (keyOfSecret_ok hk).2.2
    all_goals rintro _ ⟨⟩

theorem steamCommand_bounded {raw : Bool} {e : Engine} {c : Commit}
    (h : steamCommand raw e = .ok c) : c.Bounded e ∧ c.initialized = false := by
  rw [steamCommand_eq] at h
  split at h
  · cases h
  · rename_i key hk
    injection h with h
    subst h
    refine ⟨⟨?_, ?_, ?_, ?_⟩, rfl⟩
    · rintro _ ⟨⟩; exact (keyOfSecret_ok hk).2.2
    · rintro _ ⟨⟩; exact ⟨_, rfl⟩
    · rintro _ ⟨⟩
    · rintro _ ⟨⟩; rfl

theorem totpCommand_bounded {raw : Bool} {e : Engine} {c : Commit}
    (h : totpCommand raw e = .ok c) : c.Bounded e ∧ c.initialized = false := by
  rw [totpCommand_eq] at h
  split_ifs at h
  exact hotpCore_bounded h

theorem fmtDecCommand_bounded {e : Engine} {c : Commit}
    (h : fmtDecCommand e = .ok c) : c.Bounded e ∧ c.initialized = false := by
  rw [fmtDecCommand_eq] at h
  split_ifs at h with hd
  injection h with h
  subst h
  refine ⟨⟨?_, ?_, ?_, ?_⟩, rfl⟩
  · rintro _ ⟨⟩
  · rintro _ ⟨⟩
  · rintro _ ⟨⟩; exact ⟨_, _, rfl, hd.1, hd.2, .inl rfl⟩
  · rintro _ ⟨⟩

/-- What a command that answers `Ok` can commit; only INIT sets INITIALIZED. -/
theorem resultOf_bounded {i : Instr} {e : Engine} {c : Commit} (h : resultOf i e = .ok c) :
    c.Bounded e ∧ (c.initialized = true ↔ i = .init) := by
  have wrap {r : Except ErrorCode Commit} (hg : gated e r = .ok c) (hi : i ≠ .init)
      (f : r = .ok c → c.Bounded e ∧ c.initialized = false) :
      c.Bounded e ∧ (c.initialized = true ↔ i = .init) := by
    obtain ⟨hb, hc⟩ := f (gated_ok hg).2
    exact ⟨hb, by simp [hc, hi]⟩
  cases i
  case init =>
    injection h with h
    subst h
    exact ⟨⟨by rintro _ ⟨⟩, by rintro _ ⟨⟩, by rintro _ ⟨⟩, by rintro _ ⟨⟩⟩, by simp⟩
  case decode => exact wrap h (by simp) decodeCommand_bounded
  case decodeRaw => exact wrap h (by simp) decodeCommand_bounded
  case hmac =>
    refine wrap h (by simp) fun h => ?_
    injection h with h
    subst h
    exact ⟨⟨by rintro _ ⟨⟩, by rintro _ ⟨⟩, by rintro _ ⟨⟩, by rintro _ ⟨⟩⟩, rfl⟩
  case trunc =>
    refine wrap h (by simp) fun h => ?_
    injection h with h
    subst h
    exact ⟨⟨by rintro _ ⟨⟩, by rintro _ ⟨⟩; exact ⟨_, rfl⟩, by rintro _ ⟨⟩, by rintro _ ⟨⟩⟩, rfl⟩
  case fmtDec => exact wrap h (by simp) fmtDecCommand_bounded
  case fmtSteam =>
    refine wrap h (by simp) fun h => ?_
    injection h with h
    subst h
    exact ⟨⟨by rintro _ ⟨⟩, by rintro _ ⟨⟩, by rintro _ ⟨⟩, by rintro _ ⟨⟩; rfl⟩, rfl⟩
  case hotp => exact wrap h (by simp) hotpCore_bounded
  case hotpRaw => exact wrap h (by simp) hotpCore_bounded
  case totp => exact wrap h (by simp) totpCommand_bounded
  case totpRaw => exact wrap h (by simp) totpCommand_bounded
  case steam => exact wrap h (by simp) steamCommand_bounded
  case steamRaw => exact wrap h (by simp) steamCommand_bounded

/-! ### The errors of a command, and the next state of one that succeeds -/

/-- No command reports OUT_OF_MEMORY or ILLEGAL_COMMAND (60_exceptions.md R406, R408). -/
theorem resultOf_error {i : Instr} {e : Engine} {x : ErrorCode} (h : resultOf i e = .error x) :
    x ≠ .outOfMemory ∧ x ≠ .illegalCommand := by
  have key {raw : Bool} {x : ErrorCode} (h : keyOfSecret raw e = .error x) :
      x ≠ .outOfMemory ∧ x ≠ .illegalCommand := by
    rw [keyOfSecret_eq] at h
    split at h
    · rw [(keyFrom_error h).2]; decide
    · injection h with h; rw [← h]; decide
  have hotp {raw : Bool} {c : DWord} {x : ErrorCode} (h : hotpCore raw c e = .error x) :
      x ≠ .outOfMemory ∧ x ≠ .illegalCommand := by
    rw [hotpCore_eq] at h
    split at h
    · split at h
      · injection h with h; rw [← h]; exact key (by assumption)
      · cases h
    · injection h with h; rw [← h]; decide
  have totp {raw : Bool} {x : ErrorCode} (h : totpCommand raw e = .error x) :
      x ≠ .outOfMemory ∧ x ≠ .illegalCommand := by
    rw [totpCommand_eq] at h
    split at h
    · injection h with h; rw [← h]; decide
    · exact hotp h
  have decodes {raw : Bool} {x : ErrorCode} (h : decodeCommand raw e = .error x) :
      x ≠ .outOfMemory ∧ x ≠ .illegalCommand := by
    rw [decodeCommand_eq] at h
    split at h
    · injection h with h; rw [← h]; exact key (by assumption)
    · cases h
  have steams {raw : Bool} {x : ErrorCode} (h : steamCommand raw e = .error x) :
      x ≠ .outOfMemory ∧ x ≠ .illegalCommand := by
    rw [steamCommand_eq] at h
    split at h
    · injection h with h; rw [← h]; exact key (by assumption)
    · cases h
  have wrap {r : Except ErrorCode Commit} (hg : gated e r = .error x)
      (f : r = .error x → x ≠ .outOfMemory ∧ x ≠ .illegalCommand) :
      x ≠ .outOfMemory ∧ x ≠ .illegalCommand := by
    unfold gated at hg
    split at hg
    · exact f hg
    · injection hg with hg; rw [← hg]; decide
  cases i
  case init => cases h
  case decode => exact wrap h decodes
  case decodeRaw => exact wrap h decodes
  case hmac => exact wrap h fun h => by cases h
  case trunc => exact wrap h fun h => by cases h
  case fmtDec =>
    refine wrap h fun h => ?_
    rw [fmtDecCommand_eq] at h
    split at h
    · cases h
    · injection h with h; rw [← h]; decide
  case fmtSteam => exact wrap h fun h => by cases h
  case hotp => exact wrap h hotp
  case hotpRaw => exact wrap h hotp
  case totp => exact wrap h totp
  case totpRaw => exact wrap h totp
  case steam => exact wrap h steams
  case steamRaw => exact wrap h steams

/-- The next state of a command whose `Exec` answers `Ok`. -/
theorem exec_of_ok {i : Instr} {s : State} {c : Commit} (h : resultOf i s.eng = .ok c) :
    exec i s = .next { s with eng := (c.apply s.eng).markSuccess } := by
  rw [exec_eq, h]
  rfl

/-- A command that ends with ERROR = 0 answered `Ok`. -/
theorem exec_ok_cases {i : Instr} {s t : State} (h : exec i s = .next t) (he : t.eng.error = false) :
    ∃ c, resultOf i s.eng = .ok c ∧ t = { s with eng := (c.apply s.eng).markSuccess } := by
  obtain rfl := exec_next h
  cases hr : resultOf i s.eng with
  | ok c => exact ⟨c, rfl, rfl⟩
  | error x => rw [hr] at he; cases he

/-- The commit set of a decimal generator. -/
theorem hotpCore_ok {raw : Bool} {k : DWord} {e : Engine} {c : Commit} (h : hotpCore raw k e = .ok c) :
    (1 ≤ e.digits.toNat ∧ e.digits.toNat ≤ 10) ∧
      ∃ key, keyOfSecret raw e = .ok key ∧ c = hotpCommit key k e.digits.toNat := by
  rw [hotpCore_eq] at h
  split_ifs at h with hd
  split at h
  · cases h
  · injection h with h
    exact ⟨hd, _, by assumption, h.symm⟩

/-- The commit set of TOTP is that of the decimal generator at the time step. -/
theorem totpCommand_ok {raw : Bool} {e : Engine} {c : Commit} (h : totpCommand raw e = .ok c) :
    e.period ≠ 0 ∧ hotpCore raw e.totpCounter e = .ok c := by
  rw [totpCommand_eq] at h
  split_ifs at h with hp
  exact ⟨hp, h⟩

/-- The commit set of DECODE. -/
theorem decodeCommand_ok {raw : Bool} {e : Engine} {c : Commit} (h : decodeCommand raw e = .ok c) :
    ∃ key, keyOfSecret raw e = .ok key ∧ c = { key := some key } := by
  rw [decodeCommand_eq] at h
  split at h
  · cases h
  · injection h with h
    exact ⟨_, by assumption, h.symm⟩

/-- The commit set of STEAM. -/
theorem steamCommand_ok {raw : Bool} {e : Engine} {c : Commit} (h : steamCommand raw e = .ok c) :
    ∃ key, keyOfSecret raw e = .ok key ∧ c = steamCommit key e.steamCounter := by
  rw [steamCommand_eq] at h
  split at h
  · cases h
  · injection h with h
    exact ⟨_, by assumption, h.symm⟩

/-! ### Changes of the engine that a completion does not see -/

theorem applyPart_comm {α : Type} {f : α → Engine → Engine} {g : Engine → Engine}
    (h : ∀ a e, f a (g e) = g (f a e)) (o : Option α) (e : Engine) :
    applyPart f o (g e) = g (applyPart f o e) := by
  cases o
  · rfl
  · exact h _ _

/-- A change of registers that no part of a commit set touches commutes with the completion. -/
theorem Engine.complete_comm {g : Engine → Engine} (hi : ∀ e, Engine.commitInit (g e) = g e.commitInit)
    (hk : ∀ a e, Engine.commitKey a (g e) = g (Engine.commitKey a e))
    (hh : ∀ a e, Engine.commitHmac a (g e) = g (Engine.commitHmac a e))
    (ht : ∀ a e, Engine.commitTrunc a (g e) = g (Engine.commitTrunc a e))
    (hd : ∀ a e, Engine.commitDec a (g e) = g (Engine.commitDec a e))
    (hs : ∀ a e, Engine.commitSteam a (g e) = g (Engine.commitSteam a e))
    (hm : ∀ e, Engine.markSuccess (g e) = g e.markSuccess) (c : Commit) (e : Engine) :
    (c.apply (g e)).markSuccess = g (c.apply e).markSuccess := by
  simp only [Commit.apply]
  rw [← hm, ← applyPart_comm hs, ← applyPart_comm hd, ← applyPart_comm ht, ← applyPart_comm hh,
    ← applyPart_comm hk]
  congr 6
  cases c.initialized
  · rfl
  · exact hi _

end Sys2Proof.Machine
end

