-- ==== Sys2Proof/Laws/Bus.lean ====
section
/-! SUPPORT. What the bus can do, said once. -/

namespace Sys2Proof.Machine

theorem Params.wf_iff (p : Params) :
    p.wf = true ↔ 32 ≤ p.secretMax ∧ p.secretMax ≤ 1024 ∧ p.secretMax % 4 = 0 := by
  simp [Params.wf, and_assoc]

/-- The register found at an offset has that offset. -/
theorem Reg.atOffset_some {a : Nat} {r : Reg} (h : Reg.atOffset a = some r) : r.offset = a := by
  simpa using List.find?_some h

/-- Every register is found at its offset. -/
@[simp] theorem Reg.atOffset_offset (r : Reg) : Reg.atOffset r.offset = some r := by
  cases r <;> decide

/-- Register offsets lie in the register regions, on multiples of 4. -/
theorem Reg.offset_range (r : Reg) : r.offset < 0x080 ∧ r.offset % 4 = 0 := by cases r <;> decide

/-- A buffer found for an access holds all of it. -/
theorem Buffer.atOffset_some {p : Params} {a n : Nat} {b : Buffer}
    (h : Buffer.atOffset p a n = some b) : b.base ≤ a ∧ a + n ≤ b.base + b.size p := by
  simpa using List.find?_some h

/-- With parameters in range, the buffers do not overlap: an access inside one finds that one. -/
theorem Buffer.atOffset_eq {p : Params} (hp : p.wf = true) {a n : Nat} {b : Buffer} (hn : 0 < n)
    (h : b.base ≤ a ∧ a + n ≤ b.base + b.size p) : Buffer.atOffset p a n = some b := by
  obtain ⟨-, hp, -⟩ := (Params.wf_iff p).1 hp
  cases b <;> simp only [Buffer.base, Buffer.size] at h <;>
    simp [Buffer.atOffset, Buffer.all, List.find?_cons, Buffer.base, Buffer.size] <;>
    grind

/-- Where an accepted access goes. -/
theorem locate_ok {p : Params} {off : Offset} {n : Nat} {t : Target} (h : locate p off n = .ok t) :
    (∃ r, t = .reg r ∧ n = 4 ∧ off.toNat = r.offset) ∨
    (∃ b, t = .buf b ∧ 0x080 ≤ off.toNat ∧ (n = 1 ∨ n = 4 ∧ off.toNat % 4 = 0) ∧
      Buffer.atOffset p off.toNat n = some b) := by
  unfold locate at h
  split at h
  · cases h
  · rename_i hw
    split at h
    · cases h
    · rename_i hal
      split at h
      · split at h
        · cases h
        · split at h
          · rename_i hr
            injection h with h
            exact .inl ⟨_, h.symm, by omega, (Reg.atOffset_some hr).symm⟩
          · cases h
      · split at h
        · rename_i hb
          injection h with h
          exact .inr ⟨_, h.symm, by omega, by omega, hb⟩
        · cases h

/-- An aligned 32-bit access at a register's offset goes to that register. -/
theorem locate_reg (p : Params) {off : Offset} {r : Reg} (h : off.toNat = r.offset) :
    locate p off 4 = .ok (.reg r) := by
  have hr := Reg.offset_range r
  unfold locate
  rw [if_neg (by omega), if_neg (by omega), if_pos (by omega), if_neg (by omega), h,
    Reg.atOffset_offset]

/-- An access of a legal width and alignment inside a buffer goes to that buffer. -/
theorem locate_buf {p : Params} (hp : p.wf = true) {off : Offset} {n : Nat} {b : Buffer}
    (hn : n = 1 ∨ n = 4 ∧ off.toNat % 4 = 0)
    (h : b.base ≤ off.toNat ∧ off.toNat + n ≤ b.base + b.size p) :
    locate p off n = .ok (.buf b) := by
  have hb : 0x080 ≤ off.toNat := by
    have : 0x080 ≤ b.base := by cases b <;> decide
    omega
  unfold locate
  rw [if_neg (by omega), if_neg (by omega), if_neg (by omega),
    Buffer.atOffset_eq hp (by omega) h]

/-- What an accepted write does: the engine is idle, and the write stores one register or bytes of
SECRET_BUF. -/
theorem busWrite_ok {e e' : Engine} {off : Offset} {n : Nat} {v : Word}
    (h : busWrite e off n v = .ok e') :
    e.busy = false ∧
      ((∃ r, n = 4 ∧ off.toNat = r.offset ∧ r.writable = true ∧ e' = e.writeReg v r) ∨
       ((n = 1 ∨ n = 4 ∧ off.toNat % 4 = 0) ∧ 0x400 ≤ off.toNat ∧
          off.toNat + n ≤ 0x400 + e.params.secretMax ∧ e' = e.writeBuffer off.toNat n v)) := by
  unfold busWrite at h
  split at h
  · cases h
  · rename_i t ht
    split at h
    · cases h
    · rename_i hw
      split at h
      · cases h
      · rename_i hb
        refine ⟨by simpa using hb, ?_⟩
        rcases locate_ok ht with ⟨r, rfl, hn, ho⟩ | ⟨b, rfl, -, hn, hbuf⟩
        · injection h with h
          exact .inl ⟨r, hn, ho, by simpa [Target.writable] using hw, h.symm⟩
        · injection h with h
          have hs : b = .secret := by
            cases b <;> simp_all [Target.writable, Buffer.writable]
          subst hs
          have := Buffer.atOffset_some hbuf
          simp only [Buffer.base, Buffer.size] at this
          exact .inr ⟨hn, this.1, this.2, h.symm⟩

/-- A pending engine accepts no write (20_memory.md R88). -/
theorem busWrite_of_busy {e : Engine} (h : e.busy = true) (off : Offset) (n : Nat) (v : Word) :
    ∃ f, busWrite e off n v = .error f := by
  cases hw : busWrite e off n v with
  | error f => exact ⟨f, rfl⟩
  | ok e' => rw [(busWrite_ok hw).1] at h; cases h

@[simp] theorem Engine.writeReg_params (e : Engine) (v : Word) (r : Reg) :
    (e.writeReg v r).params = e.params := by cases r <;> rfl

@[simp] theorem Engine.writeReg_mem (e : Engine) (v : Word) (r : Reg) :
    (e.writeReg v r).mem = e.mem := by cases r <;> rfl

@[simp] theorem Engine.writeReg_initialized (e : Engine) (v : Word) (r : Reg) :
    (e.writeReg v r).initialized = e.initialized := by cases r <;> rfl

/-- A register write changes no result register. -/
theorem Engine.writeReg_results (e : Engine) (v : Word) (r : Reg) :
    (e.writeReg v r).keyLen = e.keyLen ∧ (e.writeReg v r).truncOffset = e.truncOffset ∧
    (e.writeReg v r).ctrOutLo = e.ctrOutLo ∧ (e.writeReg v r).ctrOutHi = e.ctrOutHi ∧
    (e.writeReg v r).digest = e.digest ∧ (e.writeReg v r).dbcRaw = e.dbcRaw ∧
    (e.writeReg v r).dbc = e.dbc ∧ (e.writeReg v r).decValue = e.decValue ∧
    (e.writeReg v r).decLen = e.decLen := by
  cases r <;> exact ⟨rfl, rfl, rfl, rfl, rfl, rfl, rfl, rfl, rfl⟩

@[simp] theorem length_leBytes (n : Nat) (v : Word) : (leBytes n v).length = n := by simp [leBytes]

end Sys2Proof.Machine
end

