-- ==== Sys2Proof/Laws/Format.lean ====
section
/-! SUPPORT. The output stages and the words made of bytes: lengths, single characters, and the code of a
digest; and what each byte of the buffers reads as after a commit set. -/

namespace Sys2Proof.Machine

/-! ### Words made of bytes -/

/-- A byte appended at the low end. -/
theorem toNat_append_byte {n : Nat} (x : BitVec n) (y : Byte) :
    (x ++ y).toNat = x.toNat * 256 + y.toNat := by
  rw [BitVec.toNat_append, ← Nat.shiftLeft_add_eq_or_of_lt y.isLt, Nat.shiftLeft_eq]

theorem le32_toNat (b0 b1 b2 b3 : Byte) :
    (le32 b0 b1 b2 b3).toNat =
      b0.toNat + b1.toNat * 2 ^ 8 + b2.toNat * 2 ^ 16 + b3.toNat * 2 ^ 24 := by
  simp only [le32, toNat_append_byte]; omega

theorem be32_toNat (b0 b1 b2 b3 : Byte) :
    (be32 b0 b1 b2 b3).toNat =
      b0.toNat * 2 ^ 24 + b1.toNat * 2 ^ 16 + b2.toNat * 2 ^ 8 + b3.toNat := by
  simp only [be32, toNat_append_byte]; omega

@[simp] theorem length_beBytes (w : Word) : (beBytes w).length = 4 := by simp [beBytes]

@[simp] theorem length_be64 (c : DWord) : (be64 c).length = 8 := by simp [be64]

@[simp] theorem Digest.length_bytes (d : Digest) : d.bytes.length = 20 := by simp [Digest.bytes]

/-! ### The blocks of HMAC -/

/-- K0 is a whole block (42_hmac_sha1.md R208). -/
@[simp] theorem length_hmacKeyBlock (key : List Byte) : (hmacKeyBlock key).length = 64 := by
  refine length_padTo ?_
  split
  · simp
  · omega

/-- The bytes of K0: those of the key or of its digest, then 0x00 (42_hmac_sha1.md R208). -/
theorem getD_hmacKeyBlock (key : List Byte) (i : Nat) :
    (hmacKeyBlock key).getD i 0x00 =
      (if key.length > 64 then (sha1 key).bytes else key).getD i 0x00 := getD_padTo _ _ _

@[simp] theorem length_xorPad (pad : Byte) (block : List Byte) :
    (xorPad pad block).length = block.length := by simp [xorPad]

/-- A byte of a padded block is the block's exclusive-or the pad (42_hmac_sha1.md R209). -/
theorem getD_xorPad (pad : Byte) {block : List Byte} {i : Nat} (h : i < block.length) :
    (xorPad pad block).getD i 0x00 = block.getD i 0x00 ^^^ pad := by
  simp [xorPad, List.getD, h]

/-! ### The decimal and the Steam output stage -/

@[simp] theorem length_fmtDec_chars (v n : Nat) : (fmtDec v n).chars.length = n := by simp [fmtDec]

/-- The characters of the decimal code, 0x00 past the last (44_hotp_decimal.md R260). -/
theorem getD_fmtDec_chars (v n i : Nat) : (fmtDec v n).chars.getD i 0x00 = decimalChar v n i := by
  unfold decimalChar
  split
  · simp [fmtDec, List.getD, *]
  · simp only [List.getD_eq_getElem?_getD]
    rw [List.getElem?_eq_none (by simp; omega)]
    rfl

@[simp] theorem length_steamDigits (n v : Nat) : (steamDigits n v).length = n := by
  induction n generalizing v with
  | zero => rfl
  | succ n ih => simp [steamDigits, ih]

@[simp] theorem length_fmtSteam (v : Nat) : (fmtSteam v).length = 5 := length_steamDigits 5 v

theorem getD_steamDigits (n v i : Nat) :
    (steamDigits n v).getD i 0x00 = if i < n then steamAlphabet.getD (v / 26 ^ i % 26) 0x00 else 0x00 := by
  induction n generalizing v i with
  | zero => simp [steamDigits]
  | succ n ih =>
    cases i with
    | zero => simp [steamDigits]
    | succ i =>
      rw [steamDigits, List.getD_cons_succ, ih, Nat.pow_succ', Nat.div_div_eq_div_mul]
      simp only [Nat.add_lt_add_iff_right]

/-- The symbols of the Steam code, 0x00 past the last (46_steam.md R312). -/
theorem getD_fmtSteam (v i : Nat) : (fmtSteam v).getD i 0x00 = steamChar v i := getD_steamDigits 5 v i

/-- A remainder modulo 26 selects a symbol of the alphabet. -/
theorem steamAlphabet_getD_mem {k : Nat} (h : k < 26) : steamAlphabet.getD k 0x00 ∈ steamAlphabet := by
  revert k; decide

/-! ### The code of a digest -/

/-- The offset register's value, from either view of the digest (43_truncation.md R241). -/
theorem truncate_offset (d : Digest) : (truncate d.bytes).offset.setWidth 32 = d.h4 &&& 0xF := by
  apply BitVec.eq_of_getLsbD_eq
  intro i hi
  simp only [truncate, truncOffsetOf, Digest.bytes, beBytes]
  simp [List.range_succ, BitVec.getLsbD_setWidth, BitVec.getLsbD_extractLsb']
  by_cases h : i < 4
  · simp [h]
    have : i = 0 ∨ i = 1 ∨ i = 2 ∨ i = 3 := by omega
    rcases this with rfl | rfl | rfl | rfl <;> simp
  · have : (15#32).getLsbD i = false := by
      revert i; decide
    simp [h, this]

/-- A run of bits of a run of bits. -/
theorem extractLsb'_extractLsb' {w : Nat} (x : BitVec w) {a b m n : Nat} (h : b + n ≤ m) :
    (x.extractLsb' a m).extractLsb' b n = x.extractLsb' (a + b) n := by
  apply BitVec.eq_of_getLsbD_eq
  intro i hi
  simp only [BitVec.getLsbD_extractLsb', Nat.add_assoc, hi, show b + i < m by omega]
  simp

/-- The words of a digest, as bits of its 160-bit number. -/
theorem Digest.value_words (d : Digest) :
    d.h0 = d.value.extractLsb' 128 32 ∧ d.h1 = d.value.extractLsb' 96 32 ∧
    d.h2 = d.value.extractLsb' 64 32 ∧ d.h3 = d.value.extractLsb' 32 32 ∧
    d.h4 = d.value.extractLsb' 0 32 := by
  refine ⟨?_, ?_, ?_, ?_, ?_⟩ <;>
  · apply BitVec.eq_of_getLsbD_eq
    intro i hi
    simp only [Digest.value, BitVec.getLsbD_extractLsb', BitVec.getLsbD_append]
    grind

/-- Byte `i` of a digest, as bits of its 160-bit number (10_state.md R48). -/
theorem Digest.getD_bytes (d : Digest) {i : Nat} (h : i < 20) :
    d.bytes.getD i 0 = d.value.extractLsb' (152 - 8 * i) 8 := by
  obtain ⟨e0, e1, e2, e3, e4⟩ := d.value_words
  have hb (w : Word) (j : Nat) (hj : j < 4) : (beBytes w)[j]? = some (w.extractLsb' (24 - 8 * j) 8) := by
    simp [beBytes, hj]
  simp only [List.getD_eq_getElem?_getD, Digest.bytes, List.getElem?_append, List.length_append,
    length_beBytes]
  split_ifs
  · rw [hb _ _ (by omega), e0, Option.getD_some, extractLsb'_extractLsb' _ (by omega)]; congr 1; omega
  · rw [hb _ _ (by omega), e1, Option.getD_some, extractLsb'_extractLsb' _ (by omega)]; congr 1; omega
  · rw [hb _ _ (by omega), e2, Option.getD_some, extractLsb'_extractLsb' _ (by omega)]; congr 1; omega
  · rw [hb _ _ (by omega), e3, Option.getD_some, extractLsb'_extractLsb' _ (by omega)]; congr 1; omega
  · rw [hb _ _ (by omega), e4, Option.getD_some, extractLsb'_extractLsb' _ (by omega)]; congr 1; omega

/-- Two runs of bits that follow each other. -/
theorem extractLsb'_append_byte {w : Nat} (x : BitVec w) {a b n : Nat} (h : b = a + 8) :
    x.extractLsb' b n ++ x.extractLsb' a 8 = x.extractLsb' a (n + 8) := by
  apply BitVec.eq_of_getLsbD_eq
  intro i hi
  simp only [BitVec.getLsbD_append, BitVec.getLsbD_extractLsb', hi]
  by_cases h8 : i < 8
  · simp [h8]
  · simp [h8, show i - 8 < n by omega, h, show a + 8 + (i - 8) = a + i by omega]

/-- The window at an offset, as bits of the 160-bit number (43_truncation.md R242, R243). -/
theorem truncWindow_bytes (d : Digest) {o : Nat} (h : o ≤ 16) :
    truncWindow d.bytes o = d.value.extractLsb' (128 - 8 * o) 32 := by
  rw [truncWindow, d.getD_bytes (by omega), d.getD_bytes (by omega), d.getD_bytes (by omega),
    d.getD_bytes (by omega), be32, extractLsb'_append_byte _ (by omega), extractLsb'_append_byte _ (by omega),
    extractLsb'_append_byte _ (by omega)]
  congr 1
  omega

/-- The offset, from either view of the digest, is at most 15. -/
theorem Digest.codeOffset_eq (d : Digest) :
    (truncate d.bytes).offset.toNat = d.codeOffset ∧ d.codeOffset < 16 := by
  rw [Digest.codeOffset, ← truncate_offset]
  have := (truncate d.bytes).offset.isLt
  rw [BitVec.toNat_setWidth, Nat.mod_eq_of_lt (by omega)]
  exact ⟨rfl, this⟩

/-- `Truncate` from the digest's 160-bit number (43_truncation.md R244). -/
theorem truncate_eq (d : Digest) :
    (truncate d.bytes).raw = d.window ∧ (truncate d.bytes).dbc = d.code := by
  have h : (truncate d.bytes).raw = d.window := by
    obtain ⟨h1, h2⟩ := d.codeOffset_eq
    rw [Digest.window, ← truncWindow_bytes d (by omega), ← h1]
    rfl
  exact ⟨h, by rw [Digest.code, ← h]; rfl⟩

/-! ### The key -/

/-- What the key source answers for a legal length and a key. -/
theorem keyOfSecret_of_hasKey {e : Engine} {raw : Bool} {key : List Byte} (h : e.HasKey raw key) :
    keyOfSecret raw e = .ok key ∧ key.length ≤ e.params.secretMax := by
  obtain ⟨hl, hk⟩ := h
  have : keyOfSecret raw e = .ok key := by
    rw [keyOfSecret_eq, if_pos hl]
    cases raw
    · simpa [keyFrom] using hk
    · simpa [keyFrom] using hk.symm
  exact ⟨this, (keyOfSecret_ok this).2.2⟩

/-! ### The buffers after a commit set -/

/-- What a byte of the window reads as after a commit set is applied. -/
theorem Commit.read_apply {c : Commit} {e : Engine} (hb : c.Bounded e) (hm : Memory.wf e.mem)
    (a : Nat) :
    Memory.read (c.apply e).mem a =
      if (0x090 ≤ a ∧ a < 0x098) ∧ c.steam.isSome then (c.steam.getD []).getD (a - 0x090) 0x00
      else if (0x080 ≤ a ∧ a < 0x090) ∧ c.dec.isSome then
        ((c.dec.map DecResult.chars).getD []).getD (a - 0x080) 0x00
      else if (0x800 ≤ a ∧ a < 0x800 + e.params.secretMax) ∧ c.key.isSome then
        (c.key.getD []).getD (a - 0x800) 0x00
      else Memory.read e.mem a := by
  have hs : ∀ s, c.steam = some s → s.length ≤ 8 := by
    intro s h
    obtain rfl := hb.steam s h
    simp
  have hd : ∀ s, c.dec.map DecResult.chars = some s → s.length ≤ 16 := by
    intro s h
    obtain ⟨r, hr, rfl⟩ := Option.map_eq_some_iff.1 h
    obtain ⟨v, n, rfl, -, hn, -⟩ := hb.dec r hr
    simp; omega
  rw [Commit.apply_mem, read_storePart (wf_storePart (wf_storePart hm _ _ _) _ _ _) hs,
    read_storePart (wf_storePart hm _ _ _) hd, read_storePart hm hb.key]
  cases c.steam <;> cases c.dec <;> cases c.key <;> simp

end Sys2Proof.Machine
end

