-- ==== Sys2Proof/Laws/PerInstr.lean ====
section
/-! SUPPORT. One statement per command, about the command as syntax: its word is legal and decodes to it
(30_encoding.md R112, R115). -/

/-- The fields of the command's word are well formed, and the decoder reads the command from it. -/
def Sys2Proof.Laws.RoundTrip.Statement (i : Sys2Proof.Instr) : Prop :=
  (Sys2Proof.CommandFields.ofWord (Sys2Proof.encode i)).wf = true ∧
    Sys2Proof.decode (Sys2Proof.encode i) = .ok i

theorem Sys2Proof.Laws.RoundTrip.init : Sys2Proof.Laws.RoundTrip.Statement .init := ⟨by decide, rfl⟩
theorem Sys2Proof.Laws.RoundTrip.decode : Sys2Proof.Laws.RoundTrip.Statement .decode := ⟨by decide, rfl⟩
theorem Sys2Proof.Laws.RoundTrip.decodeRaw : Sys2Proof.Laws.RoundTrip.Statement .decodeRaw := ⟨by decide, rfl⟩
theorem Sys2Proof.Laws.RoundTrip.hmac : Sys2Proof.Laws.RoundTrip.Statement .hmac := ⟨by decide, rfl⟩
theorem Sys2Proof.Laws.RoundTrip.trunc : Sys2Proof.Laws.RoundTrip.Statement .trunc := ⟨by decide, rfl⟩
theorem Sys2Proof.Laws.RoundTrip.fmtDec : Sys2Proof.Laws.RoundTrip.Statement .fmtDec := ⟨by decide, rfl⟩
theorem Sys2Proof.Laws.RoundTrip.fmtSteam : Sys2Proof.Laws.RoundTrip.Statement .fmtSteam := ⟨by decide, rfl⟩
theorem Sys2Proof.Laws.RoundTrip.hotp : Sys2Proof.Laws.RoundTrip.Statement .hotp := ⟨by decide, rfl⟩
theorem Sys2Proof.Laws.RoundTrip.hotpRaw : Sys2Proof.Laws.RoundTrip.Statement .hotpRaw := ⟨by decide, rfl⟩
theorem Sys2Proof.Laws.RoundTrip.totp : Sys2Proof.Laws.RoundTrip.Statement .totp := ⟨by decide, rfl⟩
theorem Sys2Proof.Laws.RoundTrip.totpRaw : Sys2Proof.Laws.RoundTrip.Statement .totpRaw := ⟨by decide, rfl⟩
theorem Sys2Proof.Laws.RoundTrip.steam : Sys2Proof.Laws.RoundTrip.Statement .steam := ⟨by decide, rfl⟩
theorem Sys2Proof.Laws.RoundTrip.steamRaw : Sys2Proof.Laws.RoundTrip.Statement .steamRaw := ⟨by decide, rfl⟩
end

