-- ==== Sys2Proof/Laws/Step.lean ====
section
/-! SUPPORT. What one event can do, said once: every invariant of the machine is a case analysis over
these lemmas. -/

namespace Sys2Proof.Machine

/-- The state after the next event is taken from the schedule. -/
theorem State.takeTurn_snd (s : State) :
    s.takeTurn.2 = { s with schedule := s.schedule.tail } := by
  obtain ⟨e, h, _ | ⟨t, ts⟩⟩ := s <;> rfl

/-- Whose event is next. -/
theorem State.takeTurn_fst (s : State) :
    s.takeTurn.1 = s.schedule.head?.getD (if s.eng.busy then .engine else .host) := by
  obtain ⟨e, h, _ | ⟨t, ts⟩⟩ := s <;> rfl

/-- What an event of the host can do: nothing, finish a line with the engine untouched, or finish a line
whose write the bus accepted. -/
theorem hostTurn_cases (s : State) :
    hostTurn s = s ∨
    (∃ r, s.host.pos < s.host.program.length ∧ hostTurn s = s.finishLine r) ∨
    (∃ off n v e, s.host.program[s.host.pos]? = some (.write off n v) ∧
      busWrite s.eng off n v = .ok e ∧
      hostTurn s = State.finishLine .ok { s with eng := e }) := by
  unfold hostTurn
  split
  · exact .inl rfl
  · rename_i h
    exact .inr (.inl ⟨_, (List.getElem?_eq_some_iff.1 h).1, rfl⟩)
  · rename_i off n v h
    split
    · rename_i e he
      exact .inr (.inr ⟨off, n, v, e, h, he, rfl⟩)
    · exact .inr (.inl ⟨_, (List.getElem?_eq_some_iff.1 h).1, rfl⟩)
  · rename_i h
    split
    · exact .inr (.inl ⟨_, (List.getElem?_eq_some_iff.1 h).1, rfl⟩)
    · exact .inl rfl

/-- While a command is pending, no event of the host touches the engine (20_memory.md R88, R89). -/
theorem hostTurn_eng_of_busy {s : State} (h : s.eng.busy = true) : (hostTurn s).eng = s.eng := by
  rcases hostTurn_cases s with e | ⟨r, -, e⟩ | ⟨off, n, v, e', -, hw, -⟩
  · rw [e]
  · rw [e]; rfl
  · obtain ⟨f, hf⟩ := busWrite_of_busy h off n v
    rw [hf] at hw
    cases hw

/-- An event of the host leaves the schedule and the program. -/
theorem hostTurn_frame (s : State) :
    (hostTurn s).schedule = s.schedule ∧ (hostTurn s).host.program = s.host.program := by
  rcases hostTurn_cases s with e | ⟨r, -, e⟩ | ⟨off, n, v, e', -, -, e⟩ <;> rw [e] <;> exact ⟨rfl, rfl⟩

/-- The result of the completion step, from the pending word (40_command_control.md R144). -/
def pendingResult (e : Engine) : Except ErrorCode Commit :=
  match decode e.cmd with
  | .ok i => resultOf i e
  | .error _ => .error .illegalCommand

/-- What an event of the engine does. -/
theorem engineTurn_eq (s : State) :
    engineTurn s =
      .next (if s.eng.busy then { s with eng := s.eng.complete (pendingResult s.eng) } else s) := by
  unfold engineTurn pendingResult
  cases s.eng.busy
  · rfl
  · simp only [if_true]
    cases decode s.eng.cmd
    · rfl
    · simp only [exec_eq]
      rfl

/-- What one step can do. -/
theorem step_cases {s t : State} (h : step s = .next t) :
    (s.takeTurn.1 = .host ∧ t = hostTurn s.takeTurn.2) ∨
    (s.takeTurn.1 = .engine ∧ s.eng.busy = false ∧ t = s.takeTurn.2) ∨
    (s.takeTurn.1 = .engine ∧ s.eng.busy = true ∧
      t = { s.takeTurn.2 with eng := s.eng.complete (pendingResult s.eng) }) ∨
    (s.takeTurn.1 = .reset ∧ t = platformReset s.takeTurn.2) := by
  unfold step at h
  split at h
  · rename_i s' hs
    injection h with h
    exact .inl (by rw [hs]; exact ⟨rfl, h.symm⟩)
  · rename_i s' hs
    have he : s'.eng = s.eng := by
      have := State.takeTurn_snd s
      rw [hs] at this
      have hE := congrArg State.eng this
      exact hE
    rw [engineTurn_eq, he] at h
    injection h with h
    refine .inr ?_
    cases hb : s.eng.busy
    · refine .inl ?_
      rw [hb] at h
      rw [hs]
      exact ⟨rfl, rfl, h.symm⟩
    · refine .inr (.inl ?_)
      rw [hb] at h
      rw [hs]
      exact ⟨rfl, rfl, h.symm⟩
  · rename_i s' hs
    injection h with h
    exact .inr (.inr (.inr (by rw [hs]; exact ⟨rfl, h.symm⟩)))

/-- What a commit set of a pending command meets. -/
theorem pendingResult_bounded {e : Engine} {c : Commit} (h : pendingResult e = .ok c) :
    c.Bounded e ∧ (c.initialized = true ↔ decode e.cmd = .ok .init) := by
  unfold pendingResult at h
  split at h
  · rename_i i hi
    obtain ⟨hb, hc⟩ := resultOf_bounded h
    exact ⟨hb, by rw [hc, hi]; simp⟩
  · cases h

/-- The errors of a pending command. -/
theorem pendingResult_error {e : Engine} {x : ErrorCode} (h : pendingResult e = .error x) :
    x ≠ .outOfMemory := by
  unfold pendingResult at h
  split at h
  · exact (resultOf_error h).1
  · injection h with h
    rw [← h]
    decide

/-- What a step answers, by whose event it is. -/
theorem step_eq (s : State) :
    step s = .next
      (match s.takeTurn with
       | (.host, s') => hostTurn s'
       | (.engine, s') =>
         if s'.eng.busy then { s' with eng := s'.eng.complete (pendingResult s'.eng) } else s'
       | (.reset, s') => platformReset s') := by
  unfold step
  rcases s.takeTurn with ⟨_ | _ | _, s'⟩
  · rfl
  · exact engineTurn_eq s'
  · rfl

/-- The first of several steps. -/
theorem core_run_succ {s t : State} (h : step s = .next t) (k : Nat) :
    core.run (k + 1) s = core.run k t := by
  have h' : core.step s = .next t := h
  simp only [Host.Core.run, h']

/-- The last of several steps. -/
theorem core_run_snoc {k : Nat} {s t : State} (h : core.run k s = .next t) :
    core.run (k + 1) s = step t := by
  induction k generalizing s with
  | zero =>
    injection h with h
    subst h
    rw [core_run_succ (step_eq s), step_eq s]
    rfl
  | succ k ih =>
    rw [core_run_succ (step_eq s)] at h ⊢
    exact ih h

/-- The DONE bit of the STATUS word (10_state.md R34). -/
theorem statusWord_done (e : Engine) : e.statusWord.getLsbD 1 = e.done := by
  unfold Engine.statusWord
  simp only [BitVec.getLsbD_append]
  cases e.done <;> cases e.busy <;> simp

end Sys2Proof.Machine
end

