-- ==== Sys2Proof/Tests/Slice0.lean ====
section
/-! SUPPORT. The model's own tests: the checks of WellFormed, one word per command, single steps against the
vectors of spec/95_test_vectors.md, and a witness for each statement that has hypotheses. -/

namespace Sys2Proof.Tests

open Sys2Proof Sys2Proof.Machine

/-! ### Fixtures -/

/-- An initialized engine, idle, at the default parameters. -/
def engine : Engine := { Engine.reset Params.default with initialized := true }

/-- The engine with a secret in SECRET_BUF and its length in SECRET_LEN. -/
def load (text : List Byte) (e : Engine) : Engine :=
  { e with secretLen := BitVec.ofNat 32 text.length, mem := Memory.writeBytes e.mem 0x400 text }

/-- The reset state with another engine. -/
def state (e : Engine) : State := { State.reset with eng := e }

/-- The state with a host program, at its line 0. -/
def withLines (ls : List HostLine) (s : State) : State :=
  { s with host := { program := ls, pos := 0, results := [] } }

/-- The engine after a command. -/
def ran (i : Instr) (e : Engine) : Engine :=
  match exec i (state e) with
  | .next t => t.eng
  | .fault _ => e
  | .refused _ => e

/-- The state after a command. -/
def after (i : Instr) (s : State) : State := { s with eng := s.eng.complete (resultOf i s.eng) }

theorem exec_after (i : Instr) (s : State) : exec i s = .next (after i s) := exec_eq i s

/-- The state after a step. -/
def stepped (s : State) : State :=
  match step s with
  | .next t => t
  | .fault _ => s
  | .refused _ => s

theorem step_stepped (s : State) : step s = .next (stepped s) := by
  unfold stepped
  rw [step_eq]

/-- The source's base32 secret `S` (95_test_vectors.md, conventions): "GM4VC2CQN5UGS33ZJJVWYUSFMQ4HOQJW". -/
def secretS : List Byte :=
  [ 0x47, 0x4D, 0x34, 0x56, 0x43, 0x32, 0x43, 0x51, 0x4E, 0x35, 0x55, 0x47, 0x53, 0x33, 0x33, 0x5A,
    0x4A, 0x4A, 0x56, 0x57, 0x59, 0x55, 0x53, 0x46, 0x4D, 0x51, 0x34, 0x48, 0x4F, 0x51, 0x4A, 0x57 ]

/-- The key `RFC`, "12345678901234567890". -/
def keyRfc : List Byte :=
  [ 0x31, 0x32, 0x33, 0x34, 0x35, 0x36, 0x37, 0x38, 0x39, 0x30,
    0x31, 0x32, 0x33, 0x34, 0x35, 0x36, 0x37, 0x38, 0x39, 0x30 ]

/-- "MZXW6YTBOI", the base32 form of "foobar". -/
def textFoobar : List Byte := [0x4D, 0x5A, 0x58, 0x57, 0x36, 0x59, 0x54, 0x42, 0x4F, 0x49]

def keyFoobar : List Byte := [0x66, 0x6F, 0x6F, 0x62, 0x61, 0x72]

/-! ### Well-formedness: an ill-formed term for each check -/

theorem test_params_default_wf : Params.default.wf = true := by decide
theorem test_params_too_small : ({ secretMax := 28, engineBase := 0 } : Params).wf = false := by decide
theorem test_params_too_large : ({ secretMax := 1028, engineBase := 0 } : Params).wf = false := by decide
theorem test_params_not_multiple : ({ secretMax := 34, engineBase := 0 } : Params).wf = false := by decide
theorem test_params_bounds : ({ secretMax := 32, engineBase := 0 } : Params).wf = true ∧
    ({ secretMax := 1024, engineBase := 0 } : Params).wf = true := by decide

theorem test_fields_reserved : (CommandFields.mk 0x20 false 1).wf = false := by decide
theorem test_fields_unassigned : (CommandFields.mk 0x23 false 0).wf = false := by decide
theorem test_fields_rawkey : (CommandFields.mk 0x11 true 0).wf = false := by decide
theorem test_fields_legal : (CommandFields.mk 0x22 true 0).wf = true := by decide

/-! ### Decode: RSVD, RAWKEY and OPCODE, bit by bit (30_encoding.md R110, R112) -/

theorem test_word_init : decode 0b00000000000000000000000_0_00000001 = .ok .init := by decide
theorem test_word_decode : decode 0b00000000000000000000000_0_00010000 = .ok .decode := by decide
theorem test_word_decodeRaw : decode 0b00000000000000000000000_1_00010000 = .ok .decodeRaw := by decide
theorem test_word_hmac : decode 0b00000000000000000000000_0_00010001 = .ok .hmac := by decide
theorem test_word_trunc : decode 0b00000000000000000000000_0_00010010 = .ok .trunc := by decide
theorem test_word_fmtDec : decode 0b00000000000000000000000_0_00010011 = .ok .fmtDec := by decide
theorem test_word_fmtSteam : decode 0b00000000000000000000000_0_00010100 = .ok .fmtSteam := by decide
theorem test_word_hotp : decode 0b00000000000000000000000_0_00100000 = .ok .hotp := by decide
theorem test_word_hotpRaw : decode 0b00000000000000000000000_1_00100000 = .ok .hotpRaw := by decide
theorem test_word_totp : decode 0b00000000000000000000000_0_00100001 = .ok .totp := by decide
theorem test_word_totpRaw : decode 0b00000000000000000000000_1_00100001 = .ok .totpRaw := by decide
theorem test_word_steam : decode 0b00000000000000000000000_0_00100010 = .ok .steam := by decide
theorem test_word_steamRaw : decode 0b00000000000000000000000_1_00100010 = .ok .steamRaw := by decide

/-- 30_encoding.md R116: CMD's reset value is an illegal word. -/
theorem test_word_zero : decode 0x00000000 = .error .unassignedOpcode := by decide
theorem test_word_reserved : decode 0x00000220 = .error .reservedBits := by decide
theorem test_word_raw_trunc : decode 0x00000112 = .error .rawkeyNotAllowed := by decide

theorem test_table_word : decodeTableWord 32 0x00000121 = some .totpRaw := by decide
theorem test_fetch_word :
    (stepped (State.reset.withFetchWord 32 0x00000001)).eng.statusWord = 0x0000000A := by decide

/-! ### Commands: one step each, against the vectors -/

/-- 40_command_control.md R148: after reset, INIT leaves STATUS = 0x0000000A. -/
theorem test_init : (ran .init (Engine.reset Params.default)).statusWord = 0x0000000A := by decide

/-- V-B32-17, and the tail of KEY_BUF is 0x00 (R188). -/
theorem test_decode : (ran .decode (load textFoobar engine)).keyLen = 6 ∧
    (ran .decode (load textFoobar engine)).bufferBytes .key 8 = keyFoobar ++ [0x00, 0x00] := by
  decide +kernel

/-- V-B32-32: a '1' is no symbol; STATUS reads 0x0000010E. -/
theorem test_decode_invalid :
    (ran .decode (load [0x4D, 0x5A, 0x58, 0x57, 0x31] engine)).statusWord = 0x0000010E := by
  decide +kernel

/-- 41_base32.md R186: DECODE.raw copies any bytes. -/
theorem test_decodeRaw : (ran .decodeRaw (load [0x21, 0xFF, 0x3D] engine)).keyLen = 3 ∧
    (ran .decodeRaw (load [0x21, 0xFF, 0x3D] engine)).bufferBytes .key 4 = [0x21, 0xFF, 0x3D, 0x00] := by
  decide +kernel

/-- 41_base32.md R187: SECRET_LEN above SECRET_MAX; STATUS reads 0x0000060E. -/
theorem test_decodeRaw_length :
    (ran .decodeRaw { engine with secretLen := 257 }).statusWord = 0x0000060E := by decide

/-- V-HMAC-2: the empty key and COUNTER = 0. -/
theorem test_hmac : (ran .hmac engine).digest =
    { h0 := 0xDAB69AD9, h1 := 0x8E28764F, h2 := 0x977EE248, h3 := 0x7E4F3F68, h4 := 0x73B2A297 } := by
  decide +kernel

/-- V-RFC-TR: offset 10, DBC 0x50EF7F19. -/
theorem test_trunc :
    let e := ran .trunc { engine with digest :=
      { h0 := 0x1f869869, h1 := 0x0e02ca16, h2 := 0x618550ef, h3 := 0x7f19da8e, h4 := 0x945b555a } }
    e.truncOffset = 10 ∧ e.dbcRaw = 0x50EF7F19 ∧ e.dbc = 0x50EF7F19 := by decide +kernel

/-- V-TR-13: offset 15 takes bytes 15 to 18, and bit 31 is cleared in DBC alone. -/
theorem test_trunc_last_window :
    let e := ran .trunc { engine with digest :=
      { h0 := 0x43975db5, h1 := 0xa2bdf93d, h2 := 0xe4aa7a1f, h3 := 0x657bea8f, h4 := 0xc6dbb6af } }
    e.truncOffset = 15 ∧ e.dbcRaw = 0x8FC6DBB6 ∧ e.dbc = 0x0FC6DBB6 := by decide +kernel

/-- 44_hotp_decimal.md R265: DBC = 0x50EF7F19 and DIGITS = 6 give "872921". -/
theorem test_fmtDec :
    let e := ran .fmtDec { engine with dbc := 0x50EF7F19 }
    e.decValue = 872921 ∧ e.decLen = 6 ∧
      e.bufferBytes .dec 8 = [0x38, 0x37, 0x32, 0x39, 0x32, 0x31, 0x00, 0x00] := by decide +kernel

/-- 44_hotp_decimal.md R265: DBC = 0x7FFFFFFF and DIGITS = 10 give "2147483647". -/
theorem test_fmtDec_ten_digits :
    (ran .fmtDec { engine with dbc := 0x7FFFFFFF, digits := 10 }).bufferBytes .dec 11 =
      [0x32, 0x31, 0x34, 0x37, 0x34, 0x38, 0x33, 0x36, 0x34, 0x37, 0x00] := by decide +kernel

/-- V-ST-14: DBC = 0x7FFFFFFF gives "WXPBQ". -/
theorem test_fmtSteam : (ran .fmtSteam { engine with dbc := 0x7FFFFFFF }).bufferBytes .steam 8 =
    [0x57, 0x58, 0x50, 0x42, 0x51, 0x00, 0x00, 0x00] := by decide +kernel

/-- V-SRC-1R: HOTP.raw on the characters of `S`, COUNTER = 1662681600, gives "886679". -/
theorem test_hotpRaw :
    (ran .hotpRaw (load secretS { engine with counterLo := 0x631A8200 })).bufferBytes .dec 6 =
      [0x38, 0x38, 0x36, 0x36, 0x37, 0x39] := by decide +kernel

/-- V-SRC-4: DIGITS = 0; STATUS reads 0x0000020E. -/
theorem test_hotp_digits :
    (ran .hotp (load secretS { engine with digits := 0 })).statusWord = 0x0000020E := by decide +kernel

/-- V-SRC-1: HOTP on `S` decoded, COUNTER = 1662681600, gives the window 0xF29B3DB6. -/
theorem test_hotp :
    (ran .hotp (load secretS { engine with counterLo := 0x631A8200 })).dbcRaw = 0xF29B3DB6 := by
  decide +kernel

/-- V-SRC-2: TIME = 1662681600, PERIOD = 30, DIGITS = 6 gives CTR_OUT = 55422720 and "473526". -/
theorem test_totp :
    let e := ran .totp (load secretS { engine with timeLo := 1662681600 })
    e.ctrOut = 55422720 ∧ e.bufferBytes .dec 6 = [0x34, 0x37, 0x33, 0x35, 0x32, 0x36] := by
  decide +kernel

/-- V-SRC-5: PERIOD = 0; STATUS reads 0x0000030E, also with DIGITS = 0 (R292). -/
theorem test_totp_period :
    (ran .totp (load secretS { engine with period := 0, digits := 0 })).statusWord = 0x0000030E := by
  decide +kernel

/-- V-RFC-T2: the key `RFC`, TIME = 1111111109, DIGITS = 8 gives 07081804. -/
theorem test_totpRaw :
    (ran .totpRaw (load keyRfc { engine with timeLo := 1111111109, digits := 8 })).decValue = 7081804 := by
  decide +kernel

/-- V-ST-21: STEAM on `S` gives "4PRPM", whatever DIGITS and PERIOD hold. -/
theorem test_steam :
    (ran .steam (load secretS { engine with timeLo := 1662681600, digits := 0, period := 0 })).bufferBytes
      .steam 8 = [0x34, 0x50, 0x52, 0x50, 0x4D, 0x00, 0x00, 0x00] := by decide +kernel

/-- V-ST-24: TIME = 2^64-1, the counter 0x0888888888888888 and "PJBVV". -/
theorem test_steamRaw :
    let e := ran .steamRaw (load keyRfc { engine with timeLo := 0xFFFFFFFF, timeHi := 0xFFFFFFFF })
    e.ctrOut = 0x0888888888888888 ∧ e.bufferBytes .steam 5 = [0x50, 0x4A, 0x42, 0x56, 0x56] := by
  decide +kernel

/-! ### The bus (20_memory.md R82 to R90) and the step -/

/-- R85, R84, R83, R82, R87: one refusal each. -/
theorem test_bus_refusals :
    busRead engine 0x00C 1 = .error .byteAccessToRegister ∧ busRead engine 0x402 4 = .error .misaligned ∧
    busRead engine 0x400 2 = .error .badWidth ∧ busRead engine 0x01C 4 = .error .unmapped ∧
    busWrite engine 0x00C 4 0 = .error .readOnly := by decide +kernel

/-- R82: the last byte of SECRET_BUF is mapped, the next one is not, and a word across the end is refused. -/
theorem test_bus_edge :
    busRead engine 0x4FF 1 = .ok (.byte 0x00) ∧ busRead engine 0x500 1 = .error .unmapped ∧
    busRead engine 0x098 4 = .error .unmapped := by decide +kernel

/-- 30_encoding.md R119, R120, written out with the offsets of 20_memory.md R81. -/
theorem test_line_expansions :
    wr64 .counterLo .counterHi 0x1122334455667788 =
      [.write 0x020 4 0x55667788, .write 0x024 4 0x11223344] ∧
    wrb .secret 3 0x41 = .write 0x403 1 0x41 ∧ rdb .dec 1 = .read 0x081 1 ∧ rdw .steam 4 = .read 0x094 4 ∧
    runLines .totpRaw = [.write 0x008 4 0x121, .wait] := by decide

/-- R86: a word write of SECRET_BUF stores its low byte first. -/
theorem test_bus_little_endian :
    (busWrite engine 0x400 4 0x44434241).toOption.map (fun e => Memory.readBytes e.mem 0x400 4) =
      some [0x41, 0x42, 0x43, 0x44] := by decide +kernel

/-- R88: while a command is pending, an input write is refused. -/
theorem test_bus_busy :
    busWrite { engine with busy := true } 0x014 4 8 = .error .writeWhileBusy := by decide +kernel

/-- 40_command_control.md R141: the CMD write issues. -/
theorem test_issue : (stepped (withLines [cmdLine .hmac] (state engine))).eng.statusWord = 0x00000009 := by
  decide +kernel

/-- 60_exceptions.md R408: the word 0x111 completes with ILLEGAL_COMMAND; STATUS reads 0x00000706 before
INIT. -/
theorem test_illegal :
    (stepped (state { Engine.reset Params.default with cmd := 0x111, busy := true })).eng.statusWord =
      0x00000706 := by decide +kernel

/-- 70_reset_and_hazards.md R452: a reset aborts the pending command. -/
theorem test_reset_aborts :
    (stepped { state { engine with cmd := 0x20, busy := true } with schedule := [.reset] }).eng =
      Engine.reset Params.default := by decide +kernel

/-! ### Witnesses: for each statement that has hypotheses, one case that meets them all -/

/-- A pending engine with a command word. -/
def pending (w : Word) : Engine := { engine with cmd := w, busy := true }

/-- A run from a state, as the state it comes to. -/
theorem core_run_one (s : State) : core.run 1 s = .next (stepped s) :=
  core_run_succ (step_stepped s) 0

theorem witness_OpcodeMapHoldsExactlyThirteenWords : decode 0x00000122 = .ok .steamRaw := by decide

theorem witness_DecodeAgreesWithEncode : decode 0x00000014 = .ok .fmtSteam ∧ 0x00000014 = encode .fmtSteam := by
  decide

theorem witness_IllegalWordsAreIssuedAndCompleteWithIllegalCommand :
    decode 0x120 = .ok .hotpRaw ∧ engine.busy = false ∧ (pending 0x02).busy = true ∧
    decode (pending 0x02).cmd = .error .unassignedOpcode := by decide

theorem witness_StepExecutesThePendingCommand :
    (state (pending 0x20)).eng.busy = true ∧ decode (state (pending 0x20)).eng.cmd = .ok .hotp ∧
    (state (pending 0x20)).schedule = [] ∧
    ({ state (pending 0x20) with schedule := [.engine, .host] } : State).schedule =
      .engine :: [.host] := by decide

theorem witness_StepPerformsTheScheduledEvent :
    (∃ s : State, s.schedule = .host :: []) ∧ (∃ s : State, s.schedule = .engine :: []) ∧
    (∃ s : State, s.schedule = .reset :: []) ∧
    ((state (pending 0x20)).schedule = [] ∧ (state (pending 0x20)).eng.busy = true) ∧
    ((state engine).schedule = [] ∧ (state engine).eng.busy = false) :=
  ⟨⟨{ State.reset with schedule := [.host] }, rfl⟩, ⟨{ State.reset with schedule := [.engine] }, rfl⟩,
    ⟨{ State.reset with schedule := [.reset] }, rfl⟩, by decide, by decide⟩

theorem witness_CommandWriteIssuesOrIsRefused :
    (let s := withLines [.write 0x008 4 0x20] (state engine)
     s.host.program[s.host.pos]? = some (.write 0x008 4 0x20) ∧ s.eng.busy = false) ∧
    (let s := withLines [.write 0x008 4 0x20] (state (pending 0x20))
     s.host.program[s.host.pos]? = some (.write 0x008 4 0x20) ∧ s.eng.busy = true) := by decide

theorem witness_PendingCommandCompletesOrIsReset :
    ({ state (pending 0x20) with schedule := [.host, .reset] } : State).eng.busy = true ∧
    (state (pending 0x20)).eng.busy = true := by decide

theorem witness_WaitEndsOnlyWhenDone :
    (let s := withLines [.wait] (state engine)
     s.host.program[s.host.pos]? = some .wait ∧ s.eng.busy = false ∧ s.eng.done = false) ∧
    (let s := withLines [.wait] (state (pending 0x20))
     s.host.program[s.host.pos]? = some .wait ∧ s.eng.busy = true ∧ s.eng.done = false) ∧
    (let s := withLines [.wait] (state { engine with done := true })
     s.host.program[s.host.pos]? = some .wait ∧ s.eng.done = true) := by decide

/-- Both sides of the edges of each clause: the last byte and the last word of every buffer are accepted and
the next are not; the last register is accepted and the next offset is not. -/
theorem witness_BusAcceptsExactlyTheMappedAccesses :
    engine.params.wf = true ∧
    (∀ a ∈ ([(0x070, 4), (0x08F, 1), (0x08C, 4), (0x090, 4), (0x097, 1), (0x4FF, 1), (0x4FC, 4), (0x800, 1),
      (0x8FF, 1)] : List (Offset × Nat)), (busRead engine a.1 a.2).isOk = true) ∧
    (∀ a ∈ ([(0x070, 1), (0x074, 4), (0x08D, 4), (0x098, 1), (0x3FF, 1), (0x500, 1), (0x500, 4), (0x900, 1),
      (0xFFF, 1)] : List (Offset × Nat)), (busRead engine a.1 a.2).isOk = false) ∧
    (∀ a ∈ ([(0x008, 4), (0x02C, 4), (0x400, 1), (0x4FC, 4), (0x4FF, 1)] : List (Offset × Nat)),
      (busWrite engine a.1 a.2 0).isOk = true ∧ (busWrite (pending 0x20) a.1 a.2 0).isOk = false) ∧
    (∀ a ∈ ([(0x000, 4), (0x00C, 4), (0x040, 4), (0x080, 1), (0x090, 4), (0x3FF, 1), (0x500, 1),
      (0x800, 1)] : List (Offset × Nat)), (busWrite engine a.1 a.2 0).isOk = false) ∧
    (let s := withLines [.read 0x01C 4] (state engine)
     s.host.program[s.host.pos]? = some (.read 0x01C 4) ∧ busRead s.eng 0x01C 4 = .error .unmapped) ∧
    (let s := withLines [.write 0x000 4 1] (state engine)
     s.host.program[s.host.pos]? = some (.write 0x000 4 1) ∧
       (busWrite s.eng 0x000 4 1) = .error .readOnly) := by decide +kernel

theorem witness_PendingEngineRefusesWritesAndAnswersReads :
    (pending 0x20).busy = true ∧ (pending 0x20).params.wf = true ∧
    (0x070 : Offset).toNat = Reg.decLen.offset ∧ 255 < Buffer.key.size (pending 0x20).params ∧
    4 * 63 + 4 ≤ Buffer.key.size (pending 0x20).params := by decide

theorem witness_BufferWordsAreLittleEndian :
    engine.params.wf = true ∧ Memory.wf engine.mem ∧ 4 * 3 + 4 ≤ Buffer.dec.size engine.params ∧
    15 < Buffer.dec.size engine.params ∧ engine.busy = false ∧ 4 * 63 + 4 ≤ engine.params.secretMax ∧
    255 < engine.params.secretMax := by decide

theorem witness_ReadLinesHaveNoSideEffect :
    let s := withLines [rd .status] (state engine)
    s.host.program[s.host.pos]? = some (.read 0x00C 4) ∧ busRead s.eng 0x00C 4 = .ok (.word 0x00000008) := by
  decide +kernel

theorem witness_InputWritesStoreOneRegister :
    engine.busy = false ∧ (0x02C : Offset).toNat = Reg.timeHi.offset ∧
    Reg.timeHi ∈ [Reg.secretLen, .digits, .period, .counterLo, .counterHi, .timeLo, .timeHi] := by decide

/-- A text of 10 bytes, whose last word is padded. -/
theorem witness_SecretLinesLoadTheText :
    let s := withLines (secretLines textFoobar) (state engine)
    s.eng.params.wf = true ∧ Memory.wf s.eng.mem ∧ s.eng.busy = false ∧ s.schedule = [] ∧
    textFoobar.length ≤ s.eng.params.secretMax ∧ s.host.program = secretLines textFoobar ∧
    s.host.pos = 0 := by decide

theorem witness_IdAndCapsAreConstant :
    engine.params.wf = true ∧ engine.params.secretMax = 256 ∧
    step State.reset = .next (stepped State.reset) :=
  ⟨by decide, by decide, step_stepped _⟩

theorem witness_ResetStateIsSound : ({ secretMax := 32, engineBase := 0 } : Params).wf = true := by decide

/-- An initialized, pending engine is sound. -/
theorem pending_sound (w : Word) : (state (pending w)).Sound := by
  refine ⟨⟨(by decide : Params.default.wf = true), ⟨Memory.wf_nil, by simp [state, pending, engine, Engine.reset]⟩, ?_, ?_, ?_, ?_, ?_⟩, ?_⟩
  · simp [state, pending, engine, Engine.reset, Engine.StatusSound]
  · exact ⟨Nat.zero_le _, fun _ _ _ => rfl⟩
  · simp [state, pending, engine, Engine.reset, Engine.TruncSound]
  · exact ⟨Nat.zero_le _, Nat.two_pow_pos 31, fun h => absurd h (Nat.lt_irrefl 0), fun i _ => by
      simp [decimalChar, state, pending, engine, Engine.reset, Engine.bufferByte]⟩
  · exact ⟨.inl fun _ _ => rfl, fun _ _ => rfl⟩
  · exact ⟨rfl, Nat.le_refl 0⟩

theorem witness_EveryStepKeepsTheStateSound :
    (state (pending 0x20)).Sound ∧ step (state (pending 0x20)) = .next (stepped (state (pending 0x20))) :=
  ⟨pending_sound 0x20, step_stepped _⟩

theorem witness_ReachableStatesAreSound :
    Params.default.wf = true ∧
    core.run 1 { eng := Engine.reset Params.default
                 host := { program := [wr .digits 8], pos := 0, results := [] }
                 schedule := [.host, .reset] } =
      .next (stepped { eng := Engine.reset Params.default
                       host := { program := [wr .digits 8], pos := 0, results := [] }
                       schedule := [.host, .reset] }) :=
  ⟨by decide, core_run_one _⟩

/-- INIT pending on an engine not initialized sets INITIALIZED; a reset of an initialized one clears it. -/
theorem witness_OnlyInitSetsAndOnlyResetClearsInitialized :
    (∃ s t : State, step s = .next t ∧ t.eng.initialized ≠ s.eng.initialized ∧ s.takeTurn.1 = .engine ∧
      s.eng.busy = true ∧ decode s.eng.cmd = .ok .init) ∧
    (∃ s t : State, step s = .next t ∧ t.eng.initialized ≠ s.eng.initialized ∧ s.takeTurn.1 = .reset) :=
  ⟨⟨state { Engine.reset Params.default with cmd := 1, busy := true }, _, step_stepped _, by decide, by decide,
      by decide, by decide⟩,
    ⟨{ state engine with schedule := [.reset] }, _, step_stepped _, by decide, by decide⟩⟩

/-- One step of each kind: an input changes by a host write, a result by a completion, CMD by an issue. -/
theorem witness_EachClassOfStateHasItsOnlyWriters :
    engine.params.wf = true ∧ Memory.wf engine.mem ∧
    (stepped (withLines [wr .digits 8] (state engine))).eng.digits ≠ engine.digits ∧
    (stepped (state { pending 0x13 with dbc := 5 })).eng.decLen ≠ engine.decLen ∧
    (stepped (withLines [cmdLine .hmac] (state engine))).eng.cmd ≠ engine.cmd := by decide +kernel

theorem witness_FailedCommandChangesOnlyStatus :
    (∃ s t : State, s.eng.busy = true ∧ engineTurn s = .next t ∧ t.eng.error = true) ∧
    (∃ s t : State, s.eng.busy = true ∧ engineTurn s = .next t ∧ t.eng.error = false) :=
  ⟨⟨state (pending 0), _, rfl, engineTurn_eq _, by decide⟩, ⟨state (pending 1), _, rfl, engineTurn_eq _, by decide⟩⟩

/-- One state for each error of the list, in its order, and one for success. -/
theorem witness_ReportedErrorFollowsThePriority :
    (pending 0x21).busy = true ∧
    ((stepped (state { pending 0x121 with initialized := false, cmd := 0x221 })).eng.errcode = 7 ∧
     (stepped (state { pending 0x21 with initialized := false, period := 0 })).eng.errcode = 4 ∧
     (stepped (state { pending 0x21 with period := 0, digits := 0 })).eng.errcode = 3 ∧
     (stepped (state { pending 0x21 with digits := 11, secretLen := 257 })).eng.errcode = 2 ∧
     (stepped (state { pending 0x21 with secretLen := 257 })).eng.errcode = 6 ∧
     (stepped (state { pending 0x10 with secretLen := 1 })).eng.errcode = 1 ∧
     (stepped (state { pending 0x110 with secretLen := 1 })).eng.errcode = 0) := by decide +kernel

theorem witness_UninitializedEngineRunsOnlyInit :
    Instr.steam ≠ .init ∧ (Engine.reset Params.default).initialized = false ∧
    (let e := { Engine.reset Params.default with cmd := 0x0E, busy := true }
     e.busy = true ∧ e.initialized = false ∧ decode e.cmd = .error .unassignedOpcode) := by decide

theorem witness_CommandsWriteOnlyTheirCommitSet :
    (state engine).eng.params.wf = true ∧ Memory.wf (state engine).eng.mem ∧
    exec .totp (state engine) = .next (after .totp (state engine)) ∧
    exec .fmtSteam (state engine) = .next (after .fmtSteam (state engine)) :=
  ⟨by decide, by decide, exec_after _ _, exec_after _ _⟩

theorem witness_InitIsIdempotent :
    exec .init State.reset = .next (after .init State.reset) ∧
    exec .fmtDec (state engine) = .next (after .fmtDec (state engine)) ∧
    (state engine).eng.initialized = true :=
  ⟨exec_after _ _, exec_after _ _, rfl⟩

/-- A secret of each key source. -/
theorem hasKey_foobar : (load textFoobar engine).HasKey false keyFoobar ∧
    (load textFoobar engine).HasKey true textFoobar := by
  refine ⟨⟨by decide, ?_⟩, by decide, ?_⟩ <;> simp only [Bool.false_eq_true, if_false, if_true] <;>
    decide +kernel

theorem wf_foobar : Memory.wf (load textFoobar engine).mem := Memory.wf_writeBytes Memory.wf_nil _ _

theorem witness_DecodeCommitsTheKey :
    (Instr.decodeRaw, true) ∈ [(Instr.decode, false), (Instr.decodeRaw, true)] ∧
    Memory.wf (load textFoobar engine).mem ∧ (load textFoobar engine).initialized = true ∧
    (load textFoobar engine).HasKey false keyFoobar ∧ (load textFoobar engine).HasKey true textFoobar :=
  ⟨by decide, wf_foobar, rfl, hasKey_foobar⟩

theorem witness_HmacCommitsTheDigest : (state engine).eng.initialized = true := rfl

theorem witness_TruncCommitsTheWindow : (state engine).eng.initialized = true := rfl

/-- Both ends of the range of DIGITS. -/
theorem witness_FmtDecCommitsTheDecimalCode :
    Memory.wf engine.mem ∧ engine.initialized = true ∧
    (1 ≤ ({ engine with digits := 1 } : Engine).digits.toNat ∧
      ({ engine with digits := 1 } : Engine).digits.toNat ≤ 10) ∧
    (1 ≤ ({ engine with digits := 10 } : Engine).digits.toNat ∧
      ({ engine with digits := 10 } : Engine).digits.toNat ≤ 10) := by decide

theorem witness_FmtSteamCommitsTheSteamCode :
    Memory.wf (state engine).eng.mem ∧ (state engine).eng.initialized = true := by decide

theorem witness_HotpCommitsKeyDigestAndCode :
    (Instr.hotp, false) ∈ [(Instr.hotp, false), (Instr.hotpRaw, true)] ∧
    Memory.wf (load textFoobar engine).mem ∧ (load textFoobar engine).initialized = true ∧
    1 ≤ (load textFoobar engine).digits.toNat ∧ (load textFoobar engine).digits.toNat ≤ 10 ∧
    (load textFoobar engine).HasKey false keyFoobar ∧ (load textFoobar engine).HasKey true textFoobar ∧
    ∃ d, d = hmacSha1 keyFoobar
      (be64 ((load textFoobar engine).counterHi ++ (load textFoobar engine).counterLo)) :=
  ⟨by decide, wf_foobar, rfl, by decide, by decide, hasKey_foobar.1, hasKey_foobar.2, _, rfl⟩

/-- TIME = 59 and PERIOD = 30: the counter is 1. -/
theorem witness_TotpCommitsKeyDigestAndCode :
    let e := load textFoobar { engine with timeLo := 59 }
    (Instr.totpRaw, true) ∈ [(Instr.totp, false), (Instr.totpRaw, true)] ∧ Memory.wf e.mem ∧
    e.initialized = true ∧ e.period ≠ 0 ∧ 1 ≤ e.digits.toNat ∧ e.digits.toNat ≤ 10 ∧
    e.HasKey true textFoobar ∧ (1 : DWord).toNat = (e.timeHi ++ e.timeLo).toNat / e.period.toNat ∧
    ∃ d, d = hmacSha1 textFoobar (be64 1) :=
  ⟨by decide, wf_foobar, rfl, by decide, by decide, by decide, hasKey_foobar.2, by decide, _, rfl⟩

theorem witness_SteamCommitsKeyDigestAndCode :
    let e := load textFoobar { engine with timeLo := 59, digits := 0, period := 0 }
    (Instr.steam, false) ∈ [(Instr.steam, false), (Instr.steamRaw, true)] ∧ Memory.wf e.mem ∧
    e.initialized = true ∧ e.HasKey false keyFoobar ∧
    (1 : DWord).toNat = (e.timeHi ++ e.timeLo).toNat / 30 ∧ ∃ d, d = hmacSha1 keyFoobar (be64 1) :=
  ⟨by decide, wf_foobar, rfl, hasKey_foobar.1, by decide, _, rfl⟩

/-- Two engines that differ in what a generator does not read: a result, a bus input of another command. -/
theorem witness_GeneratorsArePureFunctionsOfTheirInputs :
    let s₁ := state engine
    let s₂ := state { engine with keyLen := 7, timeLo := 99 }
    Instr.hotp ∈ generators ∧ Memory.wf s₁.eng.mem ∧ Memory.wf s₂.eng.mem ∧
    s₁.eng.params.secretMax = s₂.eng.params.secretMax ∧ s₁.eng.initialized = s₂.eng.initialized ∧
    s₁.eng.secretLen = s₂.eng.secretLen ∧
    (∀ j < s₁.eng.params.secretMax, j < s₁.eng.secretLen.toNat →
      s₁.eng.bufferByte .secret j = s₂.eng.bufferByte .secret j) ∧
    s₁.eng.counter = s₂.eng.counter ∧ Instr.hotp ∉ [Instr.totp, .totpRaw] ∧
    Instr.hotp ∉ [Instr.steam, .steamRaw] ∧ s₁.eng.digits = s₂.eng.digits ∧
    exec .hotp s₁ = .next (after .hotp s₁) ∧ exec .hotp s₂ = .next (after .hotp s₂) ∧
    (after .hotp s₁).eng.error = false ∧ Instr.hotp ∈ decimalCommands ∧ Instr.steam ∈ steamCommands :=
  ⟨by decide, by decide, by decide, rfl, rfl, rfl, fun _ _ _ => rfl, rfl, by decide, by decide, rfl,
    exec_after _ _, exec_after _ _, by decide +kernel, by decide, by decide⟩

theorem witness_TotpIsHotpAtTheTimeStep :
    let s := state { engine with timeLo := 59 }
    (Instr.totp, Instr.hotp) ∈ [(Instr.totp, Instr.hotp), (Instr.totpRaw, Instr.hotpRaw)] ∧
    s.eng.period ≠ 0 ∧ (1 : DWord).toNat = (s.eng.timeHi ++ s.eng.timeLo).toNat / s.eng.period.toNat ∧
    (∃ t, exec .totp s = .next t) ∧
    (∃ u, exec .hotp { s with eng := { s.eng with counterLo := (1 : DWord).extractLsb' 0 32
                                                  counterHi := (1 : DWord).extractLsb' 32 32 } } =
      .next u) ∧
    (let z := state { engine with period := 0 }
     Instr.totp ∈ [Instr.totp, .totpRaw] ∧ z.eng.initialized = true ∧ z.eng.period = 0) :=
  ⟨by decide, by decide, by decide, ⟨_, exec_after _ _⟩, ⟨_, exec_after _ _⟩, by decide⟩

/-- The two sequences, from one state with COUNTER = TIME = 0. -/
theorem witness_ComponentSequenceEqualsTheGenerator :
    ∃ s s₁ s₂ s₃ s₄ s₅ t u, s.eng.params.wf = true ∧ Memory.wf s.eng.mem ∧ exec .decode s = .next s₁ ∧
      s₁.eng.error = false ∧ exec .hmac s₁ = .next s₂ ∧ exec .trunc s₂ = .next s₃ ∧
      exec .fmtDec s₃ = .next s₄ ∧ s₄.eng.error = false ∧ exec .hotp s = .next t ∧
      (s.eng.counterHi ++ s.eng.counterLo).toNat = (s.eng.timeHi ++ s.eng.timeLo).toNat / 30 ∧
      exec .fmtSteam s₃ = .next s₅ ∧ exec .steam s = .next u :=
  ⟨state engine, _, _, _, _, _, _, _, by decide, by decide, exec_after _ _, by decide, exec_after _ _,
    exec_after _ _, exec_after _ _, by decide +kernel, exec_after _ _, by decide, exec_after _ _,
    exec_after _ _⟩

theorem witness_SteamIgnoresDigitsAndPeriod :
    Instr.steamRaw ∈ steamCommands ∧
    exec .steamRaw (state engine) = .next (after .steamRaw (state engine)) :=
  ⟨by decide, exec_after _ _⟩

theorem witness_ResetPutsEveryRegisterToItsResetValue : (state (pending 0x20)).eng.params.wf = true := by
  decide

theorem witness_DecodedKeyLengthIsFiveEighths : b32Decode textFoobar = .ok keyFoobar := by decide +kernel

/-- V-B32-18 beside V-B32-17: "my" and "MY". -/
theorem witness_DecodingIsCaseInsensitive :
    ([0x6D, 0x79] : List Byte).map (fun c => if 0x61 ≤ c.toNat ∧ c.toNat ≤ 0x7A then c - 0x20 else c) =
      ([0x4D, 0x59] : List Byte).map
        (fun c => if 0x61 ≤ c.toNat ∧ c.toNat ≤ 0x7A then c - 0x20 else c) := by decide

/-- V-B32-30: data after a padding byte; V-B32-45: a single invalid byte. -/
theorem witness_DecodingFailsExactlyOnBadBytesOrBadPadding :
    b32Decode [0x4D, 0x5A, 0x3D, 0x58, 0x57] = .error .invalidSecretEncoding ∧
    (load [0x31] engine).initialized = true ∧
    (load [0x31] engine).secretLen.toNat ≤ (load [0x31] engine).params.secretMax ∧
    b32Decode (load [0x31] engine).secret = .error .invalidSecretEncoding := by decide +kernel

/-- A key, and the edges of the ranges of R171 with their neighbours. -/
theorem witness_DecodedKeyIsTheBitStream : b32Decode textFoobar = .ok keyFoobar ∧
    ([0x41, 0x5A, 0x61, 0x7A, 0x32, 0x37] : List Byte).map symbolValue =
      [some 0, some 25, some 0, some 25, some 26, some 31] ∧
    ([0x40, 0x5B, 0x60, 0x7B, 0x31, 0x38] : List Byte).map symbolValue = List.replicate 6 none := by
  decide +kernel

theorem witness_MessageScheduleFollowsItsRecurrence :
    (List.replicate 64 (0x61 : Byte)).length = 64 := by decide

theorem witness_CompressionIsTheEightyRoundLoop :
    (List.replicate 64 (0x61 : Byte)).length = 64 := by decide

/-- The bounds of both clauses: the empty key with 64 zero bytes, and keys of 64 and 65 bytes. -/
theorem witness_EquivalentKeysGiveTheSameDigest :
    ([] : List Byte).length + 64 ≤ 64 ∧ (List.replicate 64 (0xAA : Byte)).length + 0 ≤ 64 ∧
    64 < (List.replicate 65 (0xAA : Byte)).length := by decide

theorem witness_DecimalCharactersSpellTheCode : 1 ≤ 1 ∧ 1 ≤ 10 ∧ 1 ≤ 10 ∧ 10 ≤ 10 := by decide

theorem witness_DecimalResultHasExactlyDigitsCharacters :
    Instr.fmtDec ∈ decimalCommands ∧ Memory.wf (state engine).eng.mem ∧
    (state engine).eng.dbc.toNat < 2 ^ 31 ∧
    exec .fmtDec (state engine) = .next (after .fmtDec (state engine)) ∧
    (after .fmtDec (state engine)).eng.error = false :=
  ⟨by decide, by decide, by decide, exec_after _ _, by decide +kernel⟩

theorem witness_SteamCodeIsFiveAlphabetSymbols :
    Instr.fmtSteam ∈ steamCommands ∧ Memory.wf (state engine).eng.mem ∧
    exec .fmtSteam (state engine) = .next (after .fmtSteam (state engine)) ∧
    (after .fmtSteam (state engine)).eng.error = false :=
  ⟨by decide, by decide, exec_after _ _, by decide +kernel⟩

theorem witness_MemoriesThatReadAlikeAreEqual :
    Memory.wf [(0x080, 0x31), (0x400, 0x4D)] ∧
    ∀ a, Memory.read [(0x080, 0x31), (0x400, 0x4D)] a =
      Memory.read (Memory.write [(0x400, 0x4D)] 0x080 0x31) a :=
  ⟨by decide, fun _ => rfl⟩

end Sys2Proof.Tests
end

/-! PROOFS. Who writes which part of the state (10_state.md R31, R32, R61), and the invariants of every
reachable state (R62). -/

namespace Sys2Proof.Machine

/-! ### One step, seen from the engine and from the host -/

@[simp] theorem State.takeTurn_snd_eng (s : State) : s.takeTurn.2.eng = s.eng := by
  rw [State.takeTurn_snd]

@[simp] theorem State.takeTurn_snd_host (s : State) : s.takeTurn.2.host = s.host := by
  rw [State.takeTurn_snd]

/-- The engine changes only by an accepted write of the host, a completion or a reset. -/
theorem step_eng_cases {s t : State} (h : step s = .next t) :
    t.eng = s.eng ∨
    (s.takeTurn.1 = .host ∧ ∃ off n v, s.host.program[s.host.pos]? = some (.write off n v) ∧
      busWrite s.eng off n v = .ok t.eng) ∨
    (s.takeTurn.1 = .engine ∧ s.eng.busy = true ∧
      t.eng = s.eng.complete (pendingResult s.eng)) ∨
    (s.takeTurn.1 = .reset ∧ t.eng = Engine.reset s.eng.params) := by
  rcases step_cases h with ⟨ht, rfl⟩ | ⟨-, -, rfl⟩ | ⟨ht, hb, rfl⟩ | ⟨ht, rfl⟩
  · rcases hostTurn_cases s.takeTurn.2 with e | ⟨r, -, e⟩ | ⟨off, n, v, e', hl, hw, e⟩ <;> rw [e]
    · simp
    · simp
    · exact .inr (.inl ⟨ht, off, n, v, by simpa using hl, by simpa using hw⟩)
  · simp
  · exact .inr (.inr (.inl ⟨ht, hb, rfl⟩))
  · exact .inr (.inr (.inr ⟨ht, by simp⟩))

/-- The host agent changes only by finishing a line of its program. -/
theorem step_host_cases {s t : State} (h : step s = .next t) :
    t.host = s.host ∨
    ∃ r, s.host.pos < s.host.program.length ∧ t.host = (s.finishLine r).host := by
  rcases step_cases h with ⟨-, rfl⟩ | ⟨-, -, rfl⟩ | ⟨-, -, rfl⟩ | ⟨-, rfl⟩
  · rcases hostTurn_cases s.takeTurn.2 with e | ⟨r, hl, e⟩ | ⟨off, n, v, e', hl, -, e⟩ <;> rw [e]
    · simp
    · exact .inr ⟨r, by simpa using hl, by simp [State.finishLine]⟩
    · have hl := (List.getElem?_eq_some_iff.1 hl).1
      exact .inr ⟨.ok, by simpa using hl, by simp [State.finishLine]⟩
  · simp
  · simp
  · simp

/-! ### The parameters, ID and CAPS -/

@[simp] theorem Engine.complete_params (e : Engine) (r : Except ErrorCode Commit) :
    (e.complete r).params = e.params := by cases r <;> simp

theorem busWrite_params {e e' : Engine} {off : Offset} {n : Nat} {v : Word}
    (h : busWrite e off n v = .ok e') : e'.params = e.params := by
  rcases (busWrite_ok h).2 with ⟨r, -, -, -, rfl⟩ | ⟨-, -, -, rfl⟩ <;> simp

theorem step_params {s t : State} (h : step s = .next t) : t.eng.params = s.eng.params := by
  rcases step_eng_cases h with e | ⟨-, off, n, v, -, hw⟩ | ⟨-, -, e⟩ | ⟨-, e⟩
  · rw [e]
  · exact busWrite_params hw
  · rw [e, Engine.complete_params]
  · rw [e]; rfl

/-- ID is a constant, and CAPS is read from the parameters (R31, R32). -/
theorem step_id_caps {s t : State} (h : step s = .next t) :
    t.eng.readReg .id = s.eng.readReg .id ∧ t.eng.readReg .caps = s.eng.readReg .caps :=
  ⟨rfl, congrArg capsWord (step_params h)⟩

/-- The upper half of CAPS holds the constants 30, 10 and 1, the lower half SECRET_MAX (R32). -/
theorem capsWord_eq (p : Params) :
    capsWord p = (0x1EA1 : BitVec 16) ++ BitVec.ofNat 16 p.secretMax := rfl

theorem capsWord_secretMax {p : Params} (hp : p.wf = true) :
    ((capsWord p).extractLsb' 0 16).toNat = p.secretMax := by
  obtain ⟨-, hmax, -⟩ := (Params.wf_iff p).1 hp
  rw [capsWord_eq, BitVec.extractLsb'_append_eq_right, BitVec.toNat_ofNat, Nat.mod_eq_of_lt (by omega)]

theorem capsWord_constants (p : Params) :
    (capsWord p).extractLsb' 16 4 = 1 ∧ (capsWord p).extractLsb' 20 4 = 10 ∧
      (capsWord p).extractLsb' 24 8 = 30 := by
  rw [capsWord_eq]
  refine ⟨?_, ?_, ?_⟩ <;> rw [BitVec.extractLsb'_append_eq_of_le (by decide)] <;> decide

theorem busRead_reg (e : Engine) {off : Offset} {r : Reg} (h : off.toNat = r.offset) :
    busRead e off 4 = .ok (.word (e.readReg r)) := by
  rw [busRead, locate_reg _ h]

/-- No write is accepted at a read-only register (20_memory.md R87). -/
theorem busWrite_of_readOnly (e : Engine) {off : Offset} {r : Reg} (h : off.toNat = r.offset)
    (hr : r.writable = false) (n : Nat) (v : Word) : ∃ f, busWrite e off n v = .error f := by
  cases hw : busWrite e off n v with
  | error f => exact ⟨f, rfl⟩
  | ok e' =>
    have hlow := (Reg.offset_range r).1
    rcases (busWrite_ok hw).2 with ⟨r', -, ho, hr', -⟩ | ⟨-, hbuf, -, -⟩
    · have heq : r' = r := by
        have := Reg.atOffset_offset r'
        rw [← ho, h, Reg.atOffset_offset] at this
        injection this with this
        exact this.symm
      rw [heq, hr] at hr'
      cases hr'
    · omega

/-! ### The bytes of each buffer after a commit set -/

section
variable {c : Commit} {e : Engine} {i : Nat}

theorem Commit.apply_decByte (hb : c.Bounded e) (hm : Memory.wf e.mem) (hi : i < 16) :
    (c.apply e).bufferByte .dec i =
      c.dec.elim (e.bufferByte .dec i) (fun r => r.chars.getD i 0x00) := by
  simp only [Engine.bufferByte, Buffer.base, Commit.read_apply hb hm]
  rw [if_neg (by omega)]
  cases c.dec with
  | none => rw [if_neg (by simp), if_neg (by omega)]; rfl
  | some r => rw [if_pos ⟨by omega, rfl⟩, Nat.add_sub_cancel_left]; rfl

theorem Commit.apply_steamByte (hb : c.Bounded e) (hm : Memory.wf e.mem) (hi : i < 8) :
    (c.apply e).bufferByte .steam i =
      c.steam.elim (e.bufferByte .steam i) (fun x => x.getD i 0x00) := by
  simp only [Engine.bufferByte, Buffer.base, Commit.read_apply hb hm]
  cases c.steam with
  | none => rw [if_neg (by simp), if_neg (by omega), if_neg (by omega)]; rfl
  | some x => rw [if_pos ⟨by omega, rfl⟩, Nat.add_sub_cancel_left]; rfl

theorem Commit.apply_keyByte (hb : c.Bounded e) (hm : Memory.wf e.mem) (hi : i < e.params.secretMax) :
    (c.apply e).bufferByte .key i =
      c.key.elim (e.bufferByte .key i) (fun k => k.getD i 0x00) := by
  simp only [Engine.bufferByte, Buffer.base, Commit.read_apply hb hm]
  rw [if_neg (by omega), if_neg (by omega)]
  cases c.key with
  | none => rw [if_neg (by simp)]; rfl
  | some k => rw [if_pos ⟨by omega, rfl⟩, Nat.add_sub_cancel_left]; rfl

/-- SECRET_BUF ends below KEY_BUF, so no part of a commit set reaches it. -/
theorem Commit.apply_secretByte (hb : c.Bounded e) (hm : Memory.wf e.mem) (hp : e.params.wf = true)
    (hi : i < e.params.secretMax) : (c.apply e).bufferByte .secret i = e.bufferByte .secret i := by
  obtain ⟨-, hmax, -⟩ := (Params.wf_iff _).1 hp
  simp only [Engine.bufferByte, Buffer.base, Commit.read_apply hb hm]
  rw [if_neg (by omega), if_neg (by omega), if_neg (by omega)]

end

/-! ### The classes of state (R61) -/

/-- The input registers (R61, class 1). -/
def Engine.inputs (e : Engine) : Word × Word × Word × Word × Word × Word × Word :=
  (e.secretLen, e.digits, e.period, e.counterLo, e.counterHi, e.timeLo, e.timeHi)

/-- The result registers (R61, class 2). -/
def Engine.results (e : Engine) :
    Word × Word × Word × Word × Digest × Word × Word × Word × Word :=
  (e.keyLen, e.truncOffset, e.ctrOutLo, e.ctrOutHi, e.digest, e.dbcRaw, e.dbc, e.decValue, e.decLen)

/-- What is left when no result is written (R61, class 2): the second engine has the first one's parameters, result
registers and bytes of the read-only buffers. -/
structure Engine.SameResults (e e' : Engine) : Prop where
  params : e'.params = e.params
  results : e'.results = e.results
  bytes : ∀ b i, b ≠ Buffer.secret → i < b.size e.params → e'.bufferByte b i = e.bufferByte b i

theorem Engine.complete_inputs (e : Engine) (r : Except ErrorCode Commit) :
    (e.complete r).inputs = e.inputs := by
  cases r <;> simp [Engine.inputs]

theorem complete_pending_secretByte {e : Engine} (hp : e.params.wf = true) (hm : Memory.wf e.mem)
    {i : Nat} (hi : i < e.params.secretMax) :
    (e.complete (pendingResult e)).bufferByte .secret i = e.bufferByte .secret i := by
  cases hr : pendingResult e with
  | error x => rfl
  | ok c => exact Commit.apply_secretByte (pendingResult_bounded hr).1 hm hp hi

/-- A command that fails shows the results of before (60_exceptions.md R410). -/
theorem Engine.markError_sameResults (e : Engine) (x : ErrorCode) : e.SameResults (e.markError x) :=
  ⟨rfl, rfl, fun _ _ _ _ => rfl⟩

/-- The read-only buffers lie outside SECRET_BUF. -/
theorem Buffer.outside_secret {p : Params} (hp : p.wf = true) {b : Buffer} {i : Nat}
    (hb : b ≠ .secret) (hi : i < b.size p) :
    b.base + i < 0x400 ∨ 0x400 + p.secretMax ≤ b.base + i := by
  obtain ⟨-, hmax, -⟩ := (Params.wf_iff p).1 hp
  cases b with
  | secret => exact absurd rfl hb
  | dec | steam | key =>
    simp only [Buffer.base, Buffer.size] at hi ⊢
    omega

/-- An accepted write of the host changes no result. -/
theorem busWrite_sameResults {e e' : Engine} {off : Offset} {n : Nat} {v : Word}
    (hp : e.params.wf = true) (h : busWrite e off n v = .ok e') : e.SameResults e' := by
  rcases (busWrite_ok h).2 with ⟨r, -, -, -, rfl⟩ | ⟨-, hlo, hhi, rfl⟩
  · exact ⟨by simp, by simp [Engine.results, Engine.writeReg_results],
      fun b i _ _ => by simp [Engine.bufferByte]⟩
  · refine ⟨rfl, rfl, fun b i hb hi => ?_⟩
    have := Buffer.outside_secret hp hb hi
    exact Memory.read_writeBytes_of_out (by rw [length_leBytes]; omega)

theorem Engine.writeReg_cmd_status (e : Engine) (v : Word) {r : Reg} (h : r ≠ .cmd) :
    (e.writeReg v r).cmd = e.cmd ∧ (e.writeReg v r).statusWord = e.statusWord := by
  cases r
  case cmd => exact absurd rfl h
  all_goals exact ⟨rfl, rfl⟩

/-- An accepted write is the issue of a command, or leaves CMD and STATUS (40_command_control.md R141). -/
theorem busWrite_issue_or_keeps {e e' : Engine} {off : Offset} {n : Nat} {v : Word}
    (h : busWrite e off n v = .ok e') :
    (off = 0x008 ∧ n = 4) ∨ (e'.cmd = e.cmd ∧ e'.statusWord = e.statusWord) := by
  rcases (busWrite_ok h).2 with ⟨r, hn, ho, -, rfl⟩ | ⟨-, -, -, rfl⟩
  · by_cases hr : r = .cmd
    · subst hr
      exact .inl ⟨BitVec.eq_of_toNat_eq ho, hn⟩
    · exact .inr (e.writeReg_cmd_status v hr)
  · exact .inr ⟨rfl, rfl⟩

/-- R61, class 1. -/
theorem step_inputs_writers {s t : State} (hp : s.eng.params.wf = true) (hm : Memory.wf s.eng.mem)
    (h : step s = .next t)
    (hc : t.eng.inputs ≠ s.eng.inputs ∨
      ∃ i < s.eng.params.secretMax, t.eng.bufferByte .secret i ≠ s.eng.bufferByte .secret i) :
    s.takeTurn.1 = .reset ∨
      (s.takeTurn.1 = .host ∧ ∃ off n v e, s.host.program[s.host.pos]? = some (.write off n v) ∧
        busWrite s.eng off n v = .ok e) := by
  rcases step_eng_cases h with e | ⟨ht, off, n, v, hl, hw⟩ | ⟨-, -, e⟩ | ⟨ht, -⟩
  · simp [e] at hc
  · exact .inr ⟨ht, off, n, v, _, hl, hw⟩
  · rw [e] at hc
    rcases hc with hc | ⟨i, hi, hc⟩
    · exact absurd (Engine.complete_inputs _ _) hc
    · exact absurd (complete_pending_secretByte hp hm hi) hc
  · exact .inl ht

/-- R61, class 2: a step that is neither a successful completion nor a reset shows the results of before. -/
theorem step_results_writers {s t : State} (hp : s.eng.params.wf = true) (h : step s = .next t) :
    s.eng.SameResults t.eng ∨ s.takeTurn.1 = .reset ∨
      (s.takeTurn.1 = .engine ∧ s.eng.busy = true ∧ t.eng.error = false) := by
  rcases step_eng_cases h with e | ⟨-, off, n, v, -, hw⟩ | ⟨ht, hb, e⟩ | ⟨ht, -⟩
  · exact .inl (e ▸ ⟨rfl, rfl, fun _ _ _ _ => rfl⟩)
  · exact .inl (busWrite_sameResults hp hw)
  · cases hr : pendingResult s.eng with
    | error x => exact .inl (by rw [e, hr]; exact s.eng.markError_sameResults x)
    | ok c => exact .inr (.inr ⟨ht, hb, by rw [e, hr]; rfl⟩)
  · exact .inr (.inl ht)

/-- R61, class 3. -/
theorem step_cmd_status_writers {s t : State} (h : step s = .next t)
    (hc : (t.eng.cmd, t.eng.statusWord) ≠ (s.eng.cmd, s.eng.statusWord)) :
    s.takeTurn.1 = .reset ∨ (s.takeTurn.1 = .engine ∧ s.eng.busy = true) ∨
      (s.takeTurn.1 = .host ∧ s.eng.busy = false ∧
        ∃ w, s.host.program[s.host.pos]? = some (.write 0x008 4 w)) := by
  rcases step_eng_cases h with e | ⟨ht, off, n, v, hl, hw⟩ | ⟨ht, hb, -⟩ | ⟨ht, -⟩
  · simp [e] at hc
  · rcases busWrite_issue_or_keeps hw with ⟨rfl, rfl⟩ | ⟨hcmd, hst⟩
    · exact .inr (.inr ⟨ht, (busWrite_ok hw).1, v, hl⟩)
    · simp [hcmd, hst] at hc
  · exact .inr (.inl ⟨ht, hb⟩)
  · exact .inl ht

/-! ### Soundness of the results -/

/-- What soundness asks of the result registers and the read-only buffers (R62). -/
def Engine.ResultsSound (e : Engine) : Prop :=
  e.KeySound ∧ e.TruncSound ∧ e.DecSound ∧ e.SteamSound

theorem Engine.SameResults.sound {e e' : Engine} (h : e.SameResults e') (hs : e.ResultsSound) :
    e'.ResultsSound := by
  obtain ⟨hp, hr, hb⟩ := h
  simp only [Engine.results, Prod.mk.injEq] at hr
  obtain ⟨hkl, hto, -, -, -, hraw, hdbc, hdv, hdl⟩ := hr
  obtain ⟨⟨hk, hkz⟩, ht, ⟨hd, hv, hvl, hdc⟩, hst, hsz⟩ := hs
  have hkb : ∀ i < e.params.secretMax, e'.bufferByte .key i = e.bufferByte .key i :=
    fun i hi => hb .key i (by decide) hi
  have hdb : ∀ i < 16, e'.bufferByte .dec i = e.bufferByte .dec i :=
    fun i hi => hb .dec i (by decide) hi
  have hsb : ∀ i < 8, e'.bufferByte .steam i = e.bufferByte .steam i :=
    fun i hi => hb .steam i (by decide) hi
  refine ⟨⟨by rwa [hkl, hp], ?_⟩, by rwa [Engine.TruncSound, hdbc, hraw, hto],
    ⟨by rwa [hdl], by rwa [hdv], by rwa [hdl, hdv], ?_⟩, ?_, ?_⟩
  · rw [hp, hkl]
    exact fun i hi hle => (hkb i hi).trans (hkz i hi hle)
  · rw [hdv, hdl]
    exact fun i hi => (hdb i hi).trans (hdc i hi)
  · refine hst.imp (fun h i hi => ?_) (fun h i hi => ?_) <;> rw [hsb i (by omega)] <;> exact h i hi
  · exact fun i hi => (hsb _ (by omega)).trans (hsz i hi)

/-! ### A commit set keeps the results sound -/

/-- Clearing bit 31 leaves 31 bits (43_truncation.md R244). -/
theorem toNat_masked_lt (x : Word) : (x &&& 0x7FFFFFFF).toNat < 2 ^ 31 := by
  rw [BitVec.toNat_and]
  exact Nat.and_lt_two_pow _ (by decide)

theorem Engine.TruncSound.dbc_lt {e : Engine} (h : e.TruncSound) : e.dbc.toNat < 2 ^ 31 := by
  rw [h.1]
  exact toNat_masked_lt _

@[simp] theorem fmtDec_value (v n : Nat) : (fmtDec v n).value = v % 10 ^ n := rfl

@[simp] theorem fmtDec_digits (v n : Nat) : (fmtDec v n).digits = n := rfl

/-- The characters depend on the value modulo `10^n` alone. -/
theorem decimalChar_mod (v n i : Nat) : decimalChar (v % 10 ^ n) n i = decimalChar v n i := by
  simp [decimalChar]

section
variable {c : Commit} {e : Engine}

theorem Commit.apply_keySound (hb : c.Bounded e) (hm : Memory.wf e.mem) (hp : e.params.wf = true)
    (h : e.KeySound) : (c.apply e).KeySound := by
  obtain ⟨-, hmax, -⟩ := (Params.wf_iff _).1 hp
  obtain ⟨hlen, hz⟩ := h
  rw [Engine.KeySound, Commit.apply_keyLen, Commit.apply_params]
  cases hk : c.key with
  | none =>
    refine ⟨hlen, fun i hi hle => ?_⟩
    rw [Commit.apply_keyByte hb hm hi, hk]
    exact hz i hi hle
  | some k =>
    have hkl := hb.key k hk
    have hn : (BitVec.ofNat 32 k.length).toNat = k.length := by
      rw [BitVec.toNat_ofNat, Nat.mod_eq_of_lt (by omega)]
    simp only [Option.elim_some, hn]
    refine ⟨hkl, fun i hi hle => ?_⟩
    rw [Commit.apply_keyByte hb hm hi, hk]
    exact List.getD_eq_default _ _ hle

theorem Commit.apply_truncSound (hb : c.Bounded e) (h : e.TruncSound) : (c.apply e).TruncSound := by
  rw [Engine.TruncSound, Commit.apply_dbc, Commit.apply_dbcRaw, Commit.apply_truncOffset]
  cases ht : c.trunc with
  | none => exact h
  | some t =>
    obtain ⟨d, rfl⟩ := hb.trunc t ht
    have := (truncate d).offset.isLt
    refine ⟨rfl, ?_⟩
    simp only [Option.elim_some, BitVec.toNat_setWidth]
    omega

/-- The value a commit set formats is a 31-bit one: DBC, or that of its own truncation. -/
theorem Commit.dec_eq (hb : c.Bounded e) (ht : e.TruncSound) {r : DecResult} (hr : c.dec = some r) :
    ∃ v n, r = fmtDec v n ∧ n ≤ 10 ∧ v < 2 ^ 31 := by
  obtain ⟨v, n, rfl, -, hn, hv⟩ := hb.dec r hr
  refine ⟨v, n, rfl, hn, ?_⟩
  rcases hv with rfl | ⟨t, hct, rfl⟩
  · exact ht.dbc_lt
  · obtain ⟨d, rfl⟩ := hb.trunc t hct
    exact toNat_masked_lt _

theorem Commit.apply_decSound (hb : c.Bounded e) (hm : Memory.wf e.mem) (ht : e.TruncSound)
    (h : e.DecSound) : (c.apply e).DecSound := by
  obtain ⟨hlen, hlt, hdig, hbytes⟩ := h
  rw [Engine.DecSound, Commit.apply_decLen, Commit.apply_decValue]
  cases hr : c.dec with
  | none =>
    refine ⟨hlen, hlt, hdig, fun i hi => ?_⟩
    rw [Commit.apply_decByte hb hm hi, hr]
    exact hbytes i hi
  | some r =>
    obtain ⟨v, n, rfl, hn, hv⟩ := Commit.dec_eq hb ht hr
    have hle : v % 10 ^ n ≤ v := Nat.mod_le _ _
    have hval : (BitVec.ofNat 32 (v % 10 ^ n)).toNat = v % 10 ^ n := by
      rw [BitVec.toNat_ofNat, Nat.mod_eq_of_lt (by omega)]
    have hdigits : (BitVec.ofNat 32 n).toNat = n := by
      rw [BitVec.toNat_ofNat, Nat.mod_eq_of_lt (by omega)]
    simp only [Option.elim_some, fmtDec_value, fmtDec_digits, hval, hdigits]
    refine ⟨hn, by omega, fun _ => Nat.mod_lt _ (Nat.pow_pos (by decide)), fun i hi => ?_⟩
    rw [Commit.apply_decByte hb hm hi, hr, decimalChar_mod]
    exact getD_fmtDec_chars v n i

theorem Commit.apply_steamSound (hb : c.Bounded e) (hm : Memory.wf e.mem) (h : e.SteamSound) :
    (c.apply e).SteamSound := by
  obtain ⟨hsym, hz⟩ := h
  have hbyte : ∀ i < 8, (c.apply e).bufferByte .steam i =
      c.steam.elim (e.bufferByte .steam i) (fun x => x.getD i 0x00) :=
    fun i hi => Commit.apply_steamByte hb hm hi
  cases hx : c.steam with
  | none =>
    simp only [hx, Option.elim_none] at hbyte
    refine ⟨hsym.imp (fun h i hi => ?_) (fun h i hi => ?_), fun i hi => ?_⟩
    · rw [hbyte i (by omega)]; exact h i hi
    · rw [hbyte i (by omega)]; exact h i hi
    · rw [hbyte _ (by omega)]; exact hz i hi
  | some x =>
    obtain rfl := hb.steam x hx
    simp only [hx, Option.elim_some, getD_fmtSteam] at hbyte
    refine ⟨.inr fun i hi => ?_, fun i hi => ?_⟩
    · rw [hbyte i (by omega), steamChar, if_pos hi]
      exact steamAlphabet_getD_mem (Nat.mod_lt _ (by decide))
    · rw [hbyte _ (by omega), steamChar, if_neg (by omega)]

theorem Commit.apply_resultsSound (hb : c.Bounded e) (hm : Memory.wf e.mem) (hp : e.params.wf = true)
    (h : e.ResultsSound) : (c.apply e).ResultsSound := by
  obtain ⟨hk, ht, hd, hs⟩ := h
  exact ⟨Commit.apply_keySound hb hm hp hk, Commit.apply_truncSound hb ht,
    Commit.apply_decSound hb hm ht hd, Commit.apply_steamSound hb hm hs⟩

end

/-! ### The memory stays sound -/

/-- Bytes stored inside one buffer keep the memory sound. -/
theorem memSound_writeBytes {p : Params} (hp : p.wf = true) {m : Memory} {a : Nat} {bs : List Byte}
    (b : Buffer) (hlo : b.base ≤ a) (hhi : a + bs.length ≤ b.base + b.size p)
    (h : ∀ c ∈ m, (Buffer.atOffset p c.1 1).isSome = true) :
    ∀ c ∈ Memory.writeBytes m a bs, (Buffer.atOffset p c.1 1).isSome = true := by
  intro c hc
  rcases Memory.mem_writeBytes hc with hc | ⟨h1, h2⟩
  · exact h c hc
  · rw [Buffer.atOffset_eq hp (b := b) (by decide) (by omega)]
    rfl

theorem memSound_storePart {p : Params} (hp : p.wf = true) {m : Memory} {o : Option (List Byte)}
    (b : Buffer) (hn : ∀ x, o = some x → x.length ≤ b.size p)
    (h : ∀ c ∈ m, (Buffer.atOffset p c.1 1).isSome = true) :
    ∀ c ∈ storePart b.base (b.size p) o m, (Buffer.atOffset p c.1 1).isSome = true := by
  cases o with
  | none => exact h
  | some x => exact memSound_writeBytes hp b le_rfl (by rw [length_padTo (hn x rfl)]) h

theorem Commit.apply_memSound {c : Commit} {e : Engine} (hb : c.Bounded e) (hp : e.params.wf = true)
    (h : e.MemSound) : (c.apply e).MemSound := by
  obtain ⟨hwf, hcells⟩ := h
  have hdec : ∀ x, c.dec.map DecResult.chars = some x → x.length ≤ Buffer.dec.size e.params := by
    intro x hx
    obtain ⟨r, hr, rfl⟩ := Option.map_eq_some_iff.1 hx
    obtain ⟨v, n, rfl, -, hn, -⟩ := hb.dec r hr
    rw [length_fmtDec_chars, Buffer.size]
    omega
  have hsteam : ∀ x, c.steam = some x → x.length ≤ Buffer.steam.size e.params := by
    intro x hx
    rw [hb.steam x hx, length_fmtSteam, Buffer.size]
    decide
  refine ⟨Commit.wf_apply c hwf, ?_⟩
  rw [Commit.apply_params, Commit.apply_mem]
  exact memSound_storePart hp .steam hsteam
    (memSound_storePart hp .dec hdec (memSound_storePart hp .key hb.key hcells))

theorem Engine.writeBuffer_memSound {e : Engine} {a n : Nat} (v : Word) (hp : e.params.wf = true)
    (hlo : 0x400 ≤ a) (hhi : a + n ≤ 0x400 + e.params.secretMax) (h : e.MemSound) :
    (e.writeBuffer a n v).MemSound :=
  ⟨Memory.wf_writeBytes h.1 _ _,
    memSound_writeBytes hp .secret hlo (by rwa [length_leBytes]) h.2⟩

/-! ### STATUS stays sound -/

/-- An error other than OUT_OF_MEMORY reports a code of 1 to 7, 5 excepted (10_state.md R39). -/
theorem ErrorCode.code_legal {x : ErrorCode} (h : x ≠ .outOfMemory) :
    x.code ≠ 0 ∧ x.code ≠ 5 ∧ x.code.toNat < 8 := by
  revert h
  cases x <;> decide

theorem Engine.markError_statusSound {x : ErrorCode} (h : x ≠ .outOfMemory) (e : Engine) :
    (e.markError x).StatusSound := by
  obtain ⟨h0, h5, h8⟩ := ErrorCode.code_legal h
  exact ⟨rfl, fun _ => rfl, iff_of_true h0 rfl, h5, h8⟩

theorem Engine.markSuccess_statusSound (e : Engine) : e.markSuccess.StatusSound := by
  simp [Engine.StatusSound]

theorem Engine.writeReg_statusSound {e : Engine} (v : Word) (r : Reg) (h : e.StatusSound) :
    (e.writeReg v r).StatusSound := by
  cases r
  case cmd => simp [Engine.writeReg, Engine.StatusSound]
  all_goals exact h

/-! ### Every event keeps the engine sound -/

theorem Engine.sound_iff (e : Engine) :
    e.Sound ↔ e.ParamsSound ∧ e.MemSound ∧ e.StatusSound ∧ e.ResultsSound := Iff.rfl

theorem Engine.reset_sound {p : Params} (hp : p.wf = true) : (Engine.reset p).Sound := by
  refine ⟨hp, ⟨Memory.wf_nil, by simp [Engine.reset]⟩, ?_, ?_, ?_, ?_, ?_⟩
  · simp [Engine.StatusSound, Engine.reset]
  · exact ⟨Nat.zero_le _, fun _ _ _ => rfl⟩
  · simp [Engine.TruncSound, Engine.reset]
  · exact ⟨Nat.zero_le _, Nat.two_pow_pos 31, fun h => absurd h (Nat.lt_irrefl 0), fun _ _ => rfl⟩
  · exact ⟨.inl fun _ _ => rfl, fun _ _ => rfl⟩

theorem complete_pending_sound {e : Engine} (h : e.Sound) : (e.complete (pendingResult e)).Sound := by
  obtain ⟨hp, hm, -, hr⟩ := (Engine.sound_iff e).1 h
  cases hx : pendingResult e with
  | error x =>
    exact (Engine.sound_iff _).2 ⟨hp, hm, e.markError_statusSound (pendingResult_error hx),
      (e.markError_sameResults x).sound hr⟩
  | ok c =>
    have hb := (pendingResult_bounded hx).1
    exact (Engine.sound_iff _).2 ⟨by simpa [Engine.ParamsSound] using hp,
      Commit.apply_memSound hb hp hm, Engine.markSuccess_statusSound _,
      Commit.apply_resultsSound hb hm.1 hp hr⟩

theorem busWrite_sound {e e' : Engine} {off : Offset} {n : Nat} {v : Word} (h : e.Sound)
    (hw : busWrite e off n v = .ok e') : e'.Sound := by
  obtain ⟨hp, hm, hs, hr⟩ := (Engine.sound_iff e).1 h
  have hres := (busWrite_sameResults hp hw).sound hr
  have hparams : e'.ParamsSound := by rwa [Engine.ParamsSound, busWrite_params hw]
  rcases (busWrite_ok hw).2 with ⟨r, -, -, -, rfl⟩ | ⟨-, hlo, hhi, rfl⟩
  · exact (Engine.sound_iff _).2 ⟨hparams, by simpa [Engine.MemSound] using hm,
      Engine.writeReg_statusSound v r hs, hres⟩
  · exact (Engine.sound_iff _).2 ⟨hparams, Engine.writeBuffer_memSound v hp hlo hhi hm, hs, hres⟩

/-! ### Every step, and so every run, keeps the state sound -/

theorem step_host_sound {s t : State} (hs : s.host.Sound) (h : step s = .next t) : t.host.Sound := by
  rcases step_host_cases h with e | ⟨r, hlt, e⟩ <;> rw [e]
  · exact hs
  · obtain ⟨hlen, -⟩ := hs
    exact ⟨by simp [hlen], hlt⟩

theorem step_sound {s t : State} (hs : s.Sound) (h : step s = .next t) : t.Sound := by
  obtain ⟨heng, hhost⟩ := hs
  refine ⟨?_, step_host_sound hhost h⟩
  rcases step_eng_cases h with e | ⟨-, off, n, v, -, hw⟩ | ⟨-, -, e⟩ | ⟨-, e⟩
  · rwa [e]
  · exact busWrite_sound heng hw
  · rw [e]; exact complete_pending_sound heng
  · rw [e]; exact Engine.reset_sound heng.1

/-- What every step keeps holds after every run. -/
theorem core_run_invariant {P : State → Prop} (hstep : ∀ s t, P s → step s = .next t → P t) {k : Nat}
    {s t : State} (hs : P s) (h : core.run k s = .next t) : P t := by
  induction k generalizing s with
  | zero =>
    injection h with h
    exact h ▸ hs
  | succ k ih =>
    rw [core_run_succ (step_eq s)] at h
    exact ih (hstep _ _ hs (step_eq s)) h

/-! ### The obligations of 10_state.md -/

/-- Settles O21: reset is sound, every step keeps a sound state sound, and a run is a sequence of steps. -/
theorem reachableStatesAreSound : Obligations.ReachableStatesAreSound := by
  intro p program schedule k t hp hrun
  exact core_run_invariant (fun _ _ => step_sound)
    ⟨Engine.reset_sound hp, rfl, Nat.zero_le _⟩ hrun

/-- Settles O23, class by class. -/
theorem eachClassOfStateHasItsOnlyWriters : Obligations.EachClassOfStateHasItsOnlyWriters := by
  intro s t hp hm h
  refine ⟨step_inputs_writers hp hm h, fun hc => ?_, step_cmd_status_writers h, step_id_caps h⟩
  rcases step_results_writers hp h with hsame | hw
  · rcases hc with hc | ⟨b, i, hb, hi, hc⟩
    · exact absurd hsame.results hc
    · exact absurd (hsame.bytes b i hb hi) hc
  · exact hw

/-- Settles O18: both registers are read-only, and CAPS is a function of the constant parameters. -/
theorem idAndCapsAreConstant : Obligations.IdAndCapsAreConstant := by
  refine ⟨fun e => ⟨busRead_reg e (r := .id) rfl, rfl⟩, fun e => busRead_reg e (r := .caps) rfl,
    fun e n v => ⟨busWrite_of_readOnly e (r := .id) rfl rfl n v,
      busWrite_of_readOnly e (r := .caps) rfl rfl n v⟩, fun e hp => ?_, fun e hmax => ?_,
    fun s t h => step_id_caps h⟩
  · exact ⟨capsWord_secretMax hp, capsWord_constants _⟩
  · rw [Engine.readReg, capsWord_eq, hmax]
    decide

end Sys2Proof.Machine

/-! PROOFS. The host bus: which accesses it accepts (20_memory.md R82 to R88), what a buffer access reads
and stores (R86), and what a refused line does (60_exceptions.md R409). -/

namespace Sys2Proof.Machine

/-! ### Offsets of registers and buffers -/

theorem Reg.mem_all (r : Reg) : r ∈ Reg.all := by cases r <;> decide

/-- The mapped register offsets. -/
theorem Reg.mem_offsets {a : Nat} : a ∈ Reg.all.map Reg.offset ↔ ∃ r : Reg, a = r.offset := by
  simp [Reg.mem_all, eq_comm]

/-- The offsets of CMD and of the input registers. -/
theorem Reg.mem_writable_offsets {a : Nat} :
    a ∈ (Reg.all.filter Reg.writable).map Reg.offset ↔
      ∃ r : Reg, a = r.offset ∧ r.writable = true := by
  simp only [List.mem_map, List.mem_filter, Reg.mem_all, true_and, and_comm, eq_comm]

/-- The ranges of the four buffers, one by one (10_state.md R30). -/
theorem Buffer.exists_range_iff (p : Params) (a n : Nat) :
    (∃ b : Buffer, b.base ≤ a ∧ a + n ≤ b.base + b.size p) ↔
      (0x080 ≤ a ∧ a + n ≤ 0x090) ∨ (0x090 ≤ a ∧ a + n ≤ 0x098) ∨
      (0x400 ≤ a ∧ a + n ≤ 0x400 + p.secretMax) ∨ (0x800 ≤ a ∧ a + n ≤ 0x800 + p.secretMax) := by
  constructor
  · rintro ⟨b, h⟩
    cases b with
    | dec => exact .inl h
    | steam => exact .inr (.inl h)
    | secret => exact .inr (.inr (.inl h))
    | key => exact .inr (.inr (.inr h))
  · rintro (h | h | h | h)
    · exact ⟨.dec, h⟩
    · exact ⟨.steam, h⟩
    · exact ⟨.secret, h⟩
    · exact ⟨.key, h⟩

theorem Buffer.base_mod_four (b : Buffer) : b.base % 4 = 0 := by cases b <;> rfl

/-- The buffers end inside the window, so the 12-bit offset of a buffer byte does not wrap (R80). -/
theorem Buffer.toNat_offset {p : Params} (hp : p.wf = true) {b : Buffer} {i : Nat}
    (hi : i < b.size p) : (BitVec.ofNat 12 (b.base + i)).toNat = b.base + i := by
  obtain ⟨-, hmax, -⟩ := (Params.wf_iff p).1 hp
  have hlt : b.base + i < 2 ^ 12 := by
    cases b <;> simp only [Buffer.base, Buffer.size] at hi ⊢ <;> omega
  rw [BitVec.toNat_ofNat, Nat.mod_eq_of_lt hlt]

/-! ### The accepted accesses -/

/-- An access is mapped exactly for a whole register, or for bytes of one buffer at a legal width and
alignment (R82 to R85). -/
theorem locate_ok_iff {p : Params} (hp : p.wf = true) (off : Offset) (n : Nat) :
    (∃ t, locate p off n = .ok t) ↔
      (n = 4 ∧ ∃ r : Reg, off.toNat = r.offset) ∨
      ((n = 1 ∨ n = 4 ∧ off.toNat % 4 = 0) ∧
        ∃ b : Buffer, b.base ≤ off.toNat ∧ off.toNat + n ≤ b.base + b.size p) := by
  constructor
  · rintro ⟨t, h⟩
    rcases locate_ok h with ⟨r, -, hn, hr⟩ | ⟨b, -, -, hn, hb⟩
    · exact .inl ⟨hn, r, hr⟩
    · exact .inr ⟨hn, b, Buffer.atOffset_some hb⟩
  · rintro (⟨rfl, r, hr⟩ | ⟨hn, b, hb⟩)
    · exact ⟨_, locate_reg p hr⟩
    · exact ⟨_, locate_buf hp hn hb⟩

/-- Every mapped access can be read (R88, R89). -/
theorem busRead_ok_iff (e : Engine) (off : Offset) (n : Nat) :
    (∃ r, busRead e off n = .ok r) ↔ ∃ t, locate e.params off n = .ok t := by
  unfold busRead
  cases locate e.params off n with
  | error f => simp
  | ok t => cases t <;> simp

/-- The write of a writable register of an idle engine is accepted (R87, R90). -/
theorem busWrite_reg {e : Engine} (hb : e.busy = false) {off : Offset} {r : Reg}
    (h : off.toNat = r.offset) (hr : r.writable = true) (v : Word) :
    busWrite e off 4 v = .ok (e.writeReg v r) := by
  simp [busWrite, locate_reg _ h, Target.writable, hr, hb]

/-- The write of SECRET_BUF bytes of an idle engine is accepted (R87, R90). -/
theorem busWrite_secret {e : Engine} (hp : e.params.wf = true) (hb : e.busy = false) {off : Offset}
    {n : Nat} (hn : n = 1 ∨ n = 4 ∧ off.toNat % 4 = 0) (hlo : 0x400 ≤ off.toNat)
    (hhi : off.toNat + n ≤ 0x400 + e.params.secretMax) (v : Word) :
    busWrite e off n v = .ok (e.writeBuffer off.toNat n v) := by
  simp [busWrite, locate_buf (b := .secret) hp hn ⟨hlo, hhi⟩, Target.writable, Buffer.writable, hb]

/-- The accepted writes (R82 to R85, R87, R88). -/
theorem busWrite_ok_iff {e : Engine} (hp : e.params.wf = true) (off : Offset) (n : Nat) (v : Word) :
    (∃ e', busWrite e off n v = .ok e') ↔ e.busy = false ∧
      ((n = 4 ∧ ∃ r : Reg, off.toNat = r.offset ∧ r.writable = true) ∨
        ((n = 1 ∨ n = 4 ∧ off.toNat % 4 = 0) ∧
          0x400 ≤ off.toNat ∧ off.toNat + n ≤ 0x400 + e.params.secretMax)) := by
  constructor
  · rintro ⟨e', h⟩
    obtain ⟨hb, ⟨r, hn, ho, hr, -⟩ | ⟨hn, hlo, hhi, -⟩⟩ := busWrite_ok h
    · exact ⟨hb, .inl ⟨hn, r, ho, hr⟩⟩
    · exact ⟨hb, .inr ⟨hn, hlo, hhi⟩⟩
  · rintro ⟨hb, ⟨rfl, r, ho, hr⟩ | ⟨hn, hlo, hhi⟩⟩
    · exact ⟨_, busWrite_reg hb ho hr v⟩
    · exact ⟨_, busWrite_secret hp hb hn hlo hhi v⟩

/-! ### The lines of the host -/

/-- A read line ends with what the bus answers (30_encoding.md R119). -/
theorem hostTurn_read {s : State} {off : Offset} {n : Nat}
    (h : s.host.program[s.host.pos]? = some (.read off n)) :
    hostTurn s = s.finishLine (readResponse (busRead s.eng off n)) := by
  rw [hostTurn, h]

/-- A refused write line ends with BUS_ERROR (60_exceptions.md R409). -/
theorem hostTurn_write_error {s : State} {off : Offset} {n : Nat} {v : Word} {f : Fault}
    (h : s.host.program[s.host.pos]? = some (.write off n v))
    (hf : busWrite s.eng off n v = .error f) : hostTurn s = s.finishLine .busError := by
  simp only [hostTurn, h, hf]

/-! ### What a buffer access reads and stores -/

section
variable {e : Engine} (hp : e.params.wf = true)
include hp

/-- An 8-bit read of a buffer returns the byte (R86). -/
theorem busRead_bufferByte {b : Buffer} {i : Nat} (hi : i < b.size e.params) :
    busRead e (BitVec.ofNat 12 (b.base + i)) 1 = .ok (.byte (e.bufferByte b i)) := by
  have ho := Buffer.toNat_offset hp hi
  rw [busRead, locate_buf hp (.inl rfl) (b := b) (by omega), ho]
  rfl

/-- An aligned 32-bit read of a buffer returns its four bytes as a little-endian word (R86). -/
theorem busRead_bufferWord {b : Buffer} {k : Nat} (hk : 4 * k + 4 ≤ b.size e.params) :
    busRead e (BitVec.ofNat 12 (b.base + 4 * k)) 4 =
      .ok (.word (le32 (e.bufferByte b (4 * k)) (e.bufferByte b (4 * k + 1))
        (e.bufferByte b (4 * k + 2)) (e.bufferByte b (4 * k + 3)))) := by
  have ho := Buffer.toNat_offset hp (b := b) (i := 4 * k) (by omega)
  have hal := b.base_mod_four
  rw [busRead, locate_buf hp (.inr ⟨rfl, by omega⟩) (b := b) (by omega), ho]
  rfl

/-- A write of one byte or of an aligned word of SECRET_BUF, by the index of its first byte (R86). -/
theorem busWrite_secretBytes (hb : e.busy = false) {i n : Nat} (hn : n = 1 ∨ n = 4 ∧ i % 4 = 0)
    (hi : i + n ≤ e.params.secretMax) (v : Word) :
    busWrite e (BitVec.ofNat 12 (0x400 + i)) n v = .ok (e.writeBuffer (0x400 + i) n v) := by
  have ho : (BitVec.ofNat 12 (0x400 + i)).toNat = 0x400 + i :=
    Buffer.toNat_offset hp (b := .secret) (i := i) (by rw [Buffer.size]; omega)
  rw [busWrite_secret hp hb (by omega) (by omega) (by omega), ho]

end

theorem getD_leBytes {n j : Nat} (h : j < n) (v : Word) :
    (leBytes n v).getD j 0x00 = v.extractLsb' (8 * j) 8 := by
  simp [leBytes, List.getD, h]

/-- Byte `j` of a stored value reads back at its address (R86). -/
theorem read_writeBuffer_self {e : Engine} (hm : Memory.wf e.mem) (a : Nat) {n j : Nat} (h : j < n)
    (v : Word) : Memory.read (e.writeBuffer a n v).mem (a + j) = v.extractLsb' (8 * j) 8 := by
  rw [Engine.writeBuffer_mem, Memory.read_writeBytes hm, length_leBytes, if_pos (by omega),
    Nat.add_sub_cancel_left, getD_leBytes h]

/-- A store leaves every byte outside it (R86). -/
theorem read_writeBuffer_of_out (e : Engine) {a n x : Nat} (v : Word) (h : x < a ∨ a + n ≤ x) :
    Memory.read (e.writeBuffer a n v).mem x = Memory.read e.mem x :=
  Memory.read_writeBytes_of_out (by rwa [length_leBytes])

/-! ### The obligations of 20_memory.md -/

/-- Settles O11: the written-out offsets are those of the register map and of the buffers. -/
theorem busAcceptsExactlyTheMappedAccesses : Obligations.BusAcceptsExactlyTheMappedAccesses := by
  refine ⟨fun e off n hp => ?_, fun e off n v hp => ?_, fun s off n f hl hf => ?_,
    fun s off n v f hl hf => hostTurn_write_error hl hf⟩
  · rw [busRead_ok_iff, locate_ok_iff hp, ← Reg.mem_offsets, Buffer.exists_range_iff]
    rfl
  · rw [busWrite_ok_iff hp, ← Reg.mem_writable_offsets]
    rfl
  · rw [hostTurn_read hl, hf]
    rfl

/-- Settles O12: BUSY takes no part in a read. -/
theorem pendingEngineRefusesWritesAndAnswersReads :
    Obligations.PendingEngineRefusesWritesAndAnswersReads := by
  intro s hb
  exact ⟨busWrite_of_busy hb, hostTurn_eng_of_busy hb, fun _ _ hr => busRead_reg _ hr,
    fun hp _ _ hi => busRead_bufferByte hp hi, fun hp _ _ hk => busRead_bufferWord hp hk⟩

/-- Settles O13: reads by `le32`, stores by `leBytes`. -/
theorem bufferWordsAreLittleEndian : Obligations.BufferWordsAreLittleEndian := by
  intro e hp hm
  refine ⟨fun b k hk => ⟨_, busRead_bufferWord hp hk, le32_toNat _ _ _ _⟩,
    fun b i hi => busRead_bufferByte hp hi, fun hb k v hk => ?_, fun hb i v hi => ?_⟩
  · exact ⟨_, busWrite_secretBytes hp hb (.inr ⟨rfl, Nat.mul_mod_right 4 k⟩) hk v,
      fun j hj => read_writeBuffer_self hm _ hj v, fun a ha => read_writeBuffer_of_out e v ha⟩
  · exact ⟨_, busWrite_secretBytes hp hb (.inl rfl) hi v,
      read_writeBuffer_self hm _ Nat.one_pos v,
      fun a ha => read_writeBuffer_of_out e (n := 1) v (Nat.lt_or_gt_of_ne ha)⟩

end Sys2Proof.Machine

/-! PROOFS. The decoder and the encoder (30_encoding.md R110 to R116), and what becomes of an illegal word:
its CMD write is accepted, and it completes with ILLEGAL_COMMAND (R115, 60_exceptions.md R408). -/

namespace Sys2Proof

/-! ### The fields of a word -/

/-- The three fields fill the word (R110). -/
theorem CommandFields.toWord_ofWord (w : Word) : (CommandFields.ofWord w).toWord = w := by
  have hraw : BitVec.ofBool (w.getLsbD 8) = w.extractLsb' 8 1 := by
    ext i hi
    simp [Nat.lt_one_iff.1 hi]
  calc w.extractLsb' 9 23 ++ BitVec.ofBool (w.getLsbD 8) ++ w.extractLsb' 0 8
    _ = w.extractLsb' 0 32 := by
      rw [hraw, BitVec.extractLsb'_append_extractLsb'_eq_extractLsb' (by decide : 9 = 8 + 1),
        BitVec.extractLsb'_append_extractLsb'_eq_extractLsb' (by decide : 8 = 0 + 8)]
    _ = w := BitVec.extractLsb'_eq_self

/-- What makes a word legal (R113, R114, R116). -/
theorem CommandFields.wf_iff (f : CommandFields) :
    f.wf = true ↔ f.rsvd = 0 ∧ f.opcode ∈ CommandFields.assigned ∧
      (f.rawkey = true → f.opcode ∈ CommandFields.keyed) := by
  simp [CommandFields.wf, and_assoc, or_iff_not_imp_left]

/-! ### Decoding and encoding -/

/-- Each row of the opcode map holds commands with the row's OPCODE (R112). -/
theorem opcodeMap_fields : ∀ r ∈ opcodeMap, r.plain.fields = ⟨r.opcode, false, 0⟩ ∧
    ∀ i ∈ r.raw, i.fields = ⟨r.opcode, true, 0⟩ := by decide

theorem commandOf_fields {opcode : BitVec 8} {rawkey : Bool} {i : Instr}
    (h : commandOf opcode rawkey = .ok i) : i.fields = ⟨opcode, rawkey, 0⟩ := by
  unfold commandOf at h
  split at h
  · cases h
  · rename_i r hr
    obtain ⟨hplain, hraw⟩ := opcodeMap_fields r (List.mem_of_find?_eq_some hr)
    have hop : r.opcode = opcode := by simpa using List.find?_some hr
    split at h
    · injection h with h
      rw [← h, hplain, hop]
    · rename_i hi
      injection h with h
      rw [← h, hraw _ hi, hop]
    · cases h

/-- Reserved bits first, then the opcode map (R114, R115). -/
theorem decode_eq (w : Word) :
    decode w = if (CommandFields.ofWord w).rsvd ≠ 0 then .error .reservedBits
      else commandOf (CommandFields.ofWord w).opcode (CommandFields.ofWord w).rawkey := rfl

/-- A decoded command has the fields of the word (R115). -/
theorem decode_fields {w : Word} {i : Instr} (h : decode w = .ok i) :
    i.fields = CommandFields.ofWord w := by
  rw [decode_eq] at h
  split at h
  · cases h
  · rename_i hrsvd
    rw [commandOf_fields h, ← not_not.1 hrsvd]

open Laws in
theorem roundTrip : ∀ i : Instr, RoundTrip.Statement i
  | .init => RoundTrip.init
  | .decode => RoundTrip.decode
  | .decodeRaw => RoundTrip.decodeRaw
  | .hmac => RoundTrip.hmac
  | .trunc => RoundTrip.trunc
  | .fmtDec => RoundTrip.fmtDec
  | .fmtSteam => RoundTrip.fmtSteam
  | .hotp => RoundTrip.hotp
  | .hotpRaw => RoundTrip.hotpRaw
  | .totp => RoundTrip.totp
  | .totpRaw => RoundTrip.totpRaw
  | .steam => RoundTrip.steam
  | .steamRaw => RoundTrip.steamRaw

/-- The decoder reads a command from that command's word alone (R115). -/
theorem decode_eq_ok_iff {w : Word} {i : Instr} : decode w = .ok i ↔ w = encode i := by
  constructor
  · intro h
    rw [encode, decode_fields h, CommandFields.toWord_ofWord]
  · rintro rfl
    exact (roundTrip i).2

/-! ### Legal and illegal words -/

/-- The opcode map gives a command for every OPCODE and RAWKEY of a legal word (R112, R113). -/
theorem commandOf_isOk : ∀ opcode ∈ CommandFields.assigned, ∀ rawkey : Bool,
    (rawkey = true → opcode ∈ CommandFields.keyed) → (commandOf opcode rawkey).isOk = true := by
  decide

/-- The decoder refuses exactly the words that are not well formed (R115). -/
theorem decode_eq_error_iff (w : Word) :
    (∃ x, decode w = .error x) ↔ ¬(CommandFields.ofWord w).wf = true := by
  cases h : decode w with
  | ok i =>
    rw [decode_eq_ok_iff.1 h]
    simpa using (roundTrip i).1
  | error x =>
    refine iff_of_true ⟨x, rfl⟩ fun hwf => ?_
    obtain ⟨hrsvd, hop, hraw⟩ := (CommandFields.wf_iff _).1 hwf
    have hok := commandOf_isOk _ hop _ hraw
    rw [decode_eq, if_neg (not_not.2 hrsvd)] at h
    rw [h] at hok
    cases hok

/-! ### The thirteen words -/

/-- The words of the opcode map, written out (R112). -/
def opcodeWords : List (Word × Instr) :=
  [(0x00000001, .init), (0x00000010, .decode), (0x00000110, .decodeRaw), (0x00000011, .hmac),
    (0x00000012, .trunc), (0x00000013, .fmtDec), (0x00000014, .fmtSteam), (0x00000020, .hotp),
    (0x00000120, .hotpRaw), (0x00000021, .totp), (0x00000121, .totpRaw), (0x00000022, .steam),
    (0x00000122, .steamRaw)]

theorem mem_opcodeWords {w : Word} {i : Instr} : (w, i) ∈ opcodeWords ↔ w = encode i := by
  have hwords : ∀ p ∈ opcodeWords, p.1 = encode p.2 := by decide
  constructor
  · exact hwords (w, i)
  · rintro rfl
    cases i <;> decide

end Sys2Proof

namespace Sys2Proof.Machine

/-! ### What becomes of an illegal word -/

/-- The CMD write of an idle engine issues the word, legal or not (R115). -/
theorem busWrite_cmd {e : Engine} (hb : e.busy = false) (w : Word) :
    busWrite e 0x008 4 w = .ok (e.issue w) :=
  busWrite_reg hb (r := .cmd) rfl rfl w

theorem busWrite_cmd_error_iff (e : Engine) (w : Word) :
    (∃ f, busWrite e 0x008 4 w = .error f) ↔ e.busy = true := by
  cases hb : e.busy with
  | false =>
    rw [busWrite_cmd hb]
    simp
  | true => exact iff_of_true (busWrite_of_busy hb _ _ _) rfl

/-- A pending illegal word completes with ILLEGAL_COMMAND (60_exceptions.md R408). -/
theorem engineTurn_of_illegal {s : State} {x : DecodeError} (hb : s.eng.busy = true)
    (hx : decode s.eng.cmd = .error x) :
    engineTurn s = .next { s with eng := s.eng.markError .illegalCommand } := by
  simp [engineTurn_eq, pendingResult, hb, hx]

/-! ### The obligations of 30_encoding.md -/

/-- Settles O1: the thirteen words are the encodings of the commands, and the decoder accepts no other. -/
theorem opcodeMapHoldsExactlyThirteenWords : Obligations.OpcodeMapHoldsExactlyThirteenWords := by
  intro w i
  exact decode_eq_ok_iff.trans mem_opcodeWords.symm

/-- Settles O4: a word is illegal exactly when its fields are not well formed; its issue and its completion
are those of any word. -/
theorem illegalWordsAreIssuedAndCompleteWithIllegalCommand :
    Obligations.IllegalWordsAreIssuedAndCompleteWithIllegalCommand := by
  refine ⟨fun w => ?_, fun w i h => ?_, fun _ w hb => busWrite_cmd hb w, busWrite_cmd_error_iff,
    fun _ _ hb hx => engineTurn_of_illegal hb hx⟩
  · rw [decode_eq_error_iff, CommandFields.wf_iff, not_and_or, not_and_or, Classical.not_imp]
    rfl
  · rw [decode_fields h]
    exact ⟨rfl, rfl⟩

end Sys2Proof.Machine

/-! PROOFS. Command control: the write of CMD (40_command_control.md R141, R142), the gating before INIT
(R150), and the repetition of INIT (R149). -/

namespace Sys2Proof.Machine

/-! ### The CMD write line -/

/-- An accepted write line stores, and records OK (30_encoding.md R119). -/
theorem hostTurn_write_ok {s : State} {off : Offset} {n : Nat} {v : Word} {e : Engine}
    (h : s.host.program[s.host.pos]? = some (.write off n v))
    (hw : busWrite s.eng off n v = .ok e) :
    hostTurn s = State.finishLine .ok { s with eng := e } := by
  simp only [hostTurn, h, hw]

/-! ### Gating -/

/-- Before INIT has completed, `Exec` of every other command answers UNINITIALIZED (R150). -/
theorem resultOf_of_not_initialized {i : Instr} {e : Engine} (hi : i ≠ .init)
    (h : e.initialized = false) : resultOf i e = .error .uninitialized := by
  cases i
  case init => exact absurd rfl hi
  all_goals exact gated_of_not_initialized h _

/-! ### INIT and the INITIALIZED field -/

/-- INIT sets INITIALIZED and reports success, from every state (R148). -/
theorem exec_init (s : State) :
    exec .init s = .next { s with eng := s.eng.commitInit.markSuccess } :=
  exec_of_ok (i := .init) rfl

theorem Engine.init_idempotent (e : Engine) :
    e.commitInit.markSuccess.commitInit.markSuccess = e.commitInit.markSuccess := rfl

/-- No completion clears INITIALIZED (10_state.md R38). -/
theorem Engine.complete_keeps_initialized {e : Engine} (h : e.initialized = true)
    (r : Except ErrorCode Commit) : (e.complete r).initialized = true := by
  cases r with
  | ok c => simp [h]
  | error x => simp [h]

/-! ### The obligations of 40_command_control.md -/

/-- Settles O26: the result of a gated command is UNINITIALIZED, and a failed completion changes STATUS
alone; an illegal word has no command to gate. -/
theorem uninitializedEngineRunsOnlyInit : Obligations.UninitializedEngineRunsOnlyInit := by
  refine ⟨fun s i hi hinit => ?_, fun s x hb _ hx => engineTurn_of_illegal hb hx⟩
  rw [exec_eq, resultOf_of_not_initialized hi hinit]
  rfl

/-- Settles O7: the bus accepts the write of CMD exactly while the engine is idle. -/
theorem commandWriteIssuesOrIsRefused : Obligations.CommandWriteIssuesOrIsRefused := by
  refine fun s w hl => ⟨fun hb => hostTurn_write_ok hl (busWrite_cmd hb w), fun hb => ?_⟩
  obtain ⟨f, hf⟩ := busWrite_of_busy hb 0x008 4 w
  exact hostTurn_write_error hl hf

/-- Settles O29: INIT's effect on STATUS is idempotent, and no completion clears INITIALIZED. -/
theorem initIsIdempotent : Obligations.InitIsIdempotent := by
  refine ⟨fun s t h => ?_, fun i s t h hinit => ?_⟩
  · rw [exec_init] at h
    injection h with h
    subst h
    refine ⟨?_, rfl, rfl⟩
    rw [exec_init, Engine.init_idempotent]
  · rw [exec_next h]
    exact Engine.complete_keeps_initialized hinit _

end Sys2Proof.Machine

/-! PROOFS. Base32 (41_base32.md): the length of a key (R176) and the case of a letter (R172). -/

namespace Sys2Proof.Machine

/-! ### The length of a key, exactly -/

/-- From fewer than 8 leftover bits, a run that succeeds makes a byte of every 8 of the bits it has and
reads; padding brings none. -/
theorem b32Loop_length {s : List Byte} {acc nbits : Nat} {key key' : List Byte} {p : Bool}
    (hn : nbits < 8) (h : b32Loop s acc nbits key p = .ok key') :
    key'.length = key.length + (nbits + 5 * (s.filter fun c => c != paddingByte).length) / 8 := by
  induction s generalizing acc nbits key p with
  | nil =>
    injection h with h
    subst h
    simp [Nat.div_eq_of_lt hn]
  | cons c cs ih =>
    rcases b32Loop_cons c cs acc nbits key p with
      ⟨hc, e⟩ | ⟨_, _, e⟩ | ⟨v, hc, _, _, h3, e⟩ | ⟨v, hc, _, _, h3, e⟩ <;> rw [e] at h
    · simpa [hc] using ih hn h
    · cases h
    · have hlen := ih (by omega) h
      simp only [List.length_append, List.length_singleton] at hlen
      rw [List.filter_cons_of_pos (by simpa using hc), List.length_cons]
      omega
    · have hlen := ih (by omega) h
      rw [List.filter_cons_of_pos (by simpa using hc), List.length_cons]
      omega

/-! ### The case of a letter -/

/-- A lowercase letter becomes its uppercase letter; any other byte stays (R172). -/
def upperCase (c : Byte) : Byte := if 0x61 ≤ c.toNat ∧ c.toNat ≤ 0x7A then c - 0x20 else c

theorem upperCase_toNat (c : Byte) : (upperCase c).toNat =
    if 0x61 ≤ c.toNat ∧ c.toNat ≤ 0x7A then c.toNat - 0x20 else c.toNat := by
  unfold upperCase
  split
  · bv_omega
  · rfl

@[simp] theorem symbolValue_upperCase (c : Byte) : symbolValue (upperCase c) = symbolValue c := by
  simp only [symbolValue, upperCase_toNat]
  by_cases hlower : 0x61 ≤ c.toNat ∧ c.toNat ≤ 0x7A
  · have hrange : 0x41 ≤ c.toNat - 0x20 ∧ c.toNat - 0x20 ≤ 0x5A := by omega
    have hupper : ¬(0x41 ≤ c.toNat ∧ c.toNat ≤ 0x5A) := by omega
    rw [if_pos hlower, if_pos hrange, if_neg hupper, if_pos hlower, Nat.sub_sub]
  · rw [if_neg hlower]

@[simp] theorem upperCase_eq_paddingByte_iff (c : Byte) : upperCase c = paddingByte ↔ c = paddingByte := by
  have hpad : paddingByte.toNat = 0x3D := rfl
  rw [← BitVec.toNat_inj, ← BitVec.toNat_inj, upperCase_toNat, hpad]
  split <;> omega

/-- The decoder sees a byte only through its symbol value and whether it is padding. -/
theorem b32Loop_map_upperCase (s : List Byte) (acc nbits : Nat) (key : List Byte) (p : Bool) :
    b32Loop (s.map upperCase) acc nbits key p = b32Loop s acc nbits key p := by
  induction s generalizing acc nbits key p with
  | nil => rfl
  | cons c cs ih =>
    simp only [List.map_cons, b32Loop, upperCase_eq_paddingByte_iff, symbolValue_upperCase, ih]

theorem b32Decode_map_upperCase (s : List Byte) : b32Decode (s.map upperCase) = b32Decode s :=
  b32Loop_map_upperCase s 0 0 [] false

/-! ### The obligations of 41_base32.md -/

/-- Settles O43: the decoder starts with no bits and an empty key, so its length law leaves
`5 * m / 8` bytes. -/
theorem decodedKeyLengthIsFiveEighths : Obligations.DecodedKeyLengthIsFiveEighths := by
  intro s key h
  simpa [paddingByte] using b32Loop_length (by omega) h

/-- Settles O44: a string decodes like its uppercase form, and these two strings have the same one. -/
theorem decodingIsCaseInsensitive : Obligations.DecodingIsCaseInsensitive := by
  intro s s' (h : s.map upperCase = s'.map upperCase)
  rw [← b32Decode_map_upperCase s, h, b32Decode_map_upperCase]

end Sys2Proof.Machine

/-! PROOFS. SHA-1 (42_hmac_sha1.md): the padding (R201), the message schedule (R204) and the rounds over the
blocks (R202, R206). -/

namespace Sys2Proof.Machine

/-! ### Padding and blocks -/

theorem length_sha1Pad (m : List Byte) :
    (sha1Pad m).length = m.length + 1 + (119 - m.length % 64) % 64 + 8 := by
  simp only [sha1Pad, List.length_append, List.length_singleton, List.length_replicate, length_be64]

/-- Compressing `n` whole blocks is the fold of the compression over them. -/
theorem sha1Blocks_eq_foldl (n : Nat) (m : List Byte) (hm : m.length = 64 * n) (h : Digest) :
    ∃ blocks : List (List Byte), blocks.flatten = m ∧ (∀ b ∈ blocks, b.length = 64) ∧
      sha1Blocks n m h = blocks.foldl sha1Compress h := by
  induction n generalizing m h with
  | zero => exact ⟨[], (List.eq_nil_of_length_eq_zero hm).symm, by simp, rfl⟩
  | succ n ih =>
    obtain ⟨blocks, hflat, hlen, hfold⟩ :=
      ih (m.drop 64) (by rw [List.length_drop]; omega) (sha1Compress h (m.take 64))
    refine ⟨m.take 64 :: blocks, ?_, ?_, hfold⟩
    · rw [List.flatten_cons, hflat, List.take_append_drop]
    · rw [List.forall_mem_cons, List.length_take]
      exact ⟨by omega, hlen⟩

/-! ### The words of a block -/

@[simp] theorem length_blockWords : ∀ block : List Byte,
    (blockWords block).length = block.length / 4
  | b0 :: b1 :: b2 :: b3 :: r => by
    simp only [blockWords, List.length_cons, length_blockWords r]
    omega
  | [] | [_] | [_, _] | [_, _, _] => by simp [blockWords]

/-- Word `t` of a block is its bytes `4t` to `4t + 3`, big-endian (R202). -/
theorem getD_blockWords {block : List Byte} {t : Nat} (h : 4 * t + 3 < block.length) :
    (blockWords block).getD t 0 =
      be32 (block.getD (4 * t) 0) (block.getD (4 * t + 1) 0) (block.getD (4 * t + 2) 0)
        (block.getD (4 * t + 3) 0) := by
  induction t generalizing block with
  | zero =>
    match block, h with
    | b0 :: b1 :: b2 :: b3 :: r, _ => rfl
  | succ t ih =>
    match block, h with
    | b0 :: b1 :: b2 :: b3 :: r, h => exact ih (block := r) (by simp only [List.length_cons] at h; omega)

/-! ### The message schedule -/

/-- The recurrence of R204 on a schedule listed newest word first: every word but the sixteen oldest is
`ROTL_1` of four older ones. -/
def FollowsRecurrence (ws : List Word) : Prop :=
  ∀ i, i + 16 < ws.length → ws.getD i 0 =
    rotl 1 (ws.getD (i + 3) 0 ^^^ ws.getD (i + 8) 0 ^^^ ws.getD (i + 14) 0 ^^^ ws.getD (i + 16) 0)

@[simp] theorem length_extendSchedule (n : Nat) (ws : List Word) :
    (extendSchedule n ws).length = n + ws.length := by
  induction n generalizing ws with
  | zero => simp [extendSchedule]
  | succ n ih => simp only [extendSchedule, ih, List.length_cons]; omega

/-- New words come in front; the words already there stay. -/
theorem suffix_extendSchedule (n : Nat) (ws : List Word) : ws <:+ extendSchedule n ws := by
  induction n generalizing ws with
  | zero => exact List.suffix_rfl
  | succ n ih => exact (List.suffix_cons _ ws).trans (ih _)

theorem followsRecurrence_extendSchedule (n : Nat) {ws : List Word} (h : FollowsRecurrence ws) :
    FollowsRecurrence (extendSchedule n ws) := by
  induction n generalizing ws with
  | zero => exact h
  | succ n ih =>
    refine ih fun i hi => ?_
    cases i with
    | zero => rfl
    | succ i => exact h i (by simp only [List.length_cons] at hi; omega)

/-- A schedule of at most sixteen words has no word that the recurrence makes. -/
theorem followsRecurrence_of_length_le {ws : List Word} (h : ws.length ≤ 16) : FollowsRecurrence ws :=
  fun _ hi => by omega

theorem length_extendSchedule_block {block : List Byte} (h : block.length = 64) :
    (extendSchedule 64 (blockWords block).reverse).length = 80 := by
  simp [h]

theorem length_messageSchedule {block : List Byte} (h : block.length = 64) :
    (messageSchedule block).length = 80 := by
  rw [messageSchedule, List.length_reverse, length_extendSchedule_block h]

/-- The schedule begins with the words of the block. -/
theorem messageSchedule_starts_with_blockWords (block : List Byte) :
    blockWords block <+: messageSchedule block := by
  rw [← List.reverse_suffix, messageSchedule, List.reverse_reverse]
  exact suffix_extendSchedule _ _

/-- Word `t` of the schedule, in the newest-first list that the recurrence extends. -/
theorem getD_messageSchedule {block : List Byte} (h : block.length = 64) {t : Nat} (ht : t < 80) :
    (messageSchedule block).getD t 0 =
      (extendSchedule 64 (blockWords block).reverse).getD (79 - t) 0 := by
  have hlen := length_extendSchedule_block h
  rw [messageSchedule, List.getD_eq_getElem?_getD, List.getD_eq_getElem?_getD,
    List.getElem?_reverse (by omega), hlen]

/-! ### The rounds -/

/-- The rounds are a fold over the round numbers, each with its word of the schedule. -/
theorem sha1Rounds_eq_foldl (ws : List Word) (t : Nat) (v : Digest) :
    sha1Rounds t ws v =
      (List.range ws.length).foldl (fun v i => sha1Round (t + i) (ws.getD i 0) v) v := by
  induction ws generalizing t v with
  | nil => rfl
  | cons w ws ih =>
    rw [sha1Rounds, ih, List.length_cons, List.range_succ_eq_map, List.foldl_cons, List.foldl_map]
    simp only [List.getD_cons_succ, Nat.add_right_comm t 1, Nat.add_assoc]
    rfl

/-! ### The obligations of SHA-1 -/

/-- Settles O47: the model's count of zero bytes is the least one. -/
theorem paddingReachesWholeBlocks : Obligations.PaddingReachesWholeBlocks := by
  refine fun m => ⟨(119 - m.length % 64) % 64, rfl, by omega, fun z' hz' => by omega, ?_⟩
  rw [length_sha1Pad]
  omega

/-- Settles O48: the schedule starts with the words of the block, and the recurrence is kept by every word
that extends it. -/
theorem messageScheduleFollowsItsRecurrence : Obligations.MessageScheduleFollowsItsRecurrence := by
  refine fun block h => ⟨length_messageSchedule h, fun t ht => ?_, fun t h16 h80 => ?_⟩
  · obtain ⟨later, happend⟩ := messageSchedule_starts_with_blockWords block
    rw [← getD_blockWords (by omega), ← happend, List.getD_append _ _ _ _ (by rw [length_blockWords]; omega)]
  · have hrec : FollowsRecurrence (extendSchedule 64 (blockWords block).reverse) :=
      followsRecurrence_extendSchedule 64 (followsRecurrence_of_length_le (by simp [h]))
    have hlen := length_extendSchedule_block h
    have hword := hrec (79 - t) (by rw [hlen]; omega)
    rw [getD_messageSchedule h h80, getD_messageSchedule h (by omega),
      getD_messageSchedule h (by omega), getD_messageSchedule h (by omega),
      getD_messageSchedule h (by omega), hword]
    congr 5 <;> omega

/-- Settles O49: the rounds and the blocks are folds; the schedule has a word for each of the 80 rounds, and
the padded message is whole blocks. -/
theorem compressionIsTheEightyRoundLoop : Obligations.CompressionIsTheEightyRoundLoop := by
  refine ⟨fun h block hlen => ⟨sha1Rounds 0 (messageSchedule block) h, ?_, rfl⟩, fun m => ?_⟩
  · rw [sha1Rounds_eq_foldl, length_messageSchedule hlen]
    simp only [Nat.zero_add]
    rfl
  · refine sha1Blocks_eq_foldl _ (sha1Pad m) ?_ sha1Init
    rw [length_sha1Pad]
    omega

end Sys2Proof.Machine

/-! PROOFS. HMAC (42_hmac_sha1.md): the key block (R208, R212), the nested hash (R209, R210) and the bytes of
a digest (R207). -/

namespace Sys2Proof.Machine

/-! ### The key block -/

theorem hmacKeyBlock_of_length_le {key : List Byte} (h : key.length ≤ 64) :
    hmacKeyBlock key = padTo 64 key := by
  rw [hmacKeyBlock, if_neg (by omega)]

theorem hmacKeyBlock_of_length_gt {key : List Byte} (h : 64 < key.length) :
    hmacKeyBlock key = padTo 64 (sha1 key).bytes := by
  rw [hmacKeyBlock, if_pos h]

/-- Zero bytes that padding would add anyway change nothing. -/
theorem padTo_append_zeros {n j : Nat} {s : List Byte} (h : s.length + j ≤ n) :
    padTo n (s ++ List.replicate j 0x00) = padTo n s := by
  rw [padTo, padTo, List.append_assoc, List.replicate_append_replicate, List.length_append,
    List.length_replicate]
  congr 2
  omega

/-- HMAC sees the key only through its key block. -/
theorem hmacSha1_congr {key key' : List Byte} (h : hmacKeyBlock key = hmacKeyBlock key')
    (msg : List Byte) : hmacSha1 key msg = hmacSha1 key' msg := by
  rw [hmacSha1, hmacSha1, h]

/-- Byte `j` of the key block under a pad (R208, R209). -/
theorem getD_xorPad_hmacKeyBlock (pad : Byte) (key : List Byte) {j : Nat} (h : j < 64) :
    (xorPad pad (hmacKeyBlock key)).getD j 0x00 =
      (if key.length > 64 then (sha1 key).bytes else key).getD j 0x00 ^^^ pad := by
  rw [getD_xorPad pad (by simpa using h), getD_hmacKeyBlock]

/-! ### The bytes of a digest -/

/-- Word `k` of a digest, as bits of its 160-bit number (R207). -/
theorem Digest.getD_words (d : Digest) {k : Nat} (h : k < 5) :
    [d.h0, d.h1, d.h2, d.h3, d.h4].getD k 0 = d.value.extractLsb' (128 - 32 * k) 32 := by
  obtain ⟨e0, e1, e2, e3, e4⟩ := d.value_words
  match k, h with
  | 0, _ => exact e0
  | 1, _ => exact e1
  | 2, _ => exact e2
  | 3, _ => exact e3
  | 4, _ => exact e4

/-- Byte `j` of word `k`, most significant first (R207). -/
theorem Digest.getD_bytes_of_word (d : Digest) {k j : Nat} (hk : k < 5) (hj : j < 4) :
    d.bytes.getD (4 * k + j) 0 =
      ([d.h0, d.h1, d.h2, d.h3, d.h4].getD k 0).extractLsb' (24 - 8 * j) 8 := by
  rw [d.getD_bytes (by omega), d.getD_words hk, extractLsb'_extractLsb' _ (by omega)]
  congr 1
  omega

/-! ### The obligations of HMAC -/

/-- Settles O51: equivalent keys have the same key block. A digest is 20 bytes, so it is not hashed again. -/
theorem equivalentKeysGiveTheSameDigest : Obligations.EquivalentKeysGiveTheSameDigest := by
  refine ⟨fun key msg j h => hmacSha1_congr ?_ msg, fun key msg h => hmacSha1_congr ?_ msg⟩
  · rw [hmacKeyBlock_of_length_le (by simpa using h), hmacKeyBlock_of_length_le (by omega),
      padTo_append_zeros h]
  · rw [hmacKeyBlock_of_length_gt h, hmacKeyBlock_of_length_le (by simp)]

/-- Settles O59: the inner and the outer block are the key block under its two pads. -/
theorem hmacIsTheNestedHashOfThePaddedKey : Obligations.HmacIsTheNestedHashOfThePaddedKey := by
  refine ⟨fun d => ⟨d.length_bytes, fun k hk j hj => d.getD_bytes_of_word hk hj⟩, fun key msg =>
    ⟨xorPad 0x36 (hmacKeyBlock key), xorPad 0x5C (hmacKeyBlock key), by simp, by simp,
      fun j hj => ⟨?_, ?_⟩, rfl⟩⟩
  · exact getD_xorPad_hmacKeyBlock 0x36 key hj
  · exact getD_xorPad_hmacKeyBlock 0x5C key hj

end Sys2Proof.Machine

/-! PROOFS. Dynamic truncation (43_truncation.md): the offset (R241), the window and its place in the digest
(R242, R243), and the mask (R244). -/

namespace Sys2Proof.Machine

/-! ### The offset -/

/-- The low nibble of a byte is the byte modulo 16 (R241). -/
theorem truncOffsetOf_toNat (d : List Byte) : (truncOffsetOf d).toNat = (d.getD 19 0).toNat % 16 := by
  rw [truncOffsetOf, BitVec.extractLsb'_toNat, Nat.shiftRight_zero]

/-- Byte 19 is the low byte of DIGEST4 (10_state.md R48). -/
theorem Digest.getD_bytes_last (d : Digest) : d.bytes.getD 19 0 = d.h4.extractLsb' 0 8 :=
  d.getD_bytes_of_word (k := 4) (j := 3) (by decide) (by decide)

/-- The offset as the low nibble of DIGEST4 (R241). -/
theorem truncOffsetOf_bytes (d : Digest) : truncOffsetOf d.bytes = d.h4.extractLsb' 0 4 := by
  rw [truncOffsetOf, d.getD_bytes_last, extractLsb'_extractLsb' _ (by decide)]

/-! ### The mask -/

/-- Clearing bit 31 is reduction modulo `2^31` (R244). -/
theorem toNat_masked (x : Word) : (x &&& 0x7FFFFFFF).toNat = x.toNat % 2 ^ 31 := by
  rw [BitVec.toNat_and]
  exact Nat.and_two_pow_sub_one_eq_mod x.toNat 31

/-! ### The obligation of 43_truncation.md -/

/-- Settles O52: the offset has four bits, so the window ends at byte `15 + 3` at the latest. -/
theorem truncationWindowLiesInsideTheDigest : Obligations.TruncationWindowLiesInsideTheDigest := by
  intro d
  have hlast : (truncate d.bytes).offset.toNat + 3 ≤ 18 := by
    have := (truncate d.bytes).offset.isLt
    omega
  exact ⟨hlast, truncOffsetOf_toNat d.bytes, truncOffsetOf_bytes d, be32_toNat _ _ _ _, toNat_masked _⟩

end Sys2Proof.Machine

/-! PROOFS. The decimal output stage (44_hotp_decimal.md): the characters of the code (R260, R262), the number
they spell, and what a decimal command leaves in DEC_LEN, DEC_BUF and DEC_VALUE (R264). -/

namespace Sys2Proof.Machine

/-! ### The characters of the code -/

theorem fmtDec_chars (v n : Nat) : (fmtDec v n).chars = (List.range n).map (decimalChar v n) := by
  refine List.map_congr_left fun i hi => ?_
  rw [decimalChar, if_pos (List.mem_range.1 hi)]

/-- A character is `'0'` plus its decimal digit, a byte that does not wrap (R260). -/
theorem decimalChar_toNat {v n i : Nat} (h : i < n) :
    (decimalChar v n i).toNat = 0x30 + v % 10 ^ n / 10 ^ (n - 1 - i) % 10 := by
  rw [decimalChar, if_pos h, BitVec.toNat_ofNat, Nat.mod_eq_of_lt (by omega)]

/-- The digits stand at the first `n` indices and nowhere else (R262, R263). -/
theorem decimalChar_isDigit_iff (v n i : Nat) :
    (0x30 ≤ (decimalChar v n i).toNat ∧ (decimalChar v n i).toNat ≤ 0x39) ↔ i < n := by
  by_cases h : i < n
  · rw [decimalChar_toNat h]
    omega
  · simp [decimalChar, h]

/-! ### The number they spell -/

/-- The first `m` characters spell the `m` leading digits of `v mod 10^n`. -/
theorem decimalChar_prefix_value (v n : Nat) {m : Nat} (h : m ≤ n) :
    ((List.range m).map (decimalChar v n)).foldl (fun a c => a * 10 + (c.toNat - 0x30)) 0 =
      v % 10 ^ n / 10 ^ (n - m) := by
  induction m with
  | zero => exact (Nat.div_eq_of_lt (Nat.mod_lt _ (Nat.pow_pos (by decide)))).symm
  | succ m ih =>
    have hweight : n - m = n - 1 - m + 1 := by omega
    have hrest : n - (m + 1) = n - 1 - m := by omega
    rw [List.range_succ, List.map_append, List.foldl_append, ih (by omega)]
    simp only [List.map_cons, List.map_nil, List.foldl_cons, List.foldl_nil]
    rw [decimalChar_toNat h, Nat.add_sub_cancel_left, hweight, hrest, Nat.pow_succ,
      ← Nat.div_div_eq_div_mul, Nat.div_add_mod']

/-- All `n` characters spell `v mod 10^n` (R262). -/
theorem decimalChars_value (v n : Nat) :
    ((List.range n).map (decimalChar v n)).foldl (fun a c => a * 10 + (c.toNat - 0x30)) 0 =
      v % 10 ^ n := by
  rw [decimalChar_prefix_value v n le_rfl, Nat.sub_self, Nat.pow_zero, Nat.div_one]

/-! ### What a decimal command commits -/

theorem hotpCore_commits_decimal {raw : Bool} {k : DWord} {e : Engine} {c : Commit}
    (h : hotpCore raw k e = .ok c) :
    e.digits.toNat ≤ 10 ∧ ∃ v < 2 ^ 31, c.dec = some (fmtDec v e.digits.toNat) := by
  obtain ⟨⟨-, hn⟩, key, -, rfl⟩ := hotpCore_ok h
  exact ⟨hn, _, toNat_masked_lt _, rfl⟩

theorem fmtDecCommand_commits_decimal {e : Engine} {c : Commit} (hdbc : e.dbc.toNat < 2 ^ 31)
    (h : fmtDecCommand e = .ok c) :
    e.digits.toNat ≤ 10 ∧ ∃ v < 2 ^ 31, c.dec = some (fmtDec v e.digits.toNat) := by
  rw [fmtDecCommand_eq] at h
  split_ifs at h with hd
  injection h with h
  exact ⟨hd.2, _, hdbc, h ▸ rfl⟩

/-- A decimal command that answers `Ok` commits the DIGITS-digit code of a 31-bit value: DBC, or the code of
the digest it computed (R265, R266). -/
theorem resultOf_commits_decimal {i : Instr} {e : Engine} {c : Commit} (hi : i ∈ decimalCommands)
    (hdbc : e.dbc.toNat < 2 ^ 31) (h : resultOf i e = .ok c) :
    e.digits.toNat ≤ 10 ∧ ∃ v < 2 ^ 31, c.dec = some (fmtDec v e.digits.toNat) := by
  simp only [decimalCommands, List.mem_cons, List.not_mem_nil, or_false] at hi
  rcases hi with rfl | rfl | rfl | rfl | rfl
  · exact fmtDecCommand_commits_decimal hdbc (gated_ok h).2
  · exact hotpCore_commits_decimal (gated_ok h).2
  · exact hotpCore_commits_decimal (gated_ok h).2
  · exact hotpCore_commits_decimal (totpCommand_ok (gated_ok h).2).2
  · exact hotpCore_commits_decimal (totpCommand_ok (gated_ok h).2).2

/-- DEC_BUF after the commit of a code: its characters, then 0x00 (R263). -/
theorem Commit.apply_decByte_of_fmtDec {c : Commit} {e : Engine} (hb : c.Bounded e)
    (hm : Memory.wf e.mem) {v n : Nat} (hc : c.dec = some (fmtDec v n)) {j : Nat} (hj : j < 16) :
    (c.apply e).bufferByte .dec j = decimalChar v n j := by
  rw [Commit.apply_decByte hb hm hj, hc]
  exact getD_fmtDec_chars v n j

/-! ### The obligations of 44_hotp_decimal.md -/

/-- Settles O53: the characters are the digits of `v mod 10^n`, one for each of the `n` weights. -/
theorem decimalCharactersSpellTheCode : Obligations.DecimalCharactersSpellTheCode := by
  refine fun v n _ _ => ⟨length_fmtDec_chars v n, fun c hc => ?_, fmtDec_value v n, ?_⟩
  · rw [fmtDec_chars] at hc
    obtain ⟨i, hi, rfl⟩ := List.mem_map.1 hc
    exact (decimalChar_isDigit_iff v n i).2 (List.mem_range.1 hi)
  · rw [fmtDec_chars]
    exact decimalChars_value v n

/-- Settles O54: the command commits a code of DIGITS digits, and DEC_BUF is its characters. A 31-bit value
fits DEC_VALUE, and ten digits fit DEC_BUF. -/
theorem decimalResultHasExactlyDigitsCharacters : Obligations.DecimalResultHasExactlyDigitsCharacters := by
  intro i s t hi hm hdbc h he
  obtain ⟨c, hr, rfl⟩ := exec_ok_cases h he
  obtain ⟨hn, v, hv, hc⟩ := resultOf_commits_decimal hi hdbc hr
  have hbyte : ∀ j < 16, (c.apply s.eng).markSuccess.bufferByte .dec j =
      decimalChar v s.eng.digits.toNat j :=
    fun j hj => Commit.apply_decByte_of_fmtDec (resultOf_bounded hr).1 hm hc hj
  have hbytes : (c.apply s.eng).markSuccess.bufferBytes .dec s.eng.digits.toNat =
      (List.range s.eng.digits.toNat).map (decimalChar v s.eng.digits.toNat) :=
    List.map_congr_left fun j hj => hbyte j (by have := List.mem_range.1 hj; omega)
  refine ⟨by simp [hc], fun j hj => ?_, ?_⟩
  · rw [hbyte j hj, decimalChar_isDigit_iff]
  · have hfits : v % 10 ^ s.eng.digits.toNat < 2 ^ 32 := (Nat.mod_le _ _).trans_lt (by omega)
    rw [hbytes, decimalChars_value, Engine.markSuccess_decValue, Commit.apply_decValue, hc,
      Option.elim_some, fmtDec_value, BitVec.toNat_ofNat, Nat.mod_eq_of_lt hfits]

end Sys2Proof.Machine

/-! PROOFS. TOTP (45_totp.md): the time-step counters (R290, 46_steam.md R317), and the composition law that makes
TOTP the HOTP of the time step (R293). -/

namespace Sys2Proof.Machine

/-! ### The time-step counters -/

/-- `x[TIME]` as a number (10_state.md R44). -/
theorem Engine.time_toNat (e : Engine) : e.time.toNat = e.timeHi.toNat * 2 ^ 32 + e.timeLo.toNat := by
  rw [Engine.time, BitVec.toNat_append, ← Nat.shiftLeft_add_eq_or_of_lt e.timeLo.isLt, Nat.shiftLeft_eq]

/-- A quotient of TIME is at most TIME, so it fits the 64-bit counter. -/
theorem Engine.toNat_ofNat_time_div (e : Engine) (p : Nat) :
    (BitVec.ofNat 64 (e.time.toNat / p)).toNat = e.time.toNat / p := by
  rw [BitVec.toNat_ofNat, Nat.mod_eq_of_lt ((Nat.div_le_self _ _).trans_lt e.time.isLt)]

/-- The TOTP counter does not wrap (R290). -/
theorem Engine.totpCounter_toNat (e : Engine) :
    e.totpCounter.toNat = e.time.toNat / e.period.toNat := e.toNat_ofNat_time_div _

/-- The Steam counter does not wrap (R317). -/
theorem Engine.steamCounter_toNat (e : Engine) : e.steamCounter.toNat = e.time.toNat / 30 :=
  e.toNat_ofNat_time_div _

/-! ### An engine with another COUNTER -/

/-- The engine with the pair COUNTER_LO, COUNTER_HI replaced (10_state.md R43). -/
def Engine.setCounter (lo hi : Word) (e : Engine) : Engine := { e with counterLo := lo, counterHi := hi }

/-- The pair reads back as the 64-bit value whose halves it holds. -/
theorem Engine.counter_setCounter (c : DWord) (e : Engine) :
    (e.setCounter (c.extractLsb' 0 32) (c.extractLsb' 32 32)).counter = c :=
  (BitVec.extractLsb'_append_extractLsb'_eq_extractLsb' (by decide : 32 = 0 + 32)).trans
    BitVec.extractLsb'_eq_self

/-- No part of a commit set and no STATUS update reads or writes COUNTER. -/
theorem Engine.complete_setCounter (r : Except ErrorCode Commit) (lo hi : Word) (e : Engine) :
    (e.setCounter lo hi).complete r = (e.complete r).setCounter lo hi := by
  cases r with
  | ok c =>
    exact Engine.complete_comm (g := Engine.setCounter lo hi) (fun _ => rfl) (fun _ _ => rfl)
      (fun _ _ => rfl) (fun _ _ => rfl) (fun _ _ => rfl) (fun _ _ => rfl) (fun _ => rfl) c e
  | error x => rfl

/-- A completion after COUNTER was replaced differs from one without in COUNTER alone. -/
theorem Engine.complete_setCounter_restore (r : Except ErrorCode Commit) (lo hi : Word) (e : Engine) :
    ((e.setCounter lo hi).complete r).setCounter e.counterLo e.counterHi = e.complete r := by
  rw [Engine.complete_setCounter]
  exact (e.complete_setCounter r e.counterLo e.counterHi).symm

/-! ### The result of TOTP -/

/-- HOTP's result depends on COUNTER only through the counter passed to `HotpCore` (44_hotp_decimal.md R266). -/
theorem gated_hotpCore_setCounter (raw : Bool) (c : DWord) (lo hi : Word) (e : Engine) :
    gated (e.setCounter lo hi) (hotpCore raw c (e.setCounter lo hi)) = gated e (hotpCore raw c e) := rfl

/-- The engine with the TOTP counter in COUNTER. -/
def Engine.atTimeStep (e : Engine) : Engine :=
  e.setCounter (e.totpCounter.extractLsb' 0 32) (e.totpCounter.extractLsb' 32 32)

/-- With PERIOD not 0, the result of TOTP is that of HOTP once COUNTER holds the time step (R293). -/
theorem resultOf_totp_eq_hotp {i j : Instr} {e : Engine}
    (hij : (i, j) ∈ [(Instr.totp, Instr.hotp), (Instr.totpRaw, Instr.hotpRaw)]) (hp : e.period ≠ 0) :
    resultOf i e = resultOf j e.atTimeStep := by
  have hcore (raw : Bool) : gated e (totpCommand raw e) =
      gated e.atTimeStep (hotpCore raw e.atTimeStep.counter e.atTimeStep) := by
    rw [totpCommand_eq, if_neg hp, Engine.atTimeStep, Engine.counter_setCounter, gated_hotpCore_setCounter]
  simp only [List.mem_cons, Prod.mk.injEq, List.not_mem_nil, or_false] at hij
  rcases hij with ⟨rfl, rfl⟩ | ⟨rfl, rfl⟩
  · exact hcore false
  · exact hcore true

/-- With PERIOD = 0, the PERIOD check is the one that answers, whatever DIGITS and SECRET_LEN hold (R292). -/
theorem resultOf_totp_of_period_eq_zero {i : Instr} {e : Engine} (hi : i ∈ [Instr.totp, .totpRaw])
    (hinit : e.initialized = true) (hp : e.period = 0) : resultOf i e = .error .invalidPeriod := by
  have hcore (raw : Bool) : gated e (totpCommand raw e) = .error .invalidPeriod := by
    rw [gated_of_initialized hinit, totpCommand_eq, if_pos hp]
  simp only [List.mem_cons, List.not_mem_nil, or_false] at hi
  rcases hi with rfl | rfl
  · exact hcore false
  · exact hcore true

/-! ### The obligations of 45_totp.md -/

/-- Settles O39: HOTP at the time step has the result of TOTP, and its completion differs in COUNTER alone. -/
theorem totpIsHotpAtTheTimeStep : Obligations.TotpIsHotpAtTheTimeStep := by
  refine ⟨fun s t u i j c hij hp hc ht hu => ?_, fun s i hi hinit hp => ?_⟩
  · obtain rfl : c = s.eng.totpCounter :=
      BitVec.eq_of_toNat_eq (hc.trans s.eng.totpCounter_toNat.symm)
    obtain rfl := exec_next ht
    obtain rfl := exec_next hu
    rw [resultOf_totp_eq_hotp hij hp]
    exact congrArg (fun e => { s with eng := e }) (s.eng.complete_setCounter_restore _ _ _).symm
  · rw [exec_eq, resultOf_totp_of_period_eq_zero hi hinit hp]
    rfl

/-- Settles O57: a quotient of a 64-bit value is at most that value. -/
theorem timeStepCountersAreExactQuotients : Obligations.TimeStepCountersAreExactQuotients := by
  intro e
  rw [← e.time_toNat, e.totpCounter_toNat, e.steamCounter_toNat]
  exact ⟨rfl, Nat.div_le_self _ _, rfl⟩

end Sys2Proof.Machine

/-! PROOFS. The Steam output stage (46_steam.md): the digits of the code (R312, R319), the registers the Steam
commands do not read (R314), and what they leave in STEAM_BUF (R318). -/

namespace Sys2Proof.Machine

/-! ### The digits of the code -/

/-- The `n` least significant base-26 digits of a value are those of its remainder modulo `26^n` (R319). -/
theorem steamDigits_mod (n v : Nat) : steamDigits n (v % 26 ^ n) = steamDigits n v := by
  induction n generalizing v with
  | zero => rfl
  | succ n ih =>
    have hlow : v % (26 * 26 ^ n) % 26 = v % 26 := Nat.mod_mul_right_mod v 26 (26 ^ n)
    have hrest : v % (26 * 26 ^ n) / 26 = v / 26 % 26 ^ n := Nat.mod_mul_right_div_self v 26 (26 ^ n)
    rw [Nat.pow_succ', steamDigits, steamDigits, hlow, hrest, ih]

/-- The code of a value is that of its remainder modulo `26^5` (R319). -/
theorem fmtSteam_mod (v : Nat) : fmtSteam (v % 26 ^ 5) = fmtSteam v := steamDigits_mod 5 v

/-! ### An engine with another DIGITS and PERIOD -/

/-- The engine with DIGITS and PERIOD replaced (10_state.md R41, R42). -/
def Engine.setDigitsPeriod (digits period : Word) (e : Engine) : Engine :=
  { e with digits := digits, period := period }

/-- No part of a commit set and no STATUS update reads or writes DIGITS or PERIOD. -/
theorem Engine.complete_setDigitsPeriod (r : Except ErrorCode Commit) (digits period : Word) (e : Engine) :
    (e.setDigitsPeriod digits period).complete r = (e.complete r).setDigitsPeriod digits period := by
  cases r with
  | ok c =>
    exact Engine.complete_comm (g := Engine.setDigitsPeriod digits period) (fun _ => rfl) (fun _ _ => rfl)
      (fun _ _ => rfl) (fun _ _ => rfl) (fun _ _ => rfl) (fun _ _ => rfl) (fun _ => rfl) c e
  | error x => rfl

/-! ### The result of a Steam command -/

/-- The Steam commands, one by one. -/
theorem mem_steamCommands {i : Instr} : i ∈ steamCommands ↔ i = .fmtSteam ∨ i = .steam ∨ i = .steamRaw := by
  simp only [steamCommands, List.mem_cons, List.not_mem_nil, or_false]

/-- The result of a Steam command is a function of other registers than DIGITS and PERIOD (R314). -/
theorem resultOf_steam_setDigitsPeriod {i : Instr} (hi : i ∈ steamCommands) (digits period : Word)
    (e : Engine) : resultOf i (e.setDigitsPeriod digits period) = resultOf i e := by
  rcases mem_steamCommands.1 hi with rfl | rfl | rfl
  · rfl
  · rfl
  · rfl

/-- A Steam command that answers `Ok` commits the code of the DBC it leaves: the one it found, or that of the
digest it computed (R315, R316). -/
theorem resultOf_commits_steam {i : Instr} {e : Engine} {c : Commit} (hi : i ∈ steamCommands)
    (h : resultOf i e = .ok c) : c.steam = some (fmtSteam (c.apply e).dbc.toNat) := by
  have steams {raw : Bool} (h : steamCommand raw e = .ok c) : c.steam.isSome := by
    obtain ⟨key, -, rfl⟩ := steamCommand_ok h
    rfl
  have hsome : c.steam.isSome := by
    rcases mem_steamCommands.1 hi with rfl | rfl | rfl
    · obtain ⟨⟩ := (gated_ok h).2
      rfl
    · exact steams (gated_ok h).2
    · exact steams (gated_ok h).2
  obtain ⟨x, hx⟩ := Option.isSome_iff_exists.1 hsome
  rw [hx, (resultOf_bounded h).1.steam x hx]

/-- STEAM_BUF after the commit of a code: its symbols, then 0x00 (R313). -/
theorem Commit.apply_steamByte_of_fmtSteam {c : Commit} {e : Engine} (hb : c.Bounded e)
    (hm : Memory.wf e.mem) {v : Nat} (hc : c.steam = some (fmtSteam v)) {j : Nat} (hj : j < 8) :
    (c.apply e).bufferByte .steam j = steamChar v j := by
  rw [Commit.apply_steamByte hb hm hj, hc]
  exact getD_fmtSteam v j

/-! ### The obligations of 46_steam.md -/

/-- Settles O41: the Steam commands have the same result with another DIGITS and PERIOD, and its completion
leaves both registers. -/
theorem steamIgnoresDigitsAndPeriod : Obligations.SteamIgnoresDigitsAndPeriod := by
  intro s t i digits period hi h
  obtain rfl := exec_next h
  have hc : (s.eng.setDigitsPeriod digits period).complete
        (resultOf i (s.eng.setDigitsPeriod digits period)) =
      (s.eng.complete (resultOf i s.eng)).setDigitsPeriod digits period := by
    rw [resultOf_steam_setDigitsPeriod hi, Engine.complete_setDigitsPeriod]
  rw [exec_eq]
  exact congrArg (fun e => Host.Outcome.next { s with eng := e }) hc

/-- Settles O55: the command commits the five symbols of the DBC it leaves, and reset leaves no byte set. -/
theorem steamCodeIsFiveAlphabetSymbols : Obligations.SteamCodeIsFiveAlphabetSymbols := by
  refine ⟨rfl, fun _ _ => rfl, fun i s t hi hm h he => ?_⟩
  obtain ⟨c, hr, rfl⟩ := exec_ok_cases h he
  have hbyte : ∀ j < 8, (c.apply s.eng).markSuccess.bufferByte .steam j =
      steamChar (c.apply s.eng).dbc.toNat j :=
    fun j hj => Commit.apply_steamByte_of_fmtSteam (resultOf_bounded hr).1 hm
      (resultOf_commits_steam hi hr) hj
  refine ⟨fun j hj => ?_, fun j hj => ?_⟩
  · rw [hbyte j (by omega), steamChar, if_pos hj]
    exact ⟨steamAlphabet_getD_mem (Nat.mod_lt _ (by decide)), rfl⟩
  · rw [hbyte (5 + j) (by omega), steamChar, if_neg (by omega)]

/-- Settles O56: the five divisions drop all but the remainder modulo `26^5`. -/
theorem steamCodeDependsOnlyModuloTwentySixToTheFive :
    Obligations.SteamCodeDependsOnlyModuloTwentySixToTheFive := by
  refine fun v => ⟨(fmtSteam_mod v).symm, ?_, by decide⟩
  rw [← fmtSteam_mod (v + 26 ^ 5), Nat.add_mod_right, fmtSteam_mod]

end Sys2Proof.Machine

/-! PROOFS. Exceptions (60_exceptions.md): what an error completion leaves (R410), which error it reports (R411),
and when the base32 decoding fails (R402). -/

namespace Sys2Proof.Machine

/-! ### The ERRCODE of a result -/

/-- What the completion of a result leaves in ERRCODE: 0 for `Ok`, the code of the error otherwise (R401, R410). -/
def reportedCode {α : Type} : Except ErrorCode α → BitVec 4
  | .ok _ => 0
  | .error x => x.code

@[simp] theorem reportedCode_ok {α : Type} (a : α) :
    reportedCode (.ok a : Except ErrorCode α) = 0 := rfl

@[simp] theorem reportedCode_error {α : Type} (x : ErrorCode) :
    reportedCode (.error x : Except ErrorCode α) = x.code := rfl

@[simp] theorem Engine.complete_errcode (e : Engine) (r : Except ErrorCode Commit) :
    (e.complete r).errcode = reportedCode r := by cases r <;> rfl

theorem ErrorCode.code_ne_zero (x : ErrorCode) : x.code ≠ 0 := by cases x <;> decide

/-- The codes of the errors that a command reports: OUT_OF_MEMORY is reserved (R401, R406). -/
theorem ErrorCode.code_mem {x : ErrorCode} (h : x ≠ .outOfMemory) :
    x.code ∈ ([1, 2, 3, 4, 6, 7] : List (BitVec 4)) := by
  revert h
  cases x <;> decide

/-- ERROR is 1 exactly when ERRCODE is not 0 (10_state.md R39). -/
theorem Engine.complete_error_iff (e : Engine) (r : Except ErrorCode Commit) :
    (e.complete r).error = true ↔ (e.complete r).errcode ≠ 0 := by
  cases r with
  | ok c => simp
  | error x => exact iff_of_true rfl x.code_ne_zero

/-- The next state of a completion (40_command_control.md R146). -/
theorem engineTurn_next {s t : State} (hb : s.eng.busy = true) (h : engineTurn s = .next t) :
    t = { s with eng := s.eng.complete (pendingResult s.eng) } := by
  rw [engineTurn_eq, if_pos hb] at h
  injection h with h
  exact h.symm

/-! ### The error of each check, in the order of the checks (R411) -/

theorem reportedCode_gated (e : Engine) (r : Except ErrorCode Commit) :
    reportedCode (gated e r) = if e.initialized = false then 4 else reportedCode r := by
  cases h : e.initialized with
  | false => rw [gated_of_not_initialized h]; rfl
  | true => rw [gated_of_initialized h]; rfl

theorem reportedCode_keyFrom (raw : Bool) (s : List Byte) :
    reportedCode (keyFrom raw s) = if raw = false ∧ (b32Decode s).isOk = false then 1 else 0 := by
  cases raw with
  | true => rfl
  | false =>
    rw [keyFrom, if_neg Bool.false_ne_true]
    cases h : b32Decode s with
    | ok key => rfl
    | error x => rw [b32Loop_error h]; rfl

theorem reportedCode_keyOfSecret (raw : Bool) (e : Engine) :
    reportedCode (keyOfSecret raw e) =
      if e.secretLen.toNat > e.params.secretMax then 6
      else if raw = false ∧ (b32Decode e.secret).isOk = false then 1 else 0 := by
  rw [keyOfSecret_eq]
  by_cases h : e.secretLen.toNat ≤ e.params.secretMax
  · rw [if_pos h, if_neg (Nat.not_lt.2 h), reportedCode_keyFrom]
  · rw [if_neg h, if_pos (Nat.not_le.1 h)]
    rfl

theorem reportedCode_decodeCommand (raw : Bool) (e : Engine) :
    reportedCode (decodeCommand raw e) = reportedCode (keyOfSecret raw e) := by
  rw [decodeCommand_eq]
  cases keyOfSecret raw e <;> rfl

theorem reportedCode_steamCommand (raw : Bool) (e : Engine) :
    reportedCode (steamCommand raw e) = reportedCode (keyOfSecret raw e) := by
  rw [steamCommand_eq]
  cases keyOfSecret raw e <;> rfl

theorem reportedCode_digitsChecked {e : Engine} (r : Except ErrorCode Commit) :
    reportedCode (if 1 ≤ e.digits.toNat ∧ e.digits.toNat ≤ 10 then r else .error .invalidDigitCount) =
      if e.digits.toNat < 1 ∨ e.digits.toNat > 10 then 2 else reportedCode r := by
  by_cases h : 1 ≤ e.digits.toNat ∧ e.digits.toNat ≤ 10
  · rw [if_pos h, if_neg (by omega)]
  · rw [if_neg h, if_pos (by omega)]
    rfl

theorem reportedCode_hotpCore (raw : Bool) (c : DWord) (e : Engine) :
    reportedCode (hotpCore raw c e) =
      if e.digits.toNat < 1 ∨ e.digits.toNat > 10 then 2 else reportedCode (keyOfSecret raw e) := by
  rw [hotpCore_eq, reportedCode_digitsChecked]
  cases keyOfSecret raw e <;> rfl

theorem reportedCode_fmtDecCommand (e : Engine) :
    reportedCode (fmtDecCommand e) = if e.digits.toNat < 1 ∨ e.digits.toNat > 10 then 2 else 0 := by
  rw [fmtDecCommand_eq, reportedCode_digitsChecked, reportedCode_ok]

theorem reportedCode_totpCommand (raw : Bool) (e : Engine) :
    reportedCode (totpCommand raw e) =
      if e.period = 0 then 3 else reportedCode (hotpCore raw e.totpCounter e) := by
  rw [totpCommand_eq]
  split <;> rfl

/-- The code of the first check of R411 that a decoded command fails, 0 when it fails none. -/
def firstFailedCheck (i : Instr) (e : Engine) : BitVec 4 :=
  if i ≠ .init ∧ e.initialized = false then 4
  else if i ∈ [Instr.totp, .totpRaw] ∧ e.period = 0 then 3
  else if i ∈ [Instr.fmtDec, .hotp, .hotpRaw, .totp, .totpRaw] ∧
      (e.digits.toNat < 1 ∨ e.digits.toNat > 10) then 2
  else if i ∈ [Instr.decode, .decodeRaw, .hotp, .hotpRaw, .totp, .totpRaw, .steam, .steamRaw] ∧
      e.secretLen.toNat > e.params.secretMax then 6
  else if i ∈ [Instr.decode, .hotp, .totp, .steam] ∧ (b32Decode e.secret).isOk = false then 1
  else 0

/-- Each command makes its own checks, in the order of the list. -/
theorem reportedCode_resultOf (i : Instr) (e : Engine) :
    reportedCode (resultOf i e) = firstFailedCheck i e := by
  cases i
  case init => rfl
  case hmac | trunc | fmtSteam =>
    simp [resultOf, firstFailedCheck, reportedCode_gated, hmacCommand, truncCommand, fmtSteamCommand]
  case decode | decodeRaw =>
    simp [resultOf, firstFailedCheck, reportedCode_gated, reportedCode_decodeCommand, reportedCode_keyOfSecret]
  case steam | steamRaw =>
    simp [resultOf, firstFailedCheck, reportedCode_gated, reportedCode_steamCommand, reportedCode_keyOfSecret]
  case fmtDec =>
    simp [resultOf, firstFailedCheck, reportedCode_gated, reportedCode_fmtDecCommand]
  case hotp | hotpRaw =>
    simp [resultOf, firstFailedCheck, reportedCode_gated, reportedCode_hotpCore, reportedCode_keyOfSecret]
  case totp | totpRaw =>
    simp [resultOf, firstFailedCheck, reportedCode_gated, reportedCode_totpCommand, reportedCode_hotpCore,
      reportedCode_keyOfSecret]

/-! ### When the decoding fails (R402) -/

/-- The bytes with no symbol value are those outside the alphabet (41_base32.md R171). -/
theorem symbolValue_eq_none_iff (c : Byte) :
    symbolValue c = none ↔ ¬(0x41 ≤ c.toNat ∧ c.toNat ≤ 0x5A) ∧
      ¬(0x61 ≤ c.toNat ∧ c.toNat ≤ 0x7A) ∧ ¬(0x32 ≤ c.toNat ∧ c.toNat ≤ 0x37) := by
  simp only [symbolValue]
  split_ifs with hupper hlower hdigit
  · exact iff_of_false (by simp) fun h => h.1 hupper
  · exact iff_of_false (by simp) fun h => h.2.1 hlower
  · exact iff_of_false (by simp) fun h => h.2.2 hdigit
  · exact iff_of_true rfl ⟨hupper, hlower, hdigit⟩

/-- Some byte is neither padding nor a symbol (R402). -/
def HasBadByte (s : List Byte) : Prop := ∃ c ∈ s, c ≠ paddingByte ∧ symbolValue c = none

/-- Some byte after a padding byte is not padding (R402). -/
def HasDataAfterPadding (s : List Byte) : Prop :=
  ∃ l r c, s = l ++ paddingByte :: r ∧ c ∈ r ∧ c ≠ paddingByte

theorem hasBadByte_cons (c : Byte) (cs : List Byte) :
    HasBadByte (c :: cs) ↔ (c ≠ paddingByte ∧ symbolValue c = none) ∨ HasBadByte cs := by
  simp [HasBadByte]

theorem hasDataAfterPadding_cons (c : Byte) (cs : List Byte) :
    HasDataAfterPadding (c :: cs) ↔
      (c = paddingByte ∧ ∃ d ∈ cs, d ≠ paddingByte) ∨ HasDataAfterPadding cs := by
  constructor
  · rintro ⟨l, r, d, hs, hd, hne⟩
    cases l with
    | nil =>
      obtain ⟨rfl, rfl⟩ := List.cons.inj hs
      exact .inl ⟨rfl, d, hd, hne⟩
    | cons x l => exact .inr ⟨l, r, d, (List.cons.inj hs).2, hd, hne⟩
  · rintro (⟨rfl, d, hd, hne⟩ | ⟨l, r, d, rfl, hd, hne⟩)
    · exact ⟨[], cs, d, rfl, hd, hne⟩
    · exact ⟨c :: l, r, d, rfl, hd, hne⟩

/-- Either fault needs a byte that is not padding. -/
theorem exists_ne_padding_of_bad {s : List Byte} (h : HasBadByte s ∨ HasDataAfterPadding s) :
    ∃ d ∈ s, d ≠ paddingByte := by
  obtain ⟨c, hc, hne, -⟩ | ⟨l, r, c, rfl, hc, hne⟩ := h
  · exact ⟨c, hc, hne⟩
  · exact ⟨c, by simp [hc], hne⟩

/-- Once padding has been read, any other byte is an error. -/
theorem b32Loop_padded_eq_error_iff (s : List Byte) (acc nbits : Nat) (key : List Byte) :
    b32Loop s acc nbits key true = .error .invalidSecretEncoding ↔ ∃ d ∈ s, d ≠ paddingByte := by
  induction s with
  | nil => simp [b32Loop]
  | cons c cs ih =>
    rw [b32Loop]
    by_cases hc : c = paddingByte
    · rw [if_pos hc, ih]
      simp [hc]
    · rw [if_neg hc, if_pos rfl]
      exact iff_of_true rfl ⟨c, List.mem_cons_self, hc⟩

/-- Before any padding, the two faults of R402 are the errors. -/
theorem b32Loop_eq_error_iff (s : List Byte) (acc nbits : Nat) (key : List Byte) :
    b32Loop s acc nbits key false = .error .invalidSecretEncoding ↔
      HasBadByte s ∨ HasDataAfterPadding s := by
  induction s generalizing acc nbits key with
  | nil => simp [b32Loop, HasBadByte, HasDataAfterPadding]
  | cons c cs ih =>
    rw [hasBadByte_cons, hasDataAfterPadding_cons]
    rcases b32Loop_cons c cs acc nbits key false with
      ⟨hc, e⟩ | ⟨hc, hv, e⟩ | ⟨v, hc, -, hv, -, e⟩ | ⟨v, hc, -, hv, -, e⟩ <;> rw [e]
    · rw [b32Loop_padded_eq_error_iff]
      constructor
      · exact fun hd => .inr (.inl ⟨hc, hd⟩)
      · rintro ((⟨hne, -⟩ | hbad) | ⟨-, hd⟩ | hdata)
        · exact absurd hc hne
        · exact exists_ne_padding_of_bad (.inl hbad)
        · exact hd
        · exact exists_ne_padding_of_bad (.inr hdata)
    · have hbad : symbolValue c = none := by simpa using hv
      exact iff_of_true rfl (.inl (.inl ⟨hc, hbad⟩))
    · simp [ih, hc, hv]
    · simp [ih, hc, hv]

theorem b32Decode_eq_error_iff (s : List Byte) :
    b32Decode s = .error .invalidSecretEncoding ↔ HasBadByte s ∨ HasDataAfterPadding s :=
  b32Loop_eq_error_iff s 0 0 []

/-- With a legal length, a decoding error is the result of DECODE (41_base32.md R186). -/
theorem resultOf_decode_of_error {e : Engine} {x : ErrorCode} (hinit : e.initialized = true)
    (hlen : e.secretLen.toNat ≤ e.params.secretMax) (hx : b32Decode e.secret = .error x) :
    resultOf .decode e = .error x := by
  have hkey : keyOfSecret false e = .error x := by
    rw [keyOfSecret_eq, if_pos hlen]
    exact hx
  rw [resultOf, gated_of_initialized hinit, decodeCommand_eq, hkey]

/-! ### The obligations of 60_exceptions.md -/

/-- Settles O24: an error completion is one STATUS update, and no command reports the reserved code 5. -/
theorem failedCommandChangesOnlyStatus : Obligations.FailedCommandChangesOnlyStatus := by
  intro s t hb h
  obtain rfl := engineTurn_next hb h
  cases hr : pendingResult s.eng with
  | ok c => exact ⟨fun he => absurd he Bool.false_ne_true, fun _ => ⟨rfl, rfl, rfl⟩⟩
  | error x =>
    exact ⟨fun _ => ⟨x.code, ErrorCode.code_mem (pendingResult_error hr), rfl⟩,
      fun he => absurd he.symm Bool.false_ne_true⟩

/-- Settles O25: ERRCODE is the code of the result, and the result of a decoded command is the first check of
the list that fails. -/
theorem reportedErrorFollowsThePriority : Obligations.ReportedErrorFollowsThePriority := by
  intro s t hb h
  obtain rfl := engineTurn_next hb h
  refine ⟨?_, s.eng.complete_error_iff _⟩
  rw [Engine.complete_errcode, pendingResult]
  cases decode s.eng.cmd with
  | ok i => exact reportedCode_resultOf i s.eng
  | error x => rfl

/-- Settles O45: the decoder's loop fails on the first byte that is in one of the two faults. -/
theorem decodingFailsExactlyOnBadBytesOrBadPadding :
    Obligations.DecodingFailsExactlyOnBadBytesOrBadPadding := by
  refine ⟨fun s => ?_, fun _ _ => b32Loop_error, fun _ => rfl, fun s x hinit hlen hx => ?_⟩
  · rw [b32Decode_eq_error_iff]
    simp only [HasBadByte, symbolValue_eq_none_iff]
    rfl
  · rw [exec_eq, resultOf_decode_of_error hinit hlen hx, b32Loop_error hx]
    rfl

end Sys2Proof.Machine

/-! PROOFS. Encoding, the step and reset: decode against encode (30_encoding.md), which event a step performs
(20_memory.md R95), the completion of a pending command (40_command_control.md R147), the WAIT line
(30_encoding.md R120), and reset with the INITIALIZED field (70_reset_and_hazards.md R451, R453). -/

namespace Sys2Proof.Machine

/-! ### Decode and encode -/

/-- Settles O2: a decoded word has the fields of its command, and each command's word decodes to it. -/
theorem decodeAgreesWithEncode : Obligations.DecodeAgreesWithEncode := fun _ _ => decode_eq_ok_iff

/-- Settles O3, word by word. -/
theorem sampleWordsDecodeAsTheTableSays : Obligations.SampleWordsDecodeAsTheTableSays := by
  unfold Obligations.SampleWordsDecodeAsTheTableSays
  decide

/-! ### The event of a step -/

theorem takeTurn_of_cons {s : State} {t : Turn} {ts : List Turn} (h : s.schedule = t :: ts) :
    s.takeTurn = (t, { s with schedule := ts }) := by
  rw [State.takeTurn, h]

theorem takeTurn_of_nil {s : State} (h : s.schedule = []) :
    s.takeTurn = (if s.eng.busy then .engine else .host, s) := by
  rw [State.takeTurn, h]

theorem step_of_host {s s' : State} (h : s.takeTurn = (.host, s')) : step s = .next (hostTurn s') := by
  rw [step, h]

theorem step_of_engine {s s' : State} (h : s.takeTurn = (.engine, s')) : step s = engineTurn s' := by
  rw [step, h]

theorem step_of_reset {s s' : State} (h : s.takeTurn = (.reset, s')) :
    step s = .next (platformReset s') := by
  rw [step, h]

/-- With no event scheduled, a pending engine completes (R147). -/
theorem step_of_nil_busy {s : State} (h : s.schedule = []) (hb : s.eng.busy = true) :
    step s = engineTurn s :=
  step_of_engine (by rw [takeTurn_of_nil h, if_pos hb])

/-- With no event scheduled, an idle engine leaves the turn to the host. -/
theorem step_of_nil_idle {s : State} (h : s.schedule = []) (hb : s.eng.busy = false) :
    step s = .next (hostTurn s) :=
  step_of_host (by rw [takeTurn_of_nil h, if_neg (by simp [hb])])

/-- An event of the engine runs the pending command (R144, R146). -/
theorem engineTurn_of_legal {s : State} {i : Instr} (hb : s.eng.busy = true)
    (hi : decode s.eng.cmd = .ok i) : engineTurn s = exec i s := by
  rw [engineTurn, if_pos hb, hi]

theorem engineTurn_of_idle {s : State} (hb : s.eng.busy = false) : engineTurn s = .next s := by
  rw [engineTurn, if_neg (by simp [hb])]

/-- Settles O5: the engine's event is the completion of the decoded command. -/
theorem stepExecutesThePendingCommand : Obligations.StepExecutesThePendingCommand := by
  refine fun s i hb hi => ⟨fun ts h => ?_, fun h => ?_⟩
  · exact (step_of_engine (takeTurn_of_cons h)).trans
      (engineTurn_of_legal (s := { s with schedule := ts }) hb hi)
  · rw [step_of_nil_busy h hb, engineTurn_of_legal hb hi]

/-- Settles O6, event by event. -/
theorem stepPerformsTheScheduledEvent : Obligations.StepPerformsTheScheduledEvent :=
  fun _ _ => ⟨fun h => step_of_host (takeTurn_of_cons h), fun h => step_of_engine (takeTurn_of_cons h),
    fun h => step_of_reset (takeTurn_of_cons h), step_of_nil_busy, step_of_nil_idle, engineTurn_of_idle⟩

/-! ### What every step keeps -/

theorem step_schedule {s t : State} (h : step s = .next t) : t.schedule = s.schedule.tail := by
  rcases step_cases h with ⟨-, rfl⟩ | ⟨-, -, rfl⟩ | ⟨-, -, rfl⟩ | ⟨-, rfl⟩
  · rw [(hostTurn_frame _).1, State.takeTurn_snd]
  · rw [State.takeTurn_snd]
  · rw [State.takeTurn_snd]
  · rw [platformReset_schedule, State.takeTurn_snd]

/-- Settles O8: a step moves the host only by finishing one line. -/
theorem everyStepAnswersANextState : Obligations.EveryStepAnswersANextState := by
  intro s
  have h := step_eq s
  refine ⟨_, h, step_schedule h, step_params h, ?_⟩
  rcases step_host_cases h with e | ⟨r, -, e⟩ <;> rw [e]
  · exact ⟨rfl, le_rfl, Nat.le_succ _⟩
  · exact ⟨rfl, Nat.le_succ _, le_rfl⟩

/-- Settles O20: every write, completion and reset keeps the engine sound, and every line the host. -/
theorem everyStepKeepsTheStateSound : Obligations.EveryStepKeepsTheStateSound := fun _ _ => step_sound

/-! ### A pending command ends (R147) -/

/-- The step from `s` to `u` ends the pending command: it completes it, or it is a reset that aborts it. -/
def EndsPending (s u : State) : Prop :=
  u.eng.busy = false ∧
    ((u.eng.done = true ∧ engineTurn s.takeTurn.2 = .next u) ∨
      (s.takeTurn.1 = .reset ∧ u.eng = Engine.reset s.eng.params))

/-- An event of the engine ends the pending command. -/
theorem endsPending_of_engine {s s' : State} (hb : s.eng.busy = true) (h : s.takeTurn = (.engine, s')) :
    ∃ u, step s = .next u ∧ EndsPending s u := by
  have hs : engineTurn s' = .next { s' with eng := s'.eng.complete (pendingResult s'.eng) } := by
    have he := s.takeTurn_snd_eng
    rw [h] at he
    rw [engineTurn_eq, if_pos (by rw [he, hb])]
  refine ⟨_, (step_of_engine h).trans hs, ?_, .inl ⟨?_, by rw [h, hs]⟩⟩ <;>
    cases pendingResult s'.eng <;> rfl

/-- The next event of a pending engine ends the command, or it is one of the host, which leaves the engine and
one event less to come. -/
theorem step_of_pending {s : State} (hb : s.eng.busy = true) :
    (∃ u, step s = .next u ∧ EndsPending s u) ∨
      ∃ t, step s = .next t ∧ t.eng = s.eng ∧ t.schedule.length < s.schedule.length := by
  cases h : s.schedule with
  | nil => exact .inl (endsPending_of_engine hb (by rw [takeTurn_of_nil h, if_pos hb]))
  | cons turn ts =>
    have ht := takeTurn_of_cons h
    cases turn with
    | host =>
      refine .inr ⟨_, step_of_host ht, hostTurn_eng_of_busy hb, ?_⟩
      rw [(hostTurn_frame _).1]
      exact Nat.lt_succ_self _
    | engine => exact .inl (endsPending_of_engine hb ht)
    | reset => exact .inl ⟨_, step_of_reset ht, rfl, .inr ⟨by rw [ht], rfl⟩⟩

/-- A pending command ends within the scheduled events and one more. -/
theorem pending_ends (n : Nat) {s : State} (hn : s.schedule.length ≤ n) (hb : s.eng.busy = true) :
    ∃ k t u, k ≤ s.schedule.length ∧ core.run k s = .next t ∧ t.eng = s.eng ∧
      core.run (k + 1) s = .next u ∧ EndsPending t u := by
  induction n generalizing s with
  | zero =>
    rcases step_of_pending hb with ⟨u, hu, hend⟩ | ⟨t, -, -, hlt⟩
    · exact ⟨0, s, u, Nat.zero_le _, rfl, rfl, core_run_succ hu 0, hend⟩
    · omega
  | succ n ih =>
    rcases step_of_pending hb with ⟨u, hu, hend⟩ | ⟨t, ht, he, hlt⟩
    · exact ⟨0, s, u, Nat.zero_le _, rfl, rfl, core_run_succ hu 0, hend⟩
    · obtain ⟨k, t', u, hk, hrun, he', hrun', hend⟩ := ih (s := t) (by omega) (he ▸ hb)
      exact ⟨k + 1, t', u, by omega, (core_run_succ ht k).trans hrun, he'.trans he,
        (core_run_succ ht (k + 1)).trans hrun', hend⟩

/-- Settles O9, by induction on the number of scheduled events. -/
theorem pendingCommandCompletesOrIsReset : Obligations.PendingCommandCompletesOrIsReset := by
  intro s hb
  obtain ⟨k, t, u, hk, hrun, he, hrun', hidle, hend⟩ := pending_ends _ le_rfl hb
  exact ⟨k, t, u, hk, hrun, he, hrun', hidle, he ▸ hend⟩

/-! ### The WAIT line (R120) -/

/-- A WAIT reads STATUS, and ends exactly when DONE reads 1. -/
theorem hostTurn_wait {s : State} (h : s.host.program[s.host.pos]? = some .wait) :
    hostTurn s = if s.eng.done then s.finishLine (.word s.eng.statusWord) else s := by
  simp only [hostTurn, h, statusWord_done]

/-- The host stands at a WAIT, nothing is pending and DONE is 0: nothing is left that could set DONE. -/
def StuckAtWait (h : HostAgent) (s : State) : Prop :=
  s.host = h ∧ h.program[h.pos]? = some .wait ∧ s.eng.busy = false ∧ s.eng.done = false

theorem step_keeps_stuckAtWait {h : HostAgent} (s t : State) (hs : StuckAtWait h s)
    (hstep : step s = .next t) : StuckAtWait h t := by
  obtain ⟨rfl, hline, hb, hd⟩ := hs
  rcases step_cases hstep with ⟨-, rfl⟩ | ⟨-, -, rfl⟩ | ⟨-, hbusy, -⟩ | ⟨-, rfl⟩
  · rw [hostTurn_wait (by simpa using hline), if_neg (by simp [hd])]
    exact ⟨by simp, hline, by simpa using hb, by simpa using hd⟩
  · exact ⟨by simp, hline, by simpa using hb, by simpa using hd⟩
  · rw [hb] at hbusy
    cases hbusy
  · exact ⟨by simp, hline, rfl, rfl⟩

/-- A run of any length answers a state: no step of the machine stops (60_exceptions.md R400). -/
theorem core_run_total (k : Nat) (s : State) : ∃ t, core.run k s = .next t := by
  induction k generalizing s with
  | zero => exact ⟨s, rfl⟩
  | succ k ih =>
    rw [core_run_succ (step_eq s)]
    exact ih _

/-- Settles O10: with nothing pending, no event but the issue of a command, which a host at a WAIT does not
perform, leads to DONE = 1. -/
theorem waitEndsOnlyWhenDone : Obligations.WaitEndsOnlyWhenDone := by
  refine fun s hline => ⟨fun hd => ?_, fun hb hd k => ?_, fun hd => ?_⟩
  · rw [hostTurn_wait hline, if_neg (by simp [hd])]
  · obtain ⟨t, ht⟩ := core_run_total k s
    obtain ⟨hhost, -, -, hdone⟩ :=
      core_run_invariant step_keeps_stuckAtWait (⟨rfl, hline, hb, hd⟩ : StuckAtWait s.host s) ht
    exact ⟨t, ht, hhost, hdone⟩
  · rw [hostTurn_wait hline, if_pos hd]
    rfl

/-! ### Reset, and the INITIALIZED field -/

/-- CAPS as a number: the constants of R32 above SECRET_MAX. -/
theorem capsWord_eq_ofNat {p : Params} (hp : p.wf = true) :
    capsWord p = BitVec.ofNat 32 (0x1EA10000 + p.secretMax) := by
  obtain ⟨-, hmax, -⟩ := (Params.wf_iff p).1 hp
  have hconst : (0x1EA1 : BitVec 16).toNat = 0x1EA1 := rfl
  apply BitVec.eq_of_toNat_eq
  rw [capsWord_eq, BitVec.toNat_append, ← Nat.shiftLeft_add_eq_or_of_lt (BitVec.isLt _), hconst,
    BitVec.toNat_ofNat, BitVec.toNat_ofNat]
  omega

theorem Engine.reset_statusWord (p : Params) : (Engine.reset p).statusWord = 0 := by
  change (Engine.reset Params.default).statusWord = 0
  decide

/-- Settles O42, register by register; only CAPS depends on the parameters. -/
theorem resetPutsEveryRegisterToItsResetValue : Obligations.ResetPutsEveryRegisterToItsResetValue := by
  refine fun s hp => ⟨fun r => ?_, fun _ _ => rfl, rfl⟩
  cases r
  case caps => exact capsWord_eq_ofNat hp
  case status => exact Engine.reset_statusWord _
  all_goals rfl

/-- Settles O19. -/
theorem resetStateIsSound : Obligations.ResetStateIsSound :=
  ⟨⟨Engine.reset_sound (by decide), rfl, le_rfl⟩, fun _ => Engine.reset_sound⟩

theorem busWrite_initialized {e e' : Engine} {off : Offset} {n : Nat} {v : Word}
    (h : busWrite e off n v = .ok e') : e'.initialized = e.initialized := by
  rcases (busWrite_ok h).2 with ⟨r, -, -, -, rfl⟩ | ⟨-, -, -, rfl⟩ <;> simp

/-- A completion leaves INITIALIZED, unless it is that of INIT, which sets it (40_command_control.md R148). -/
theorem complete_pending_initialized (e : Engine) :
    (e.complete (pendingResult e)).initialized =
      (decide (decode e.cmd = .ok .init) || e.initialized) := by
  cases hr : pendingResult e with
  | ok c =>
    rw [Engine.complete_ok, Engine.markSuccess_initialized, Commit.apply_initialized,
      Bool.eq_iff_iff.2 ((pendingResult_bounded hr).2.trans decide_eq_true_iff.symm)]
  | error x =>
    have hi : decode e.cmd ≠ .ok .init := by
      intro hi
      rw [pendingResult, hi] at hr
      cases hr
    simp [hi]

/-- Settles O22: the writes of the bus leave INITIALIZED, and so do all completions but INIT's. -/
theorem onlyInitSetsAndOnlyResetClearsInitialized :
    Obligations.OnlyInitSetsAndOnlyResetClearsInitialized := by
  intro s t h
  refine ⟨fun hne => ?_, fun hr => ?_, fun hr hb hi => ?_⟩
  · rcases step_eng_cases h with e | ⟨-, off, n, v, -, hw⟩ | ⟨ht, hb, e⟩ | ⟨ht, -⟩
    · exact absurd (congrArg Engine.initialized e) hne
    · exact absurd (busWrite_initialized hw) hne
    · refine .inr ⟨ht, hb, ?_⟩
      rw [e, complete_pending_initialized] at hne
      by_contra hi
      simp [hi] at hne
    · exact .inl ht
  · rw [step_of_reset (Prod.ext hr rfl)] at h
    injection h with h
    rw [← h]
    rfl
  · rw [step_of_engine (Prod.ext hr rfl), engineTurn_eq, if_pos (by simpa using hb)] at h
    injection h with h
    simp [← h, complete_pending_initialized, hi]

end Sys2Proof.Machine

/-! PROOFS. The registers and the byte memory: register reads and input writes (10_state.md section 4, 20_memory.md
R89, R90), the fields of STATUS (10_state.md R34), the canonical form of the memory, and the lines of SECRET
(30_encoding.md R120). -/

namespace Sys2Proof.Machine

/-! ### STATUS -/

theorem statusWord_flags (e : Engine) :
    e.statusWord.getLsbD 0 = e.busy ∧ e.statusWord.getLsbD 2 = e.error ∧
      e.statusWord.getLsbD 3 = e.initialized := by
  simp only [Engine.statusWord, BitVec.getLsbD_append]
  simp

theorem statusWord_errcode (e : Engine) : e.statusWord.extractLsb' 8 4 = e.errcode := by
  rw [Engine.statusWord]
  repeat rw [BitVec.extractLsb'_append_eq_of_le (by decide)]
  exact BitVec.extractLsb'_append_eq_right

theorem statusWord_reserved (e : Engine) :
    e.statusWord.extractLsb' 4 4 = 0 ∧ e.statusWord.extractLsb' 12 20 = 0 := by
  rw [Engine.statusWord]
  constructor
  · repeat rw [BitVec.extractLsb'_append_eq_of_le (by decide)]
    exact BitVec.extractLsb'_append_eq_right
  · repeat rw [BitVec.extractLsb'_append_eq_of_le (by decide)]
    rfl

/-- Settles O17, field by field. -/
theorem statusWordHoldsItsFields : Obligations.StatusWordHoldsItsFields := fun e =>
  have ⟨hbusy, herror, hinit⟩ := statusWord_flags e
  have ⟨hlow, hhigh⟩ := statusWord_reserved e
  ⟨hbusy, statusWord_done e, herror, hinit, hlow, statusWord_errcode e, hhigh⟩

/-! ### Register reads and input writes -/

/-- Register offsets fit the 12 bits of an access (R80). -/
theorem Reg.toNat_offset (r : Reg) : (BitVec.ofNat 12 r.offset : Offset).toNat = r.offset := by
  have := (Reg.offset_range r).1
  rw [BitVec.toNat_ofNat, Nat.mod_eq_of_lt (by omega)]

/-- Settles O14: the written-out list is the register map, each register at its offset. -/
theorem readLinesHaveNoSideEffect : Obligations.ReadLinesHaveNoSideEffect := by
  refine ⟨fun e item hitem => ?_, fun s off n r hl hr => ?_⟩
  · have hitem : item ∈ Reg.all.map fun r : Reg => (BitVec.ofNat 12 r.offset, e.readReg r) := hitem
    obtain ⟨r, -, rfl⟩ := List.mem_map.1 hitem
    exact busRead_reg e r.toNat_offset
  · rw [hostTurn_read hl, hr]
    rfl

/-- The input registers (10_state.md section 4). -/
def Reg.inputs : List Reg := [.secretLen, .digits, .period, .counterLo, .counterHi, .timeLo, .timeHi]

theorem Reg.writable_of_input : ∀ r ∈ Reg.inputs, r.writable = true := by decide

/-- What each register reads as after the write of an input register. -/
theorem Engine.readReg_writeReg_input (e : Engine) (v : Word) {r : Reg} (hr : r ∈ Reg.inputs) (r' : Reg) :
    (e.writeReg v r).readReg r' = if r' = r then v else e.readReg r' := by
  simp only [Reg.inputs, List.mem_cons, List.not_mem_nil, or_false] at hr
  rcases hr with rfl | rfl | rfl | rfl | rfl | rfl | rfl <;> cases r' <;> rfl

/-- Settles O15: the bus accepts the write, and it stores one register. -/
theorem inputWritesStoreOneRegister : Obligations.InputWritesStoreOneRegister := by
  intro e r off v hb ho (hr : r ∈ Reg.inputs)
  refine ⟨e.writeReg v r, busWrite_reg hb ho (Reg.writable_of_input r hr) v, ?_, fun r' hne => ?_,
    e.writeReg_mem v r, e.writeReg_params v r⟩
  · rw [e.readReg_writeReg_input v hr, if_pos rfl]
  · rw [e.readReg_writeReg_input v hr, if_neg hne]

/-! ### The canonical form of the memory -/

/-- A listed cell of a canonical memory reads as its byte, which is not that of an unlisted cell. -/
theorem Memory.read_head_ne {k : Nat} {v : Byte} {r : Memory} (h : Memory.wf ((k, v) :: r)) :
    Memory.read ((k, v) :: r) k ≠ Memory.unlisted := by
  rw [Memory.read_cons, if_pos rfl]
  exact (Memory.wf_cons.1 h).2.1

/-- Of two canonical memories that read alike, neither starts at a lower address. -/
theorem Memory.head_le {k k' : Nat} {v v' : Byte} {r r' : Memory} (h : Memory.wf ((k, v) :: r))
    (h' : Memory.wf ((k', v') :: r'))
    (heq : Memory.read ((k, v) :: r) k = Memory.read ((k', v') :: r') k) : k' ≤ k := by
  by_contra hlt
  refine Memory.read_head_ne h (heq.trans (Memory.read_of_lt fun c hc => ?_))
  rcases List.mem_cons.1 hc with rfl | hc
  · exact Nat.not_le.1 hlt
  · exact (Nat.not_le.1 hlt).trans ((Memory.wf_cons.1 h').1 c hc)

/-- The rest of a canonical memory reads as the whole does, but at the first cell. -/
theorem Memory.read_tail {k : Nat} {v : Byte} {r : Memory} (h : Memory.wf ((k, v) :: r)) (a : Nat) :
    Memory.read r a = if k = a then Memory.unlisted else Memory.read ((k, v) :: r) a := by
  by_cases ha : k = a
  · rw [if_pos ha]
    exact Memory.read_of_lt fun c hc => ha ▸ (Memory.wf_cons.1 h).1 c hc
  · rw [if_neg ha, Memory.read_cons, if_neg ha]

/-- Settles O58, cell by cell: the first cells agree in address and byte, and the rests read alike. -/
theorem memoriesThatReadAlikeAreEqual : Obligations.MemoriesThatReadAlikeAreEqual := by
  intro m
  induction m with
  | nil =>
    intro m' _ h' heq
    cases m' with
    | nil => rfl
    | cons c r' => exact absurd (heq c.1).symm (Memory.read_head_ne h')
  | cons c r ih =>
    obtain ⟨k, v⟩ := c
    intro m' h h' heq
    cases m' with
    | nil => exact absurd (heq k) (Memory.read_head_ne h)
    | cons c' r' =>
      obtain ⟨k', v'⟩ := c'
      obtain rfl : k = k' := le_antisymm (Memory.head_le h' h (heq k').symm) (Memory.head_le h h' (heq k))
      have hv : v = v' := by simpa [Memory.read_cons] using heq k
      rw [hv, ih r' (Memory.wf_cons.1 h).2.2 (Memory.wf_cons.1 h').2.2 fun a => by
        rw [Memory.read_tail h, Memory.read_tail h', heq a]]

/-! ### The lines of SECRET (R120) -/

/-- The bytes of a little-endian word (20_memory.md R86). -/
theorem extractLsb'_le32 (b0 b1 b2 b3 : Byte) {j : Nat} (h : j < 4) :
    (le32 b0 b1 b2 b3).extractLsb' (8 * j) 8 = [b0, b1, b2, b3].getD j 0x00 := by
  rw [le32]
  match j, h with
  | 0, _ => exact BitVec.extractLsb'_append_eq_right
  | 1, _ =>
    rw [BitVec.extractLsb'_append_eq_of_le (by decide)]
    exact BitVec.extractLsb'_append_eq_right
  | 2, _ =>
    rw [BitVec.extractLsb'_append_eq_of_le (by decide), BitVec.extractLsb'_append_eq_of_le (by decide)]
    exact BitVec.extractLsb'_append_eq_right
  | 3, _ =>
    rw [BitVec.extractLsb'_append_eq_of_le (by decide), BitVec.extractLsb'_append_eq_of_le (by decide),
      BitVec.extractLsb'_append_eq_of_le (by decide)]
    exact BitVec.extractLsb'_eq_self

/-- The word that a SECRET line writes: the next four bytes of the text, 0x00 past its end (R120). -/
def secretWord (text : List Byte) : Word :=
  le32 (text.getD 0 0) (text.getD 1 0) (text.getD 2 0) (text.getD 3 0)

theorem extractLsb'_secretWord (text : List Byte) {j : Nat} (h : j < 4) :
    (secretWord text).extractLsb' (8 * j) 8 = text.getD j 0x00 := by
  rw [secretWord, extractLsb'_le32 _ _ _ _ h]
  match j, h with
  | 0, _ | 1, _ | 2, _ | 3, _ => rfl

/-- A SECRET takes four bytes a line. -/
theorem secretWordLines_of_ne_nil (k : Nat) {text : List Byte} (h : text ≠ []) :
    secretWordLines k text =
      .write (BitVec.ofNat 12 (0x400 + k)) 4 (secretWord text) :: secretWordLines (k + 4) (text.drop 4) := by
  match text, h with
  | [_], _ | [_, _], _ | [_, _, _], _ | _ :: _ :: _ :: _ :: _, _ => simp [secretWordLines, secretWord, Buffer.base]

/-- What loading a secret needs of a state: legal parameters, a canonical memory, an idle engine, and no event
scheduled, so that every turn is the host's. -/
structure ReadyToLoad (s : State) : Prop where
  params : s.eng.params.wf = true
  mem : Memory.wf s.eng.mem
  idle : s.eng.busy = false
  unscheduled : s.schedule = []

/-- What `n` lines of SECRET do, those that write the bytes of `text` from byte `k` on. -/
structure LoadsFrom (k : Nat) (text : List Byte) (n : Nat) (s t : State) : Prop where
  ready : ReadyToLoad t
  params : t.eng.params = s.eng.params
  program : t.host.program = s.host.program
  pos : t.host.pos = s.host.pos + n
  bytes : ∀ i < k + text.length, t.eng.bufferByte .secret i =
    if i < k then s.eng.bufferByte .secret i else text.getD (i - k) 0x00

/-- An accepted write line of an idle engine, with no event scheduled, is the next event. -/
theorem ReadyToLoad.step_write {s : State} (hs : ReadyToLoad s) {off : Offset} {n : Nat} {v : Word} {e : Engine}
    (hl : s.host.program[s.host.pos]? = some (.write off n v)) (hw : busWrite s.eng off n v = .ok e) :
    step s = .next (State.finishLine .ok { s with eng := e }) := by
  rw [step_of_nil_idle hs.unscheduled hs.idle, hostTurn_write_ok hl hw]

/-- One word line stores the next four bytes. -/
theorem ReadyToLoad.step_secretWord {s : State} (hs : ReadyToLoad s) {k : Nat} {text : List Byte}
    (hk : k % 4 = 0) (hmax : k + 4 ≤ s.eng.params.secretMax)
    (hl : s.host.program[s.host.pos]? = some (.write (BitVec.ofNat 12 (0x400 + k)) 4 (secretWord text))) :
    ∃ t, step s = .next t ∧ LoadsFrom k (text.take 4) 1 s t := by
  refine ⟨_, hs.step_write hl (busWrite_secretBytes hs.params hs.idle (.inr ⟨rfl, hk⟩) hmax _),
    ⟨hs.params, Memory.wf_writeBytes hs.mem _ _, hs.idle, hs.unscheduled⟩, rfl, rfl, rfl, fun i hi => ?_⟩
  rw [List.length_take] at hi
  by_cases hik : i < k
  · rw [if_pos hik]
    exact read_writeBuffer_of_out s.eng _ (.inl (by simp only [Buffer.base]; omega))
  · obtain ⟨j, rfl⟩ := Nat.exists_eq_add_of_le (Nat.not_lt.1 hik)
    rw [if_neg hik, Nat.add_sub_cancel_left, List.getD_eq_getElem?_getD, List.getElem?_take_of_lt (by omega),
      ← List.getD_eq_getElem?_getD, ← extractLsb'_secretWord text (by omega)]
    have := read_writeBuffer_self (e := s.eng) hs.mem (0x400 + k) (n := 4) (j := j) (by omega) (secretWord text)
    rwa [Nat.add_assoc] at this

/-- The word lines of a text from byte `k` on store it. -/
theorem ReadyToLoad.run_secretWordLines (n : Nat) {s : State} (hs : ReadyToLoad s) {k : Nat} {text : List Byte}
    {rest : List HostLine} (hn : text.length ≤ n) (hk : k % 4 = 0)
    (hmax : k + text.length ≤ s.eng.params.secretMax)
    (hl : s.host.program.drop s.host.pos = secretWordLines k text ++ rest) :
    ∃ t, core.run (secretWordLines k text).length s = .next t ∧
      LoadsFrom k text (secretWordLines k text).length s t := by
  induction n generalizing s k text with
  | zero =>
    obtain rfl := List.eq_nil_of_length_eq_zero (Nat.le_zero.1 hn)
    exact ⟨s, rfl, hs, rfl, rfl, rfl, fun i hi => by rw [if_pos (by simpa using hi)]⟩
  | succ n ih =>
    by_cases htext : text = []
    · exact ih hs (by simp [htext]) hk hmax hl
    · have hpos := List.length_pos_iff.2 htext
      have hmod := ((Params.wf_iff _).1 hs.params).2.2
      rw [secretWordLines_of_ne_nil k htext] at hl ⊢
      obtain ⟨t, ht, hloads⟩ := hs.step_secretWord (text := text) hk (by omega)
        (by rw [← List.head?_drop, hl]; rfl)
      obtain ⟨u, hu, hloads'⟩ := ih hloads.ready (k := k + 4) (text := text.drop 4)
        (by rw [List.length_drop]; omega) (by omega) (by rw [hloads.params, List.length_drop]; omega)
        (by rw [hloads.program, hloads.pos, ← List.drop_drop, hl]; rfl)
      refine ⟨u, (core_run_succ ht _).trans hu, hloads'.ready, hloads'.params.trans hloads.params,
        hloads'.program.trans hloads.program, ?_, fun i hi => ?_⟩
      · rw [hloads'.pos, hloads.pos, List.length_cons]
        omega
      · rw [hloads'.bytes i (by rw [List.length_drop]; omega)]
        by_cases hi4 : i < k + 4
        · rw [if_pos hi4, hloads.bytes i (by rw [List.length_take]; omega)]
          simp only [List.getD_eq_getElem?_getD, List.getElem?_take_of_lt (show i - k < 4 by omega)]
        · rw [if_neg hi4, if_neg (by omega), List.getD_eq_getElem?_getD, List.getElem?_drop,
            ← List.getD_eq_getElem?_getD]
          congr 1
          omega

/-- Settles O16: the word lines store the text, and the last line its length. -/
theorem secretLinesLoadTheText : Obligations.SecretLinesLoadTheText := by
  intro s text hp hm hb hsch hlen hprog hpos
  obtain ⟨-, hmax, -⟩ := (Params.wf_iff _).1 hp
  have hs : ReadyToLoad s := ⟨hp, hm, hb, hsch⟩
  obtain ⟨t, hrun, hloads⟩ := hs.run_secretWordLines text.length (k := 0)
    (rest := [wr .secretLen (BitVec.ofNat 32 text.length)]) le_rfl rfl (by omega)
    (by rw [hprog, hpos]; rfl)
  have hline : t.host.program[t.host.pos]? = some (wr .secretLen (BitVec.ofNat 32 text.length)) := by
    rw [hloads.program, hloads.pos, hprog, hpos, secretLines]
    simp
  have hstep := hloads.ready.step_write hline
    (busWrite_reg hloads.ready.idle (Reg.toNat_offset .secretLen) rfl _)
  have hlen32 : (BitVec.ofNat 32 text.length).toNat = text.length := by
    rw [BitVec.toNat_ofNat, Nat.mod_eq_of_lt (by omega)]
  have hcount : (secretLines text).length = (secretWordLines 0 text).length + 1 := List.length_append
  have hrun' := (core_run_snoc hrun).trans hstep
  rw [← hcount] at hrun'
  refine ⟨_, hrun', ?_, rfl, ?_⟩
  · change Memory.readBytes t.eng.mem 0x400 (BitVec.ofNat 32 text.length).toNat = text
    rw [hlen32]
    refine List.ext_getElem (by simp) fun i h1 h2 => ?_
    have hbyte := hloads.bytes i (by simpa using h2)
    rw [if_neg (Nat.not_lt_zero i)] at hbyte
    simpa [Memory.readBytes, Engine.bufferByte, Buffer.base, h2] using hbyte
  · change t.host.pos + 1 = t.host.program.length
    rw [hloads.pos, hloads.program, hprog, hpos, hcount, Nat.zero_add]

end Sys2Proof.Machine

/-! PROOFS. The commands (40_command_control.md to 46_steam.md): what each commit set holds, the registers and bytes
outside it (30_encoding.md R111), and the next state of each command that succeeds. -/

namespace Sys2Proof.Machine

/-! ### The commit set of each command -/

/-- The commit set of a command that answers `Ok`, family by family. -/
theorem resultOf_ok_cases {i : Instr} {e : Engine} {c : Commit} (h : resultOf i e = .ok c) :
    (i = .init ∧ c = { initialized := true }) ∨
    (i = .hmac ∧ c = { hmac := some (hmacOfCounter e.key e.counter) }) ∨
    (i = .trunc ∧ c = { trunc := some (truncate e.digest.bytes) }) ∨
    (i = .fmtDec ∧ c = { dec := some (fmtDec e.dbc.toNat e.digits.toNat) }) ∨
    (i = .fmtSteam ∧ c = { steam := some (fmtSteam e.dbc.toNat) }) ∨
    (i ∈ [Instr.decode, .decodeRaw] ∧ ∃ key, c = { key := some key }) ∨
    (i ∈ [Instr.hotp, .hotpRaw, .totp, .totpRaw] ∧ ∃ key k, c = hotpCommit key k e.digits.toNat) ∨
    (i ∈ [Instr.steam, .steamRaw] ∧ ∃ key k, c = steamCommit key k) := by
  have decodes {raw : Bool} (h : decodeCommand raw e = .ok c) : ∃ key, c = { key := some key } :=
    have ⟨key, _, hc⟩ := decodeCommand_ok h
    ⟨key, hc⟩
  have hotps {raw : Bool} {k : DWord} (h : hotpCore raw k e = .ok c) :
      ∃ key k, c = hotpCommit key k e.digits.toNat :=
    have ⟨_, key, _, hc⟩ := hotpCore_ok h
    ⟨key, k, hc⟩
  have steams {raw : Bool} (h : steamCommand raw e = .ok c) : ∃ key k, c = steamCommit key k :=
    have ⟨key, _, hc⟩ := steamCommand_ok h
    ⟨key, _, hc⟩
  cases i
  case init => exact .inl ⟨rfl, (Except.ok.inj h).symm⟩
  case hmac => exact .inr (.inl ⟨rfl, (Except.ok.inj (gated_ok h).2).symm⟩)
  case trunc => exact .inr (.inr (.inl ⟨rfl, (Except.ok.inj (gated_ok h).2).symm⟩))
  case fmtDec =>
    have hf := (gated_ok h).2
    rw [fmtDecCommand_eq] at hf
    split_ifs at hf
    exact .inr (.inr (.inr (.inl ⟨rfl, (Except.ok.inj hf).symm⟩)))
  case fmtSteam => exact .inr (.inr (.inr (.inr (.inl ⟨rfl, (Except.ok.inj (gated_ok h).2).symm⟩))))
  case decode | decodeRaw =>
    exact .inr (.inr (.inr (.inr (.inr (.inl ⟨by decide, decodes (gated_ok h).2⟩)))))
  case hotp | hotpRaw =>
    exact .inr (.inr (.inr (.inr (.inr (.inr (.inl ⟨by decide, hotps (gated_ok h).2⟩))))))
  case totp | totpRaw =>
    exact .inr (.inr (.inr (.inr (.inr (.inr (.inl ⟨by decide, hotps (totpCommand_ok (gated_ok h).2).2⟩))))))
  case steam | steamRaw =>
    exact .inr (.inr (.inr (.inr (.inr (.inr (.inr ⟨by decide, steams (gated_ok h).2⟩))))))

/-- A commit set holds exactly the parts that its command writes (30_encoding.md R111). -/
structure Commit.PartsOf (i : Instr) (c : Commit) : Prop where
  initialized : c.initialized = decide (i = .init)
  key : c.key.isSome = (rawkeyOf i).isSome
  hmac : c.hmac.isSome = decide (i ∈ Instr.hmac :: generators)
  trunc : c.trunc.isSome = decide (i ∈ Instr.trunc :: generators)
  dec : c.dec.isSome = decide (i ∈ decimalCommands)
  steam : c.steam.isSome = decide (i ∈ steamCommands)

theorem resultOf_partsOf {i : Instr} {e : Engine} {c : Commit} (h : resultOf i e = .ok c) : c.PartsOf i := by
  rcases resultOf_ok_cases h with ⟨rfl, rfl⟩ | ⟨rfl, rfl⟩ | ⟨rfl, rfl⟩ | ⟨rfl, rfl⟩ | ⟨rfl, rfl⟩ |
    ⟨hi, key, rfl⟩ | ⟨hi, key, k, rfl⟩ | ⟨hi, key, k, rfl⟩
  case inr.inr.inr.inr.inr.inl | inr.inr.inr.inr.inr.inr.inr =>
    rcases List.mem_pair.1 hi with rfl | rfl <;> exact ⟨rfl, rfl, rfl, rfl, rfl, rfl⟩
  case inr.inr.inr.inr.inr.inr.inl =>
    simp only [List.mem_cons, List.not_mem_nil, or_false] at hi
    rcases hi with rfl | rfl | rfl | rfl <;> exact ⟨rfl, rfl, rfl, rfl, rfl, rfl⟩
  all_goals exact ⟨rfl, rfl, rfl, rfl, rfl, rfl⟩

/-- The parts that a command does not write are not there. -/
theorem Commit.PartsOf.none_of_not_written {i : Instr} {c : Commit} (h : c.PartsOf i) :
    (rawkeyOf i = none → c.key = none) ∧ (i ∉ Instr.hmac :: generators → c.hmac = none) ∧
      (i ∉ Instr.trunc :: generators → c.trunc = none) ∧ (i ∉ decimalCommands → c.dec = none) ∧
      (i ∉ steamCommands → c.steam = none) := by
  obtain ⟨-, hkey, hhmac, htrunc, hdec, hsteam⟩ := h
  refine ⟨fun hi => ?_, fun hi => ?_, fun hi => ?_, fun hi => ?_, fun hi => ?_⟩
  · simpa [hi] using hkey
  · simpa only [hi, decide_false, Option.isSome_eq_false_iff, Option.isNone_iff_eq_none] using hhmac
  · simpa only [hi, decide_false, Option.isSome_eq_false_iff, Option.isNone_iff_eq_none] using htrunc
  · simpa only [hi, decide_false, Option.isSome_eq_false_iff, Option.isNone_iff_eq_none] using hdec
  · simpa only [hi, decide_false, Option.isSome_eq_false_iff, Option.isNone_iff_eq_none] using hsteam

/-! ### The frame of every command (R111) -/

/-- A byte outside the buffers that a commit set writes stays. -/
theorem Commit.read_apply_of_out {c : Commit} {e : Engine} (hb : c.Bounded e) (hm : Memory.wf e.mem) {a : Nat}
    (hkey : c.key = none ∨ a < 0x800 ∨ 0x800 + e.params.secretMax ≤ a)
    (hdec : c.dec = none ∨ a < 0x080 ∨ 0x090 ≤ a) (hsteam : c.steam = none ∨ a < 0x090 ∨ 0x098 ≤ a) :
    Memory.read (c.apply e).mem a = Memory.read e.mem a := by
  rw [Commit.read_apply hb hm, if_neg, if_neg, if_neg]
  · rintro ⟨ha, hs⟩
    rcases hkey with h | h
    · simp [h] at hs
    · omega
  · rintro ⟨ha, hs⟩
    rcases hdec with h | h
    · simp [h] at hs
    · omega
  · rintro ⟨ha, hs⟩
    rcases hsteam with h | h
    · simp [h] at hs
    · omega

/-- Settles O27: an error touches STATUS alone, and a commit set holds only the parts its command writes. -/
theorem commandsWriteOnlyTheirCommitSet : Obligations.CommandsWriteOnlyTheirCommitSet := by
  intro i s t hp hm h
  obtain rfl := exec_next h
  cases hr : resultOf i s.eng with
  | error x => simp
  | ok c =>
    have hparts := resultOf_partsOf hr
    obtain ⟨hkey, hhmac, htrunc, hdec, hsteam⟩ := hparts.none_of_not_written
    refine ⟨rfl, rfl, by simp, by simp, by simp, by simp, by simp, by simp, by simp, by simp, by simp,
      fun hi => by simp [hparts.initialized, hi], fun hi => by simp [hkey hi], fun hi => by simp [hhmac hi],
      fun hi => by simp [htrunc hi], fun hi => by simp [hdec hi], fun a hak had has => ?_⟩
    exact Commit.read_apply_of_out (resultOf_bounded hr).1 hm (hak.imp_left hkey) (had.imp_left hdec)
      (has.imp_left hsteam)

/-! ### The engine after a successful completion -/

/-- Each register after the commit of a set, from the part that writes it (40_command_control.md R146). -/
theorem Commit.markSuccess_apply (c : Commit) (e : Engine) :
    (c.apply e).markSuccess = { e with
      busy := false, done := true, error := false, errcode := 0
      initialized := c.initialized || e.initialized
      keyLen := c.key.elim e.keyLen fun key => BitVec.ofNat 32 key.length
      ctrOutLo := c.hmac.elim e.ctrOutLo fun r => r.counter.extractLsb' 0 32
      ctrOutHi := c.hmac.elim e.ctrOutHi fun r => r.counter.extractLsb' 32 32
      digest := c.hmac.elim e.digest fun r => r.digest
      truncOffset := c.trunc.elim e.truncOffset fun r => r.offset.setWidth 32
      dbcRaw := c.trunc.elim e.dbcRaw fun r => r.raw
      dbc := c.trunc.elim e.dbc fun r => r.dbc
      decValue := c.dec.elim e.decValue fun r => BitVec.ofNat 32 r.value
      decLen := c.dec.elim e.decLen fun r => BitVec.ofNat 32 r.digits
      mem := (c.apply e).mem } := by
  simp [Engine.markSuccess]

/-! ### INIT, HMAC and TRUNC -/

/-- Settles O28. -/
theorem initCompletes : Obligations.InitCompletes := exec_init

theorem Engine.counter_halves (e : Engine) :
    e.counter.extractLsb' 0 32 = e.counterLo ∧ e.counter.extractLsb' 32 32 = e.counterHi := by
  rw [Engine.counter, BitVec.extractLsb'_append_eq_of_le le_rfl]
  exact ⟨BitVec.extractLsb'_append_eq_right, BitVec.extractLsb'_eq_self⟩

theorem resultOf_hmac {e : Engine} (h : e.initialized = true) :
    resultOf .hmac e = .ok { hmac := some (hmacOfCounter e.key e.counter) } := gated_of_initialized h _

theorem resultOf_trunc {e : Engine} (h : e.initialized = true) :
    resultOf .trunc e = .ok { trunc := some (truncate e.digest.bytes) } := gated_of_initialized h _

/-- Settles O31: CTR_OUT takes the halves of COUNTER. -/
theorem hmacCommitsTheDigest : Obligations.HmacCommitsTheDigest := by
  intro s hinit
  obtain ⟨hlo, hhi⟩ := s.eng.counter_halves
  rw [exec_of_ok (resultOf_hmac hinit), Commit.markSuccess_apply]
  simp only [hmacOfCounter, Option.elim_some, hlo, hhi]
  rfl

/-- Settles O32: the offset and the window, seen from the digest's words. -/
theorem truncCommitsTheWindow : Obligations.TruncCommitsTheWindow := by
  intro s hinit
  obtain ⟨hraw, hcode⟩ := truncate_eq s.eng.digest
  rw [exec_of_ok (resultOf_trunc hinit), Commit.markSuccess_apply]
  simp only [Option.elim_some, truncate_offset, hraw, hcode]
  rfl

/-! ### DECODE, FMT_DEC and FMT_STEAM -/

theorem decodeCommand_of_hasKey {e : Engine} {raw : Bool} {key : List Byte} (h : e.HasKey raw key) :
    decodeCommand raw e = .ok { key := some key } := by
  rw [decodeCommand_eq, (keyOfSecret_of_hasKey h).1]

theorem resultOf_decode_of_hasKey {i : Instr} {e : Engine} {raw : Bool} {key : List Byte}
    (hi : (i, raw) ∈ [(Instr.decode, false), (Instr.decodeRaw, true)]) (hinit : e.initialized = true)
    (h : e.HasKey raw key) : resultOf i e = .ok { key := some key } := by
  simp only [List.mem_cons, Prod.mk.injEq, List.not_mem_nil, or_false] at hi
  rcases hi with ⟨rfl, rfl⟩ | ⟨rfl, rfl⟩ <;>
    exact (gated_of_initialized hinit _).trans (decodeCommand_of_hasKey h)

/-- Settles O30. -/
theorem decodeCommitsTheKey : Obligations.DecodeCommitsTheKey := by
  intro s i raw key hi hm hinit hkey
  have hr := resultOf_decode_of_hasKey hi hinit hkey
  refine ⟨_, exec_of_ok hr, Commit.wf_apply _ hm, fun a => ?_⟩
  rw [Commit.read_apply (resultOf_bounded hr).1 hm]
  simp

theorem resultOf_fmtDec {e : Engine} (hinit : e.initialized = true)
    (hd : 1 ≤ e.digits.toNat ∧ e.digits.toNat ≤ 10) :
    resultOf .fmtDec e = .ok { dec := some (fmtDec e.dbc.toNat e.digits.toNat) } := by
  rw [resultOf, gated_of_initialized hinit, fmtDecCommand_eq, if_pos hd]

/-- A register reads back as its number. -/
theorem ofNat_toNat_word (w : Word) : BitVec.ofNat 32 w.toNat = w := by simp

/-- Settles O33: DEC_LEN, a digit count written to a word, is DIGITS itself. -/
theorem fmtDecCommitsTheDecimalCode : Obligations.FmtDecCommitsTheDecimalCode := by
  intro s hm hinit h1 h10
  have hr := resultOf_fmtDec hinit ⟨h1, h10⟩
  have hexec := exec_of_ok hr
  rw [Commit.markSuccess_apply] at hexec
  simp only [Option.elim_some, fmtDec_digits, ofNat_toNat_word] at hexec
  refine ⟨_, hexec, Commit.wf_apply _ hm, fun a => ?_⟩
  rw [Commit.read_apply (resultOf_bounded hr).1 hm]
  simp only [Option.isSome_none, Option.isSome_some, Bool.false_eq_true, and_false, and_true, if_false,
    Option.map_some, Option.getD_some, getD_fmtDec_chars]

theorem resultOf_fmtSteam {e : Engine} (h : e.initialized = true) :
    resultOf .fmtSteam e = .ok { steam := some (fmtSteam e.dbc.toNat) } := gated_of_initialized h _

/-- Settles O34. -/
theorem fmtSteamCommitsTheSteamCode : Obligations.FmtSteamCommitsTheSteamCode := by
  intro s hm hinit
  have hr := resultOf_fmtSteam hinit
  refine ⟨_, exec_of_ok hr, Commit.wf_apply _ hm, fun a => ?_⟩
  rw [Commit.read_apply (resultOf_bounded hr).1 hm]
  simp only [Option.isSome_none, Option.isSome_some, Bool.false_eq_true, and_false, and_true, if_false,
    Option.getD_some, getD_fmtSteam]

/-! ### HOTP, TOTP and STEAM -/

section
variable {i : Instr} {s : State} {e : Engine} {raw : Bool} {key : List Byte} {k : DWord} {d : Digest}

/-- The engine after the commit set of a decimal generator: key, digest, truncation and decimal code (R266). -/
theorem complete_hotpCommit (n : Nat) (e : Engine) (hd : d = hmacSha1 key (be64 k)) :
    ((hotpCommit key k n).apply e).markSuccess = { e with
      busy := false, done := true, error := false, errcode := 0
      keyLen := BitVec.ofNat 32 key.length
      ctrOutLo := k.extractLsb' 0 32, ctrOutHi := k.extractLsb' 32 32, digest := d
      truncOffset := d.h4 &&& 0xF, dbcRaw := d.window, dbc := d.code
      decValue := BitVec.ofNat 32 (d.code.toNat % 10 ^ n)
      decLen := BitVec.ofNat 32 n, mem := ((hotpCommit key k n).apply e).mem } := by
  obtain ⟨hraw, hcode⟩ := truncate_eq d
  rw [Commit.markSuccess_apply]
  simp [hotpCommit, hmacOfCounter, ← hd, truncate_offset, hraw, hcode]

/-- The memory after it: the key and the decimal code. -/
theorem read_hotpCommit {n : Nat} (hb : (hotpCommit key k n).Bounded e) (hm : Memory.wf e.mem)
    (hd : d = hmacSha1 key (be64 k)) (a : Nat) :
    Memory.read ((hotpCommit key k n).apply e).mem a =
      if 0x800 ≤ a ∧ a < 0x800 + e.params.secretMax then key.getD (a - 0x800) 0x00
      else if 0x080 ≤ a ∧ a < 0x090 then decimalChar d.code.toNat n (a - 0x080)
      else Memory.read e.mem a := by
  rw [Commit.read_apply hb hm, hd, ← (truncate_eq _).2]
  simp only [hotpCommit, hmacOfCounter, Option.isSome_none, Option.isSome_some, Bool.false_eq_true, and_false,
    and_true, if_false, Option.map_some, Option.getD_some, getD_fmtDec_chars]
  rw [ite_ite_comm]
  omega

/-- The engine after the commit set of STEAM: key, digest, truncation and Steam code (R316). -/
theorem complete_steamCommit (e : Engine) (hd : d = hmacSha1 key (be64 k)) :
    ((steamCommit key k).apply e).markSuccess = { e with
      busy := false, done := true, error := false, errcode := 0
      keyLen := BitVec.ofNat 32 key.length
      ctrOutLo := k.extractLsb' 0 32, ctrOutHi := k.extractLsb' 32 32, digest := d
      truncOffset := d.h4 &&& 0xF, dbcRaw := d.window, dbc := d.code
      mem := ((steamCommit key k).apply e).mem } := by
  obtain ⟨hraw, hcode⟩ := truncate_eq d
  rw [Commit.markSuccess_apply]
  simp [steamCommit, hmacOfCounter, ← hd, truncate_offset, hraw, hcode]

/-- The memory after it: the key and the Steam code. -/
theorem read_steamCommit (hb : (steamCommit key k).Bounded e) (hm : Memory.wf e.mem)
    (hd : d = hmacSha1 key (be64 k)) (a : Nat) :
    Memory.read ((steamCommit key k).apply e).mem a =
      if 0x800 ≤ a ∧ a < 0x800 + e.params.secretMax then key.getD (a - 0x800) 0x00
      else if 0x090 ≤ a ∧ a < 0x098 then steamChar d.code.toNat (a - 0x090)
      else Memory.read e.mem a := by
  rw [Commit.read_apply hb hm, hd, ← (truncate_eq _).2]
  simp only [steamCommit, hmacOfCounter, Option.isSome_none, Option.isSome_some, Option.map_none, Bool.false_eq_true,
    and_false, and_true, if_false, Option.getD_some, getD_fmtSteam]
  rw [ite_ite_comm]
  omega

theorem hotpCore_of_hasKey (k : DWord) (hdig : 1 ≤ e.digits.toNat ∧ e.digits.toNat ≤ 10)
    (h : e.HasKey raw key) : hotpCore raw k e = .ok (hotpCommit key k e.digits.toNat) := by
  rw [hotpCore_eq, if_pos hdig, (keyOfSecret_of_hasKey h).1]

theorem resultOf_hotp_of_hasKey (hi : (i, raw) ∈ [(Instr.hotp, false), (Instr.hotpRaw, true)])
    (hinit : e.initialized = true) (hdig : 1 ≤ e.digits.toNat ∧ e.digits.toNat ≤ 10) (h : e.HasKey raw key) :
    resultOf i e = .ok (hotpCommit key e.counter e.digits.toNat) := by
  simp only [List.mem_cons, Prod.mk.injEq, List.not_mem_nil, or_false] at hi
  rcases hi with ⟨rfl, rfl⟩ | ⟨rfl, rfl⟩ <;>
    exact (gated_of_initialized hinit _).trans (hotpCore_of_hasKey _ hdig h)

theorem resultOf_totp_of_hasKey (hi : (i, raw) ∈ [(Instr.totp, false), (Instr.totpRaw, true)])
    (hinit : e.initialized = true) (hp : e.period ≠ 0)
    (hdig : 1 ≤ e.digits.toNat ∧ e.digits.toNat ≤ 10) (h : e.HasKey raw key) :
    resultOf i e = .ok (hotpCommit key e.totpCounter e.digits.toNat) := by
  have htotp : totpCommand raw e = .ok (hotpCommit key e.totpCounter e.digits.toNat) := by
    rw [totpCommand_eq, if_neg hp, hotpCore_of_hasKey _ hdig h]
  simp only [List.mem_cons, Prod.mk.injEq, List.not_mem_nil, or_false] at hi
  rcases hi with ⟨rfl, rfl⟩ | ⟨rfl, rfl⟩ <;> exact (gated_of_initialized hinit _).trans htotp

theorem resultOf_steam_of_hasKey (hi : (i, raw) ∈ [(Instr.steam, false), (Instr.steamRaw, true)])
    (hinit : e.initialized = true) (h : e.HasKey raw key) :
    resultOf i e = .ok (steamCommit key e.steamCounter) := by
  have hsteam : steamCommand raw e = .ok (steamCommit key e.steamCounter) := by
    rw [steamCommand_eq, (keyOfSecret_of_hasKey h).1]
  simp only [List.mem_cons, Prod.mk.injEq, List.not_mem_nil, or_false] at hi
  rcases hi with ⟨rfl, rfl⟩ | ⟨rfl, rfl⟩ <;> exact (gated_of_initialized hinit _).trans hsteam

end

/-- Settles O35: the commit set of HOTP at COUNTER. -/
theorem hotpCommitsKeyDigestAndCode : Obligations.HotpCommitsKeyDigestAndCode := by
  intro s i raw key d hi hm hinit h1 h10 hkey hd
  have hr := resultOf_hotp_of_hasKey hi hinit ⟨h1, h10⟩ hkey
  obtain ⟨hlo, hhi⟩ := s.eng.counter_halves
  have hexec := exec_of_ok hr
  rw [complete_hotpCommit (k := s.eng.counter) _ _ hd, hlo, hhi, ofNat_toNat_word] at hexec
  exact ⟨_, hexec, Commit.wf_apply _ hm, read_hotpCommit (resultOf_bounded hr).1 hm hd⟩

/-- Settles O36: the commit set of HOTP at the time step. -/
theorem totpCommitsKeyDigestAndCode : Obligations.TotpCommitsKeyDigestAndCode := by
  intro s i raw key c d hi hm hinit hp h1 h10 hkey hc hd
  obtain rfl : c = s.eng.totpCounter := BitVec.eq_of_toNat_eq (hc.trans s.eng.totpCounter_toNat.symm)
  have hr := resultOf_totp_of_hasKey hi hinit hp ⟨h1, h10⟩ hkey
  have hexec := exec_of_ok hr
  rw [complete_hotpCommit _ _ hd, ofNat_toNat_word] at hexec
  exact ⟨_, hexec, Commit.wf_apply _ hm, read_hotpCommit (resultOf_bounded hr).1 hm hd⟩

/-- Settles O37: the commit set of STEAM at the Steam counter. -/
theorem steamCommitsKeyDigestAndCode : Obligations.SteamCommitsKeyDigestAndCode := by
  intro s i raw key c d hi hm hinit hkey hc hd
  obtain rfl : c = s.eng.steamCounter := BitVec.eq_of_toNat_eq (hc.trans s.eng.steamCounter_toNat.symm)
  have hr := resultOf_steam_of_hasKey hi hinit hkey
  have hexec := exec_of_ok hr
  rw [complete_steamCommit _ hd] at hexec
  exact ⟨_, hexec, Commit.wf_apply _ hm, read_steamCommit (resultOf_bounded hr).1 hm hd⟩

end Sys2Proof.Machine

/-! PROOFS. Composition and purity (40_command_control.md R151, R152), the base32 bit stream (41_base32.md R171, R175,
R177), and the published digests (95_test_vectors.md). -/

namespace Sys2Proof.Machine

/-! ### A generator's result from its inputs (R151) -/

/-- Two engines agree on what a generator reads: SECRET_MAX, INITIALIZED, the secret, and the generator's own inputs. -/
structure Engine.AgreeFor (i : Instr) (e e' : Engine) : Prop where
  secretMax : e.params.secretMax = e'.params.secretMax
  initialized : e.initialized = e'.initialized
  secretLen : e.secretLen = e'.secretLen
  secret : ∀ j < e.params.secretMax, j < e.secretLen.toNat → e.bufferByte .secret j = e'.bufferByte .secret j
  counter : i ∈ [Instr.hotp, .hotpRaw] → e.counter = e'.counter
  timePeriod : i ∈ [Instr.totp, .totpRaw] → e.time = e'.time ∧ e.period = e'.period
  time : i ∈ [Instr.steam, .steamRaw] → e.time = e'.time
  digits : i ∈ decimalCommands → e.digits = e'.digits

section
variable {i : Instr} {e e' : Engine} (h : e.AgreeFor i e')
include h

/-- A secret of a legal length is one, and so is its key; one that is too long is refused. -/
theorem Engine.AgreeFor.keyOfSecret_eq (raw : Bool) : keyOfSecret raw e = keyOfSecret raw e' := by
  rw [Machine.keyOfSecret_eq, Machine.keyOfSecret_eq, ← h.secretMax, ← h.secretLen]
  by_cases hlen : e.secretLen.toNat ≤ e.params.secretMax
  · have hsecret : e.secret = e'.secret := by
      rw [Engine.secret, Engine.secret, ← h.secretLen]
      exact Memory.readBytes_congr fun j hj => h.secret j (by omega) hj
    rw [hsecret]
  · rw [if_neg hlen, if_neg hlen]

theorem Engine.AgreeFor.gated_eq {r r' : Except ErrorCode Commit} (hr : r = r') : gated e r = gated e' r' := by
  rw [gated, gated, h.initialized, hr]

theorem Engine.AgreeFor.hotpCore_eq (hdig : e.digits = e'.digits) (raw : Bool) {k k' : DWord} (hk : k = k') :
    hotpCore raw k e = hotpCore raw k' e' := by
  rw [Machine.hotpCore_eq, Machine.hotpCore_eq, h.keyOfSecret_eq, hdig, hk]

theorem Engine.AgreeFor.totpCommand_eq (hdig : e.digits = e'.digits)
    (ht : e.time = e'.time ∧ e.period = e'.period) (raw : Bool) : totpCommand raw e = totpCommand raw e' := by
  have hk : e.totpCounter = e'.totpCounter := by rw [Engine.totpCounter, Engine.totpCounter, ht.1, ht.2]
  rw [Machine.totpCommand_eq, Machine.totpCommand_eq, h.hotpCore_eq hdig raw hk, ht.2]

theorem Engine.AgreeFor.steamCommand_eq (ht : e.time = e'.time) (raw : Bool) :
    steamCommand raw e = steamCommand raw e' := by
  have hk : e.steamCounter = e'.steamCounter := by rw [Engine.steamCounter, Engine.steamCounter, ht]
  rw [Machine.steamCommand_eq, Machine.steamCommand_eq, h.keyOfSecret_eq, hk]

/-- The result of a generator is a function of its declared inputs. -/
theorem Engine.AgreeFor.resultOf_eq (hi : i ∈ generators) : resultOf i e = resultOf i e' := by
  simp only [generators, List.mem_cons, List.not_mem_nil, or_false] at hi
  rcases hi with rfl | rfl | rfl | rfl | rfl | rfl
  · exact h.gated_eq (h.hotpCore_eq (h.digits (by decide)) _ (h.counter (by decide)))
  · exact h.gated_eq (h.hotpCore_eq (h.digits (by decide)) _ (h.counter (by decide)))
  · exact h.gated_eq (h.totpCommand_eq (h.digits (by decide)) (h.timePeriod (by decide)) _)
  · exact h.gated_eq (h.totpCommand_eq (h.digits (by decide)) (h.timePeriod (by decide)) _)
  · exact h.gated_eq (h.steamCommand_eq (h.time (by decide)) _)
  · exact h.gated_eq (h.steamCommand_eq (h.time (by decide)) _)

end

theorem rawkeyOf_of_generator : ∀ i ∈ generators, (rawkeyOf i).isSome = true := by decide

/-- A generator's commit set holds a key, a digest and a truncation. -/
theorem Commit.PartsOf.of_generator {i : Instr} {c : Commit} (h : c.PartsOf i) (hi : i ∈ generators) :
    ∃ key r t, c.key = some key ∧ c.hmac = some r ∧ c.trunc = some t := by
  obtain ⟨key, hkey⟩ := Option.isSome_iff_exists.1 (h.key.trans (rawkeyOf_of_generator i hi))
  obtain ⟨r, hr⟩ := Option.isSome_iff_exists.1 (h.hmac.trans (decide_eq_true (List.mem_cons_of_mem _ hi)))
  obtain ⟨t, ht⟩ := Option.isSome_iff_exists.1 (h.trunc.trans (decide_eq_true (List.mem_cons_of_mem _ hi)))
  exact ⟨key, r, t, hkey, hr, ht⟩

theorem Engine.bufferByte_markSuccess (e : Engine) (b : Buffer) (i : Nat) :
    e.markSuccess.bufferByte b i = e.bufferByte b i := rfl

/-- Settles O38: both engines complete with one result, and a part that is in the commit set determines the registers
and the buffer it writes. -/
theorem generatorsArePureFunctionsOfTheirInputs : Obligations.GeneratorsArePureFunctionsOfTheirInputs := by
  intro i s₁ s₂ t₁ t₂ hi hm₁ hm₂ hmax hinit hlen hsecret hcounter htp htime hdig h₁ h₂
  have hres : resultOf i s₁.eng = resultOf i s₂.eng :=
    Engine.AgreeFor.resultOf_eq ⟨hmax, hinit, hlen, hsecret, hcounter, htp, htime, hdig⟩ hi
  obtain rfl := exec_next h₁
  obtain rfl := exec_next h₂
  refine ⟨by rw [Engine.complete_errcode, Engine.complete_errcode, hres], fun he => ?_⟩
  cases hr : resultOf i s₁.eng with
  | error x =>
    rw [hr] at he
    cases he
  | ok c =>
    have hr₂ := hres.symm.trans hr
    have hparts := resultOf_partsOf hr
    obtain ⟨key, r, t, hkey, hhmac, htrunc⟩ := hparts.of_generator hi
    have hb₁ := (resultOf_bounded hr).1
    have hb₂ := (resultOf_bounded hr₂).1
    rw [hr₂, Engine.complete_ok, Engine.complete_ok]
    refine ⟨by simp [hkey], by simp [Engine.ctrOut, hhmac], by simp [hhmac], by simp [htrunc], by simp [htrunc],
      by simp [htrunc], fun j hj => ?_, fun hidec => ?_, fun histeam j hj => ?_⟩
    · rw [Engine.bufferByte_markSuccess, Engine.bufferByte_markSuccess, Commit.apply_keyByte hb₁ hm₁ hj,
        Commit.apply_keyByte hb₂ hm₂ (hmax ▸ hj), hkey, Option.elim_some, Option.elim_some]
    · obtain ⟨dec, hdec⟩ := Option.isSome_iff_exists.1 (hparts.dec.trans (decide_eq_true hidec))
      refine ⟨by simp [hdec], by simp [hdec], fun j hj => ?_⟩
      rw [Engine.bufferByte_markSuccess, Engine.bufferByte_markSuccess, Commit.apply_decByte hb₁ hm₁ hj,
        Commit.apply_decByte hb₂ hm₂ hj, hdec, Option.elim_some, Option.elim_some]
    · obtain ⟨x, hx⟩ := Option.isSome_iff_exists.1 (hparts.steam.trans (decide_eq_true histeam))
      rw [Engine.bufferByte_markSuccess, Engine.bufferByte_markSuccess, Commit.apply_steamByte hb₁ hm₁ hj,
        Commit.apply_steamByte hb₂ hm₂ hj, hx, Option.elim_some, Option.elim_some]

/-! ### The component commands in sequence (R152) -/

/-- A key that the key source answers is the key of the secret (41_base32.md R185). -/
theorem hasKey_of_keyOfSecret {e : Engine} {raw : Bool} {key : List Byte} (h : keyOfSecret raw e = .ok key) :
    e.HasKey raw key := by
  obtain ⟨hlen, hkey, -⟩ := keyOfSecret_ok h
  refine ⟨hlen, ?_⟩
  cases raw
  · simpa [keyFrom] using hkey
  · simpa [keyFrom] using hkey.symm

/-- DECODE that succeeds commits the key of the secret (41_base32.md R186). -/
theorem exec_decode_ok {s t : State} {raw : Bool} (h : exec (if raw then .decodeRaw else .decode) s = .next t)
    (he : t.eng.error = false) :
    ∃ key, s.eng.initialized = true ∧ s.eng.HasKey raw key ∧
      t = { s with eng := (Commit.apply { key := some key } s.eng).markSuccess } := by
  obtain ⟨c, hr, rfl⟩ := exec_ok_cases h he
  have hgated : gated s.eng (decodeCommand raw s.eng) = .ok c := by cases raw <;> exact hr
  obtain ⟨hinit, hdecode⟩ := gated_ok hgated
  obtain ⟨key, hkey, rfl⟩ := decodeCommand_ok hdecode
  exact ⟨key, hinit, hasKey_of_keyOfSecret hkey, rfl⟩

/-- A committed key reads back as the key that HMAC takes (42_hmac_sha1.md R213). -/
theorem Engine.key_of_commitKey {e : Engine} {key : List Byte} (hp : e.params.wf = true) (hm : Memory.wf e.mem)
    (hlen : key.length ≤ e.params.secretMax) : (e.commitKey key).key = key := by
  obtain ⟨-, hmax, -⟩ := (Params.wf_iff _).1 hp
  have hlen32 : (BitVec.ofNat 32 key.length).toNat = key.length := by
    rw [BitVec.toNat_ofNat, Nat.mod_eq_of_lt (by omega)]
  have hpad : (padTo (Buffer.key.size e.params) key).length = e.params.secretMax := length_padTo hlen
  rw [Engine.key, Engine.bufferBytes, Engine.commitKey_keyLen, hlen32, Engine.commitKey_mem,
    Memory.readBytes_writeBytes hm _ _ _ (by rwa [hpad]), take_padTo]

/-- The commit set that a generator has before its output stage: key, digest and truncation. -/
def keyDigestCode (key : List Byte) (k : DWord) : Commit :=
  { key := some key, hmac := some (hmacOfCounter key k)
    trunc := some (truncate (hmacOfCounter key k).digest.bytes) }

section
variable (key : List Byte) (r : HmacResult) (t : TruncResult) (e : Engine)

/-- Three commits of one part each are one commit of three parts. -/
theorem Commit.apply_key_hmac_trunc :
    (Commit.apply { trunc := some t } (Commit.apply { hmac := some r }
        (Commit.apply { key := some key } e).markSuccess).markSuccess).markSuccess =
      (Commit.apply { key := some key, hmac := some r, trunc := some t } e).markSuccess := rfl

/-- A decimal code committed after them is a fourth part. -/
theorem Commit.apply_then_dec (d : DecResult) :
    (Commit.apply { dec := some d }
        (Commit.apply { key := some key, hmac := some r, trunc := some t } e).markSuccess).markSuccess =
      (Commit.apply { key := some key, hmac := some r, trunc := some t, dec := some d } e).markSuccess := rfl

/-- A Steam code committed after them is a fourth part. -/
theorem Commit.apply_then_steam (x : List Byte) :
    (Commit.apply { steam := some x }
        (Commit.apply { key := some key, hmac := some r, trunc := some t } e).markSuccess).markSuccess =
      (Commit.apply { key := some key, hmac := some r, trunc := some t, steam := some x } e).markSuccess := rfl

end

@[simp] theorem Commit.counter_markSuccess_apply (c : Commit) (e : Engine) :
    (c.apply e).markSuccess.counter = e.counter := by simp [Engine.counter]

/-- DECODE, HMAC and TRUNC in sequence leave what one commit of key, digest and truncation does. -/
theorem decode_hmac_trunc {s s₁ s₂ s₃ : State} {raw : Bool} (hp : s.eng.params.wf = true)
    (hm : Memory.wf s.eng.mem) (h₁ : exec (if raw then .decodeRaw else .decode) s = .next s₁)
    (he₁ : s₁.eng.error = false) (h₂ : exec .hmac s₁ = .next s₂) (h₃ : exec .trunc s₂ = .next s₃) :
    ∃ key, s.eng.initialized = true ∧ s.eng.HasKey raw key ∧
      s₃ = { s with eng := ((keyDigestCode key s.eng.counter).apply s.eng).markSuccess } := by
  obtain ⟨key, hinit, hkey, rfl⟩ := exec_decode_ok h₁ he₁
  refine ⟨key, hinit, hkey, ?_⟩
  have hread : (Commit.apply { key := some key } s.eng).markSuccess.key = key :=
    Engine.key_of_commitKey hp hm (keyOfSecret_of_hasKey hkey).2
  rw [exec_of_ok (resultOf_hmac (by simpa using hinit)), hread, Commit.counter_markSuccess_apply] at h₂
  obtain rfl := Host.Outcome.next.inj h₂
  rw [exec_of_ok (resultOf_trunc (by simpa using hinit)), Engine.markSuccess_digest, Commit.apply_digest,
    Option.elim_some, Commit.apply_key_hmac_trunc] at h₃
  exact (Host.Outcome.next.inj h₃).symm

/-- FMT_DEC after them leaves what HOTP does: it reads the code and DIGITS as they stand. -/
theorem fmtDec_after_keyDigestCode (key : List Byte) (k : DWord) (e : Engine) :
    (Commit.apply { dec := some (fmtDec ((keyDigestCode key k).apply e).markSuccess.dbc.toNat
        ((keyDigestCode key k).apply e).markSuccess.digits.toNat) }
      ((keyDigestCode key k).apply e).markSuccess).markSuccess =
      ((hotpCommit key k e.digits.toNat).apply e).markSuccess := by
  rw [Engine.markSuccess_dbc, Commit.apply_dbc, Engine.markSuccess_digits, Commit.apply_digits]
  exact Commit.apply_then_dec _ _ _ _ _

/-- FMT_STEAM after them leaves what STEAM does. -/
theorem fmtSteam_after_keyDigestCode (key : List Byte) (k : DWord) (e : Engine) :
    (Commit.apply { steam := some (fmtSteam ((keyDigestCode key k).apply e).markSuccess.dbc.toNat) }
      ((keyDigestCode key k).apply e).markSuccess).markSuccess =
      ((steamCommit key k).apply e).markSuccess := by
  rw [Engine.markSuccess_dbc, Commit.apply_dbc]
  exact Commit.apply_then_steam _ _ _ _ _

/-- FMT_DEC that succeeds commits the code of DBC, for a legal count of digits (44_hotp_decimal.md R265). -/
theorem exec_fmtDec_ok {s t : State} (h : exec .fmtDec s = .next t) (he : t.eng.error = false) :
    (1 ≤ s.eng.digits.toNat ∧ s.eng.digits.toNat ≤ 10) ∧
      t = { s with eng :=
        (Commit.apply { dec := some (fmtDec s.eng.dbc.toNat s.eng.digits.toNat) } s.eng).markSuccess } := by
  obtain ⟨c, hr, rfl⟩ := exec_ok_cases h he
  have hfmt := (gated_ok hr).2
  rw [fmtDecCommand_eq] at hfmt
  split_ifs at hfmt with hdig
  obtain rfl := Except.ok.inj hfmt
  exact ⟨hdig, rfl⟩

/-- Settles O40: the output stage reads the code that TRUNC left, so its commit completes the generator's. -/
theorem componentSequenceEqualsTheGenerator : Obligations.ComponentSequenceEqualsTheGenerator := by
  intro s s₁ s₂ s₃ raw hp hm h₁ he₁ h₂ h₃
  obtain ⟨key, hinit, hkey, rfl⟩ := decode_hmac_trunc hp hm h₁ he₁ h₂ h₃
  refine ⟨fun s₄ t h₄ he₄ ht => ?_, fun s₄ t hc h₄ ht => ?_⟩
  · obtain ⟨hdig, rfl⟩ := exec_fmtDec_ok h₄ he₄
    have hr := resultOf_hotp_of_hasKey (i := if raw then .hotpRaw else .hotp) (by cases raw <;> decide) hinit
      (by simpa using hdig) hkey
    rw [exec_of_ok hr] at ht
    obtain rfl := Host.Outcome.next.inj ht
    rw [fmtDec_after_keyDigestCode]
    exact ⟨rfl, fun j hj => Commit.apply_steamByte (resultOf_bounded hr).1 hm hj⟩
  · have hcounter : s.eng.counter = s.eng.steamCounter :=
      BitVec.eq_of_toNat_eq (hc.trans s.eng.steamCounter_toNat.symm)
    have hr := resultOf_steam_of_hasKey (i := if raw then .steamRaw else .steam) (by cases raw <;> decide) hinit
      hkey
    rw [exec_of_ok hr, ← hcounter] at ht
    rw [exec_of_ok (resultOf_fmtSteam (by simp [hinit])), fmtSteam_after_keyDigestCode, ht] at h₄
    exact (Host.Outcome.next.inj h₄).symm

/-! ### The base32 bit stream (R171, R175, R177) -/

/-- The symbol values of R171, written out. -/
theorem symbolValue_eq_some_iff (c : Byte) (v : Nat) :
    symbolValue c = some v ↔
      (v < 26 ∧ (c.toNat = 0x41 + v ∨ c.toNat = 0x61 + v)) ∨
      (26 ≤ v ∧ v < 32 ∧ c.toNat = 0x32 + (v - 26)) := by
  simp only [symbolValue]
  split_ifs <;> simp only [Option.some.injEq, false_iff] <;> omega

theorem symbolValue_lt {c : Byte} {v : Nat} (h : symbolValue c = some v) : v < 32 := by
  have := (symbolValue_eq_some_iff c v).1 h
  omega

/-- A byte string as a base-256 number. -/
def bytesValue (s : List Byte) : Nat := s.foldl (fun n b => n * 256 + b.toNat) 0

theorem bytesValue_snoc (s : List Byte) (b : Byte) : bytesValue (s ++ [b]) = bytesValue s * 256 + b.toNat := by
  simp [bytesValue]

/-- The number whose base-32 digits are those of `n` and then the values of the symbols of `s`. -/
def symbolsValue (s : List Byte) (n : Nat) : Nat :=
  (s.filter fun c => c != paddingByte).foldl (fun n c => n * 32 + (symbolValue c).getD 0) n

/-- The count of the symbols, padding left out. -/
def symbolCount (s : List Byte) : Nat := (s.filter fun c => c != paddingByte).length

theorem symbols_cons_padding (s : List Byte) (n : Nat) :
    symbolsValue (paddingByte :: s) n = symbolsValue s n ∧ symbolCount (paddingByte :: s) = symbolCount s := by
  simp [symbolsValue, symbolCount]

theorem symbols_cons {c : Byte} {v : Nat} (hc : c ≠ paddingByte) (hv : symbolValue c = some v) (s : List Byte)
    (n : Nat) : symbolsValue (c :: s) n = symbolsValue s (n * 32 + v) ∧ symbolCount (c :: s) = symbolCount s + 1 := by
  simp [symbolsValue, symbolCount, hc, hv]

/-- A symbol that completes a byte: the bits seen so far are those of the longer key and the bits left over. -/
theorem bits_of_emitted_byte (key : List Byte) {acc v nbits : Nat} (hacc : acc < 2 ^ nbits) (hv : v < 32)
    (h3 : 3 ≤ nbits) :
    bytesValue (key ++ [BitVec.ofNat 8 ((acc * 32 + v) / 2 ^ (nbits - 3) % 256)]) * 2 ^ (nbits - 3) +
        (acc * 32 + v) % 2 ^ (nbits - 3) =
      (bytesValue key * 2 ^ nbits + acc) * 32 + v := by
  obtain ⟨m, rfl⟩ := Nat.exists_eq_add_of_le' h3
  rw [Nat.add_sub_cancel, bytesValue_snoc, BitVec.toNat_ofNat, Nat.mod_mod]
  have hbyte : (acc * 32 + v) / 2 ^ m < 256 := by
    rw [Nat.div_lt_iff_lt_mul (Nat.two_pow_pos m)]
    rw [Nat.pow_add] at hacc
    omega
  rw [Nat.mod_eq_of_lt hbyte, Nat.add_mul, Nat.add_assoc, Nat.div_add_mod', Nat.pow_add]
  ring

/-- From fewer than 8 leftover bits, a run that succeeds makes the bytes of the bit stream: the key, the leftover bits
and then five bits a symbol, cut down to whole bytes (R175, R177). -/
theorem b32Loop_value {s : List Byte} {acc nbits : Nat} {key key' : List Byte} {p : Bool} (hn : nbits < 8)
    (hacc : acc < 2 ^ nbits) (h : b32Loop s acc nbits key p = .ok key') :
    bytesValue key' =
      symbolsValue s (bytesValue key * 2 ^ nbits + acc) / 2 ^ ((nbits + 5 * symbolCount s) % 8) := by
  induction s generalizing acc nbits key p with
  | nil =>
    injection h with h
    subst h
    change bytesValue key = (bytesValue key * 2 ^ nbits + acc) / 2 ^ ((nbits + 5 * 0) % 8)
    rw [Nat.mul_zero, Nat.add_zero, Nat.mod_eq_of_lt hn, Nat.mul_comm, Nat.mul_add_div (Nat.two_pow_pos _),
      Nat.div_eq_of_lt hacc, Nat.add_zero]
  | cons c cs ih =>
    rcases b32Loop_cons c cs acc nbits key p with
      ⟨rfl, e⟩ | ⟨_, _, e⟩ | ⟨v, hc, _, hv, h3, e⟩ | ⟨v, hc, _, hv, h3, e⟩ <;> rw [e] at h
    · obtain ⟨hval, hcount⟩ := symbols_cons_padding cs (bytesValue key * 2 ^ nbits + acc)
      rw [hval, hcount]
      exact ih hn hacc h
    · cases h
    · obtain ⟨hval, hcount⟩ := symbols_cons hc hv cs (bytesValue key * 2 ^ nbits + acc)
      have hbits : (nbits - 3 + 5 * symbolCount cs) % 8 = (nbits + 5 * (symbolCount cs + 1)) % 8 := by omega
      rw [hval, hcount, ih (by omega) (Nat.mod_lt _ (Nat.two_pow_pos _)) h,
        bits_of_emitted_byte key hacc (symbolValue_lt hv) h3, hbits]
    · obtain ⟨hval, hcount⟩ := symbols_cons hc hv cs (bytesValue key * 2 ^ nbits + acc)
      have hbits : (nbits + 5 + 5 * symbolCount cs) % 8 = (nbits + 5 * (symbolCount cs + 1)) % 8 := by omega
      have hv := symbolValue_lt hv
      have hstream : bytesValue key * 2 ^ (nbits + 5) + (acc * 32 + v) =
          (bytesValue key * 2 ^ nbits + acc) * 32 + v := by
        rw [Nat.pow_add]
        ring
      rw [hval, hcount, ih (by omega) (by rw [Nat.pow_add]; omega) h, hstream, hbits]

/-- Settles O46: the decoder starts with no bits and an empty key. -/
theorem decodedKeyIsTheBitStream : Obligations.DecodedKeyIsTheBitStream := by
  refine ⟨symbolValue_eq_some_iff, fun s key h => ?_⟩
  have hvalue := b32Loop_value (key := []) (by decide) (by decide) h
  simpa [bytesValue, symbolsValue, symbolCount, paddingByte] using hvalue

/-! ### The published digests -/

/-- Settles O50, by running SHA-1 on one block each. -/
theorem sha1GivesThePublishedDigests : Obligations.Sha1GivesThePublishedDigests := by
  unfold Obligations.Sha1GivesThePublishedDigests
  decide +kernel

/-- Settles O60, by running HMAC-SHA1. -/
theorem hmacGivesThePublishedDigests : Obligations.HmacGivesThePublishedDigests := by
  unfold Obligations.HmacGivesThePublishedDigests
  decide +kernel

end Sys2Proof.Machine
